-- ==== Sys2Proof/Word.lean ====
section
/-! DEFINITION. The two word types of the core (spec/00_scope.md R5): a byte and a 16-bit address. -/

namespace Sys2Proof

/-- An 8-bit value: A, X, Y, S, P and every Bus transfer (R5). -/
abbrev Byte := BitVec 8

/-- A 16-bit value: PC and every address (R5). Arithmetic on it wraps mod 65536 (R8). -/
abbrev Addr := BitVec 16

end Sys2Proof
end

