-- ==== Sys2Proof/Config.lean ====
section
/-! DEFINITION. The parameters of spec/00_scope.md R6 as plain data, and the two free values of the model: what a memory
cell that the launch does not set holds, and the byte an I/O read draws. -/

namespace Sys2Proof

/-- One Bus operation as R59 of spec/20_memory.md records it: a read with the byte returned, or a write with its byte. -/
inductive BusEvent where
  | read (a : Addr) (v : Byte)
  | write (a : Addr) (v : Byte)
  deriving DecidableEq, Repr

/-- One replaced entry of a decimal function: on the operands `a`, `m` and carry `c` it answers `r` and the carry
`cout` (R6, R147: a model may replace BCD_ADC and BCD_SBC by other total functions). -/
structure BcdEntry where
  a : Byte
  m : Byte
  c : Bool
  r : Byte
  cout : Bool
  deriving DecidableEq, Repr

/-- The parameters of R6. `memLen` is MEM_LEN, `resetVector` RESET_VECTOR, `ioRegion` IO_REGION (a set: only
membership is ever asked), `bcdAdc` and `bcdSbc` the replaced entries of BCD_ADC and BCD_SBC over the defaults of
R143 and R146. The default of each field is the value this hardware takes. The launch memory M0 (R58) is the start state's
listed cells, and for the cells it does not set the number `launch`, which names the launch (the MODEL's own, log 1).
DESIGN CHOICE (log 2, log 3): parameters are a field of State, because the step takes no other argument. Safe. -/
structure Config where
  memLen : Nat := 65536
  resetVector : Addr := 0xFFFC
  ioRegion : List Addr := []
  bcdAdc : List BcdEntry := []
  bcdSbc : List BcdEntry := []
  launch : Nat := 0
  deriving DecidableEq, Repr

/-- R6: MEM_LEN is a natural number with 1 ≤ MEM_LEN ≤ 65536. Any other configuration is refused
(spec/93_implementation_defined.md row 5, log 7). -/
def Config.ok (c : Config) : Bool := decide (1 ≤ c.memLen) && decide (c.memLen ≤ 65536)

/-- R58: the byte that a cell which the launch `launch` does not set holds until it is written. A free value: it has no
body, so no proof knows any value of it (log 1). DESIGN CHOICE: its form, a function of the launch and the address, so that
a cell reads the same until it is written (R41). Safe. -/
opaque Config.unsetByte (launch : Nat) (a : Nat) : Byte

/-- R41, D3: the byte a read of an address in IO_REGION returns, given the Bus events before it (newest first). A
free value: it has no body, so no proof knows any value of it (log 4). Safe. -/
opaque Config.drawIo (history : List BusEvent) (a : Addr) : Byte

end Sys2Proof
end

