-- ==== Sys2Proof/Syntax.lean ====
section
/-! DEFINITION. The syntax: the 13 addressing modes (spec/30_encoding.md R64), the 56 mnemonics (R65), and one
constructor of `Instr` for each of the 151 rows of spec/opcode_table.json (R62, R66). A constructor is its row's
mnemonic followed by its mode: Imm, Zp, ZpX, ZpY, Abs, AbsX, AbsY, Ind, IndX for (zp,X), IndY for (zp),Y, Acc;
Implied and Relative rows, and JSR, are the mnemonic alone.

DESIGN CHOICE (log 12), safe: a constructor has no operand field, because R63 decodes the opcode byte alone and R60,
R84 and R86 have the operand bytes fetched during execution, for JSR after its pushes. `Code` is an instruction
together with its operand bytes, as it stands in memory (R61). -/

namespace Sys2Proof

/-- The closed enumeration of addressing modes (R64). -/
inductive Mode where
  /-- Implied -/
  | implied
  /-- Accumulator -/
  | accumulator
  /-- Immediate -/
  | immediate
  /-- Relative -/
  | relative
  /-- ZeroPage -/
  | zeroPage
  /-- ZeroPage,X -/
  | zeroPageX
  /-- ZeroPage,Y -/
  | zeroPageY
  /-- Absolute -/
  | absolute
  /-- Absolute,X -/
  | absoluteX
  /-- Absolute,Y -/
  | absoluteY
  /-- Indirect -/
  | indirect
  /-- Indexed-Indirect (zp,X) -/
  | indexedIndirect
  /-- Indirect-Indexed (zp),Y -/
  | indirectIndexed
  deriving DecidableEq, Repr

/-- The closed enumeration of mnemonics (R65). -/
inductive Mnemonic where
  | LDA | LDX | LDY | STA | STX | STY | TAX | TAY | TXA | TYA
  | TSX | TXS | CLC | CLD | CLI | CLV | SEC | SED | SEI | INC
  | DEC | INX | INY | DEX | DEY | CMP | CPX | CPY | AND | ORA
  | EOR | ASL | LSR | ROL | ROR | BEQ | BNE | BMI | BPL | BCS
  | BCC | BVC | BVS | JMP | JSR | RTS | PHA | PLA | PHP | PLP
  | BIT | ADC | SBC | BRK | RTI | NOP
  deriving DecidableEq, Repr

/-- The instructions: one constructor per row of the opcode table (R62, R66). -/
inductive Instr where
  -- LDA (R90)
  | ldaImm | ldaZp | ldaZpX | ldaAbs | ldaAbsX | ldaAbsY | ldaIndX | ldaIndY
  -- LDX (R91)
  | ldxImm | ldxZp | ldxZpY | ldxAbs | ldxAbsY
  -- LDY (R92)
  | ldyImm | ldyZp | ldyZpX | ldyAbs | ldyAbsX
  -- STA (R93)
  | staZp | staZpX | staAbs | staAbsX | staAbsY | staIndX | staIndY
  -- STX (R94)
  | stxZp | stxZpY | stxAbs
  -- STY (R95)
  | styZp | styZpX | styAbs
  -- TAX (R96)
  | tax
  -- TAY (R97)
  | tay
  -- TXA (R98)
  | txa
  -- TYA (R99)
  | tya
  -- TSX (R100)
  | tsx
  -- TXS (R101)
  | txs
  -- CLC (R102)
  | clc
  -- CLD (R103)
  | cld
  -- CLI (R104)
  | cli
  -- CLV (R105)
  | clv
  -- SEC (R106)
  | sec
  -- SED (R107)
  | sed
  -- SEI (R108)
  | sei
  -- INC (R109)
  | incZp | incZpX | incAbs | incAbsX
  -- DEC (R110)
  | decZp | decZpX | decAbs | decAbsX
  -- INX (R111)
  | inx
  -- INY (R112)
  | iny
  -- DEX (R113)
  | dex
  -- DEY (R114)
  | dey
  -- CMP (R115)
  | cmpImm | cmpZp | cmpZpX | cmpAbs | cmpAbsX | cmpAbsY | cmpIndX | cmpIndY
  -- CPX (R116)
  | cpxImm | cpxZp | cpxAbs
  -- CPY (R117)
  | cpyImm | cpyZp | cpyAbs
  -- AND (R118)
  | andImm | andZp | andZpX | andAbs | andAbsX | andAbsY | andIndX | andIndY
  -- ORA (R119)
  | oraImm | oraZp | oraZpX | oraAbs | oraAbsX | oraAbsY | oraIndX | oraIndY
  -- EOR (R120)
  | eorImm | eorZp | eorZpX | eorAbs | eorAbsX | eorAbsY | eorIndX | eorIndY
  -- ASL (R121)
  | aslAcc | aslZp | aslZpX | aslAbs | aslAbsX
  -- LSR (R122)
  | lsrAcc | lsrZp | lsrZpX | lsrAbs | lsrAbsX
  -- ROL (R123)
  | rolAcc | rolZp | rolZpX | rolAbs | rolAbsX
  -- ROR (R124)
  | rorAcc | rorZp | rorZpX | rorAbs | rorAbsX
  -- BEQ (R126)
  | beq
  -- BNE (R127)
  | bne
  -- BMI (R128)
  | bmi
  -- BPL (R129)
  | bpl
  -- BCS (R130)
  | bcs
  -- BCC (R131)
  | bcc
  -- BVC (R132)
  | bvc
  -- BVS (R133)
  | bvs
  -- JMP (R134)
  | jmpAbs | jmpInd
  -- JSR (R135)
  | jsr
  -- RTS (R136)
  | rts
  -- PHA (R137)
  | pha
  -- PLA (R138)
  | pla
  -- PHP (R139)
  | php
  -- PLP (R140)
  | plp
  -- BIT (R141)
  | bitZp | bitAbs
  -- ADC (R142)
  | adcImm | adcZp | adcZpX | adcAbs | adcAbsX | adcAbsY | adcIndX | adcIndY
  -- SBC (R145)
  | sbcImm | sbcZp | sbcZpX | sbcAbs | sbcAbsX | sbcAbsY | sbcIndX | sbcIndY
  -- BRK (R150)
  | brk
  -- RTI (R151)
  | rti
  -- NOP (R152)
  | nop
  deriving DecidableEq, Repr

/-- An instruction as it stands in memory: its row and the bytes that follow the opcode (R61). -/
structure Code where
  instr : Instr
  operands : List Byte
  deriving DecidableEq, Repr

/-- What the decoder reads from a list of bytes: an instruction with its operand bytes and the bytes after it, or a
rejection by name. `unimplemented`: the first byte has no table entry (R63, R87). `truncated`: the list ends before the
instruction does. -/
inductive Decoded where
  | code (c : Code) (rest : List Byte)
  | unimplemented (opcode : Byte)
  | truncated
  deriving DecidableEq, Repr

end Sys2Proof
end

