-- ==== Sys2Proof/Decode.lean ====
section
/-! DEFINITION. Decoding and encoding. `matrix` is the 256-entry decode table of spec/30_encoding.md R62, row by row;
`decodeOpcode` looks a byte up in it (R63); `decode` reads a whole instruction from bytes, total, rejecting by name.
`Instr.opcode` is written from R66, mnemonic by mnemonic, and `encode` from R61.
PRESUMED (log 10), unsafe: the contents of the table are the spec's general knowledge (D17). -/

namespace Sys2Proof

/-- High-nibble row 0 of R62, columns 0 to F. -/
def matrixRow0 : List (Option Instr) :=
  [some .brk, some .oraIndX, none, none, none, some .oraZp, some .aslZp, none,
   some .php, some .oraImm, some .aslAcc, none, none, some .oraAbs, some .aslAbs, none]

/-- High-nibble row 1 of R62, columns 0 to F. -/
def matrixRow1 : List (Option Instr) :=
  [some .bpl, some .oraIndY, none, none, none, some .oraZpX, some .aslZpX, none,
   some .clc, some .oraAbsY, none, none, none, some .oraAbsX, some .aslAbsX, none]

/-- High-nibble row 2 of R62, columns 0 to F. -/
def matrixRow2 : List (Option Instr) :=
  [some .jsr, some .andIndX, none, none, some .bitZp, some .andZp, some .rolZp, none,
   some .plp, some .andImm, some .rolAcc, none, some .bitAbs, some .andAbs, some .rolAbs, none]

/-- High-nibble row 3 of R62, columns 0 to F. -/
def matrixRow3 : List (Option Instr) :=
  [some .bmi, some .andIndY, none, none, none, some .andZpX, some .rolZpX, none,
   some .sec, some .andAbsY, none, none, none, some .andAbsX, some .rolAbsX, none]

/-- High-nibble row 4 of R62, columns 0 to F. -/
def matrixRow4 : List (Option Instr) :=
  [some .rti, some .eorIndX, none, none, none, some .eorZp, some .lsrZp, none,
   some .pha, some .eorImm, some .lsrAcc, none, some .jmpAbs, some .eorAbs, some .lsrAbs, none]

/-- High-nibble row 5 of R62, columns 0 to F. -/
def matrixRow5 : List (Option Instr) :=
  [some .bvc, some .eorIndY, none, none, none, some .eorZpX, some .lsrZpX, none,
   some .cli, some .eorAbsY, none, none, none, some .eorAbsX, some .lsrAbsX, none]

/-- High-nibble row 6 of R62, columns 0 to F. -/
def matrixRow6 : List (Option Instr) :=
  [some .rts, some .adcIndX, none, none, none, some .adcZp, some .rorZp, none,
   some .pla, some .adcImm, some .rorAcc, none, some .jmpInd, some .adcAbs, some .rorAbs, none]

/-- High-nibble row 7 of R62, columns 0 to F. -/
def matrixRow7 : List (Option Instr) :=
  [some .bvs, some .adcIndY, none, none, none, some .adcZpX, some .rorZpX, none,
   some .sei, some .adcAbsY, none, none, none, some .adcAbsX, some .rorAbsX, none]

/-- High-nibble row 8 of R62, columns 0 to F. -/
def matrixRow8 : List (Option Instr) :=
  [none, some .staIndX, none, none, some .styZp, some .staZp, some .stxZp, none,
   some .dey, none, some .txa, none, some .styAbs, some .staAbs, some .stxAbs, none]

/-- High-nibble row 9 of R62, columns 0 to F. -/
def matrixRow9 : List (Option Instr) :=
  [some .bcc, some .staIndY, none, none, some .styZpX, some .staZpX, some .stxZpY, none,
   some .tya, some .staAbsY, some .txs, none, none, some .staAbsX, none, none]

/-- High-nibble row A of R62, columns 0 to F. -/
def matrixRowA : List (Option Instr) :=
  [some .ldyImm, some .ldaIndX, some .ldxImm, none, some .ldyZp, some .ldaZp, some .ldxZp, none,
   some .tay, some .ldaImm, some .tax, none, some .ldyAbs, some .ldaAbs, some .ldxAbs, none]

/-- High-nibble row B of R62, columns 0 to F. -/
def matrixRowB : List (Option Instr) :=
  [some .bcs, some .ldaIndY, none, none, some .ldyZpX, some .ldaZpX, some .ldxZpY, none,
   some .clv, some .ldaAbsY, some .tsx, none, some .ldyAbsX, some .ldaAbsX, some .ldxAbsY, none]

/-- High-nibble row C of R62, columns 0 to F. -/
def matrixRowC : List (Option Instr) :=
  [some .cpyImm, some .cmpIndX, none, none, some .cpyZp, some .cmpZp, some .decZp, none,
   some .iny, some .cmpImm, some .dex, none, some .cpyAbs, some .cmpAbs, some .decAbs, none]

/-- High-nibble row D of R62, columns 0 to F. -/
def matrixRowD : List (Option Instr) :=
  [some .bne, some .cmpIndY, none, none, none, some .cmpZpX, some .decZpX, none,
   some .cld, some .cmpAbsY, none, none, none, some .cmpAbsX, some .decAbsX, none]

/-- High-nibble row E of R62, columns 0 to F. -/
def matrixRowE : List (Option Instr) :=
  [some .cpxImm, some .sbcIndX, none, none, some .cpxZp, some .sbcZp, some .incZp, none,
   some .inx, some .sbcImm, some .nop, none, some .cpxAbs, some .sbcAbs, some .incAbs, none]

/-- High-nibble row F of R62, columns 0 to F. -/
def matrixRowF : List (Option Instr) :=
  [some .beq, some .sbcIndY, none, none, none, some .sbcZpX, some .incZpX, none,
   some .sed, some .sbcAbsY, none, none, none, some .sbcAbsX, some .incAbsX, none]

/-- R62: the decode table, indexed by high-nibble row and low-nibble column. -/
def matrix : List (List (Option Instr)) :=
  [matrixRow0, matrixRow1, matrixRow2, matrixRow3, matrixRow4, matrixRow5, matrixRow6, matrixRow7] ++
  [matrixRow8, matrixRow9, matrixRowA, matrixRowB, matrixRowC, matrixRowD, matrixRowE, matrixRowF]

/-- R62, R63: `table[opcode >> 4][opcode & 0xF]`; none is an absent entry. -/
def decodeOpcode (op : Byte) : Option Instr :=
  match matrix[op.toNat / 16]? with
  | some row => (row[op.toNat % 16]?).join
  | none => none

/-- The mnemonic of a row (R66). -/
def Instr.mnemonic : Instr → Mnemonic
  | .ldaImm | .ldaZp | .ldaZpX | .ldaAbs | .ldaAbsX | .ldaAbsY | .ldaIndX | .ldaIndY => .LDA
  | .ldxImm | .ldxZp | .ldxZpY | .ldxAbs | .ldxAbsY => .LDX
  | .ldyImm | .ldyZp | .ldyZpX | .ldyAbs | .ldyAbsX => .LDY
  | .staZp | .staZpX | .staAbs | .staAbsX | .staAbsY | .staIndX | .staIndY => .STA
  | .stxZp | .stxZpY | .stxAbs => .STX
  | .styZp | .styZpX | .styAbs => .STY
  | .tax => .TAX
  | .tay => .TAY
  | .txa => .TXA
  | .tya => .TYA
  | .tsx => .TSX
  | .txs => .TXS
  | .clc => .CLC
  | .cld => .CLD
  | .cli => .CLI
  | .clv => .CLV
  | .sec => .SEC
  | .sed => .SED
  | .sei => .SEI
  | .incZp | .incZpX | .incAbs | .incAbsX => .INC
  | .decZp | .decZpX | .decAbs | .decAbsX => .DEC
  | .inx => .INX
  | .iny => .INY
  | .dex => .DEX
  | .dey => .DEY
  | .cmpImm | .cmpZp | .cmpZpX | .cmpAbs | .cmpAbsX | .cmpAbsY | .cmpIndX | .cmpIndY => .CMP
  | .cpxImm | .cpxZp | .cpxAbs => .CPX
  | .cpyImm | .cpyZp | .cpyAbs => .CPY
  | .andImm | .andZp | .andZpX | .andAbs | .andAbsX | .andAbsY | .andIndX | .andIndY => .AND
  | .oraImm | .oraZp | .oraZpX | .oraAbs | .oraAbsX | .oraAbsY | .oraIndX | .oraIndY => .ORA
  | .eorImm | .eorZp | .eorZpX | .eorAbs | .eorAbsX | .eorAbsY | .eorIndX | .eorIndY => .EOR
  | .aslAcc | .aslZp | .aslZpX | .aslAbs | .aslAbsX => .ASL
  | .lsrAcc | .lsrZp | .lsrZpX | .lsrAbs | .lsrAbsX => .LSR
  | .rolAcc | .rolZp | .rolZpX | .rolAbs | .rolAbsX => .ROL
  | .rorAcc | .rorZp | .rorZpX | .rorAbs | .rorAbsX => .ROR
  | .beq => .BEQ
  | .bne => .BNE
  | .bmi => .BMI
  | .bpl => .BPL
  | .bcs => .BCS
  | .bcc => .BCC
  | .bvc => .BVC
  | .bvs => .BVS
  | .jmpAbs | .jmpInd => .JMP
  | .jsr => .JSR
  | .rts => .RTS
  | .pha => .PHA
  | .pla => .PLA
  | .php => .PHP
  | .plp => .PLP
  | .bitZp | .bitAbs => .BIT
  | .adcImm | .adcZp | .adcZpX | .adcAbs | .adcAbsX | .adcAbsY | .adcIndX | .adcIndY => .ADC
  | .sbcImm | .sbcZp | .sbcZpX | .sbcAbs | .sbcAbsX | .sbcAbsY | .sbcIndX | .sbcIndY => .SBC
  | .brk => .BRK
  | .rti => .RTI
  | .nop => .NOP

/-- The addressing mode of a row (R66). -/
def Instr.mode : Instr → Mode
  | .tax | .tay | .txa | .tya | .tsx | .txs | .clc | .cld | .cli | .clv
  | .sec | .sed | .sei | .inx | .iny | .dex | .dey | .rts | .pha | .pla
  | .php | .plp | .brk | .rti | .nop => .implied
  | .aslAcc | .lsrAcc | .rolAcc | .rorAcc => .accumulator
  | .ldaImm | .ldxImm | .ldyImm | .cmpImm | .cpxImm | .cpyImm | .andImm | .oraImm | .eorImm | .adcImm
  | .sbcImm => .immediate
  | .beq | .bne | .bmi | .bpl | .bcs | .bcc | .bvc | .bvs => .relative
  | .ldaZp | .ldxZp | .ldyZp | .staZp | .stxZp | .styZp | .incZp | .decZp | .cmpZp | .cpxZp
  | .cpyZp | .andZp | .oraZp | .eorZp | .aslZp | .lsrZp | .rolZp | .rorZp | .bitZp | .adcZp
  | .sbcZp => .zeroPage
  | .ldaZpX | .ldyZpX | .staZpX | .styZpX | .incZpX | .decZpX | .cmpZpX | .andZpX | .oraZpX | .eorZpX
  | .aslZpX | .lsrZpX | .rolZpX | .rorZpX | .adcZpX | .sbcZpX => .zeroPageX
  | .ldxZpY | .stxZpY => .zeroPageY
  | .ldaAbs | .ldxAbs | .ldyAbs | .staAbs | .stxAbs | .styAbs | .incAbs | .decAbs | .cmpAbs | .cpxAbs
  | .cpyAbs | .andAbs | .oraAbs | .eorAbs | .aslAbs | .lsrAbs | .rolAbs | .rorAbs | .jmpAbs | .jsr
  | .bitAbs | .adcAbs | .sbcAbs => .absolute
  | .ldaAbsX | .ldyAbsX | .staAbsX | .incAbsX | .decAbsX | .cmpAbsX | .andAbsX | .oraAbsX | .eorAbsX | .aslAbsX
  | .lsrAbsX | .rolAbsX | .rorAbsX | .adcAbsX | .sbcAbsX => .absoluteX
  | .ldaAbsY | .ldxAbsY | .staAbsY | .cmpAbsY | .andAbsY | .oraAbsY | .eorAbsY | .adcAbsY | .sbcAbsY => .absoluteY
  | .jmpInd => .indirect
  | .ldaIndX | .staIndX | .cmpIndX | .andIndX | .oraIndX | .eorIndX | .adcIndX | .sbcIndX => .indexedIndirect
  | .ldaIndY | .staIndY | .cmpIndY | .andIndY | .oraIndY | .eorIndY | .adcIndY | .sbcIndY => .indirectIndexed

/-- R61: how many operand bytes follow the opcode. -/
def Mode.operandBytes : Mode → Nat
  | .implied | .accumulator => 0
  | .immediate | .relative | .zeroPage | .zeroPageX | .zeroPageY | .indexedIndirect | .indirectIndexed => 1
  | .absolute | .absoluteX | .absoluteY | .indirect => 2

/-- R61, R89: the length in bytes of an instruction, fixed by its row. -/
def Instr.length (i : Instr) : Nat := 1 + i.mode.operandBytes

/-- Reads one instruction from the front of a list of bytes (R61, R63, R89). -/
def decode : List Byte → Decoded
  | [] => .truncated
  | op :: tail =>
    match decodeOpcode op with
    | none => .unimplemented op
    | some i =>
      if i.mode.operandBytes ≤ tail.length then
        .code ⟨i, tail.take i.mode.operandBytes⟩ (tail.drop i.mode.operandBytes)
      else .truncated

/-- The opcode byte of a row, by mnemonic and mode as R66 lists them. -/
def Instr.opcode : Instr → Byte
  | .ldaImm => 0xA9
  | .ldaZp => 0xA5
  | .ldaZpX => 0xB5
  | .ldaAbs => 0xAD
  | .ldaAbsX => 0xBD
  | .ldaAbsY => 0xB9
  | .ldaIndX => 0xA1
  | .ldaIndY => 0xB1
  | .ldxImm => 0xA2
  | .ldxZp => 0xA6
  | .ldxZpY => 0xB6
  | .ldxAbs => 0xAE
  | .ldxAbsY => 0xBE
  | .ldyImm => 0xA0
  | .ldyZp => 0xA4
  | .ldyZpX => 0xB4
  | .ldyAbs => 0xAC
  | .ldyAbsX => 0xBC
  | .staZp => 0x85
  | .staZpX => 0x95
  | .staAbs => 0x8D
  | .staAbsX => 0x9D
  | .staAbsY => 0x99
  | .staIndX => 0x81
  | .staIndY => 0x91
  | .stxZp => 0x86
  | .stxZpY => 0x96
  | .stxAbs => 0x8E
  | .styZp => 0x84
  | .styZpX => 0x94
  | .styAbs => 0x8C
  | .tax => 0xAA
  | .tay => 0xA8
  | .txa => 0x8A
  | .tya => 0x98
  | .tsx => 0xBA
  | .txs => 0x9A
  | .clc => 0x18
  | .cld => 0xD8
  | .cli => 0x58
  | .clv => 0xB8
  | .sec => 0x38
  | .sed => 0xF8
  | .sei => 0x78
  | .incZp => 0xE6
  | .incZpX => 0xF6
  | .incAbs => 0xEE
  | .incAbsX => 0xFE
  | .decZp => 0xC6
  | .decZpX => 0xD6
  | .decAbs => 0xCE
  | .decAbsX => 0xDE
  | .inx => 0xE8
  | .iny => 0xC8
  | .dex => 0xCA
  | .dey => 0x88
  | .cmpImm => 0xC9
  | .cmpZp => 0xC5
  | .cmpZpX => 0xD5
  | .cmpAbs => 0xCD
  | .cmpAbsX => 0xDD
  | .cmpAbsY => 0xD9
  | .cmpIndX => 0xC1
  | .cmpIndY => 0xD1
  | .cpxImm => 0xE0
  | .cpxZp => 0xE4
  | .cpxAbs => 0xEC
  | .cpyImm => 0xC0
  | .cpyZp => 0xC4
  | .cpyAbs => 0xCC
  | .andImm => 0x29
  | .andZp => 0x25
  | .andZpX => 0x35
  | .andAbs => 0x2D
  | .andAbsX => 0x3D
  | .andAbsY => 0x39
  | .andIndX => 0x21
  | .andIndY => 0x31
  | .oraImm => 0x09
  | .oraZp => 0x05
  | .oraZpX => 0x15
  | .oraAbs => 0x0D
  | .oraAbsX => 0x1D
  | .oraAbsY => 0x19
  | .oraIndX => 0x01
  | .oraIndY => 0x11
  | .eorImm => 0x49
  | .eorZp => 0x45
  | .eorZpX => 0x55
  | .eorAbs => 0x4D
  | .eorAbsX => 0x5D
  | .eorAbsY => 0x59
  | .eorIndX => 0x41
  | .eorIndY => 0x51
  | .aslAcc => 0x0A
  | .aslZp => 0x06
  | .aslZpX => 0x16
  | .aslAbs => 0x0E
  | .aslAbsX => 0x1E
  | .lsrAcc => 0x4A
  | .lsrZp => 0x46
  | .lsrZpX => 0x56
  | .lsrAbs => 0x4E
  | .lsrAbsX => 0x5E
  | .rolAcc => 0x2A
  | .rolZp => 0x26
  | .rolZpX => 0x36
  | .rolAbs => 0x2E
  | .rolAbsX => 0x3E
  | .rorAcc => 0x6A
  | .rorZp => 0x66
  | .rorZpX => 0x76
  | .rorAbs => 0x6E
  | .rorAbsX => 0x7E
  | .beq => 0xF0
  | .bne => 0xD0
  | .bmi => 0x30
  | .bpl => 0x10
  | .bcs => 0xB0
  | .bcc => 0x90
  | .bvc => 0x50
  | .bvs => 0x70
  | .jmpAbs => 0x4C
  | .jmpInd => 0x6C
  | .jsr => 0x20
  | .rts => 0x60
  | .pha => 0x48
  | .pla => 0x68
  | .php => 0x08
  | .plp => 0x28
  | .bitZp => 0x24
  | .bitAbs => 0x2C
  | .adcImm => 0x69
  | .adcZp => 0x65
  | .adcZpX => 0x75
  | .adcAbs => 0x6D
  | .adcAbsX => 0x7D
  | .adcAbsY => 0x79
  | .adcIndX => 0x61
  | .adcIndY => 0x71
  | .sbcImm => 0xE9
  | .sbcZp => 0xE5
  | .sbcZpX => 0xF5
  | .sbcAbs => 0xED
  | .sbcAbsX => 0xFD
  | .sbcAbsY => 0xF9
  | .sbcIndX => 0xE1
  | .sbcIndY => 0xF1
  | .brk => 0x00
  | .rti => 0x40
  | .nop => 0xEA

/-- R61: the bytes of an instruction, the opcode first. -/
def encode (c : Code) : List Byte := c.instr.opcode :: c.operands

/-- The `n` bytes of a number, the least significant first (R45). -/
def littleBytes : Nat → Nat → List Byte
  | 0, _ => []
  | n + 1, v => BitVec.ofNat 8 v :: littleBytes n (v / 256)

/-- The instruction the decoder reads from an instruction whose bits are `w`, numbered as spec/opcode_table.json
numbers them: the first byte is bits 7..0. A row has 8 bits there, so the operand bytes are 0. -/
def decodeTableWord (nbits w : Nat) : Option Instr :=
  match decode (littleBytes 3 (w % 2 ^ nbits)) with
  | .code c _ => some c.instr
  | .unimplemented _ => none
  | .truncated => none

end Sys2Proof
end

