-- ==== Sys2Proof/Machine/State.lean ====
section
/-! DEFINITION. The state of the core and its surroundings as plain data (spec/10_state.md R20, R34; spec/20_memory.md
R43, R59; spec/00_scope.md R6), the reasons a step can stop, and the state right after reset. -/

namespace Sys2Proof.Machine

/-- The bits of P by name, from bit 0 up (R7, R26). `U` is the unused bit 5. -/
inductive Flag where
  | C | Z | I | D | B | U | V | N
  deriving DecidableEq, Repr

/-- The 8-bit registers other than P (R20). PC is 16 bits wide and stands apart. -/
inductive Reg where
  | A | X | Y | S
  deriving DecidableEq, Repr

/-- The three faults of the core, the only ones (R163). A meaning that meets one ends at the failing operation, keeps
what it had done and answers a NEXT state whose fault record holds the fault (R164); `step` answers `.fault` from every
state whose record is set (R84, R164, log 5). All are safe: the core itself makes no further progress. -/
inductive Fault where
  /-- R160: the opcode byte fetched has no entry in the decode table. Raised by `fetchDecode`. Safe. -/
  | unimplemented (opcode : Byte)
  /-- R161: the resolver was asked for a mode it cannot serve. Raised by `getData` and `getAddr`; no row of the table
  reaches it (R82). Safe. -/
  | unsupportedMode (mode : Mode)
  /-- R162: a Bus operation at or above MEM_LEN. Raised by `memRead` and `memWrite`. Safe. -/
  | busRange (addr : Addr)
  deriving DecidableEq, Repr

/-- Why the model gives no meaning. -/
inductive Refusal where
  /-- No meaning yet for the instruction with this mnemonic: raised by `exec`'s arm alone, and no arm raises it now. Safe. -/
  | notModelled (mnemonic : String)
  /-- MEM_LEN outside 1 to 65536 (R6; spec/93_implementation_defined.md row 5: refuse). Raised by `step`, `construct` and
  `hostReset`. Safe. -/
  | badConfig
  deriving DecidableEq, Repr

/-- What ADC and SBC compute: the result, the carry and the overflow (R142, R145). -/
structure AluOut where
  r : Byte
  c : Bool
  v : Bool
  deriving DecidableEq, Repr

/-- The machine. The six registers (R20); the fault record (R34); the memory behind the Bus, as the cells that are set, in rising
order (R41 to R43, R58); the record of Bus events, newest first (R59, log 6); the parameters (R6, log 2). -/
structure State where
  A : Byte
  X : Byte
  Y : Byte
  S : Byte
  PC : Addr
  P : Byte
  faultRecord : Option Fault
  mem : List Host.Cell
  bus : List BusEvent
  cfg : Config
  deriving DecidableEq, Repr

/-- What a host operation answers to the host (R183, R184): `ok`, or the fault that ended it, each with the state it
leaves; or the refusal of a bad configuration. -/
inductive StepResult where
  | ok (s : State)
  | fault (f : Fault) (s : State)
  | refused (r : Refusal)
  deriving DecidableEq, Repr

/-- What `run` answers (R185). `outOfFuel` is the model's own: the step bound was reached. -/
inductive RunResult where
  | halted (s : State)
  | fault (f : Fault) (s : State)
  | outOfFuel (s : State)
  | refused (r : Refusal)
  deriving DecidableEq, Repr

/-- The machine right after reset: construction (R180) and then `reset()` (R181) with the default parameters.
A = X = Y = S = 0x00 and P = 0x00 (R182, D4); PC is the word at 0xFFFC/0xFFFD, and the two vector reads are the Bus events
so far. DESIGN CHOICE (log 22), unsafe: the launch memory sets the two cells of the reset vector (R188), to 0x0000, and no
other cell; every other cell holds its free value (R58, log 1). The theorem `reset_eq_hostReset` in
Sys2Proof/Laws/HostOps.lean shows it is the value `hostReset` computes. -/
def State.reset : State :=
  { A := 0x00, X := 0x00, Y := 0x00, S := 0x00, PC := 0x0000, P := 0x00, faultRecord := none,
    mem := [(0xFFFC, 0x00), (0xFFFD, 0x00)], bus := [.read 0xFFFD 0x00, .read 0xFFFC 0x00], cfg := {} }

end Sys2Proof.Machine
end

