-- ==== Sys2Proof/Machine/Flags.lean ====
section
/-! DEFINITION. Reading and writing the bits of P (spec/10_state.md R26 to R30), and every flag and result computation of
the instructions: compare (R115), shift and rotate (R121 to R124), BIT (R141), ADC and SBC in both modes (R142 to R147). -/

namespace Sys2Proof.Machine

/-- R26: the bit number of a flag. -/
def Flag.bit : Flag → Nat
  | .C => 0 | .Z => 1 | .I => 2 | .D => 3 | .B => 4 | .U => 5 | .V => 6 | .N => 7

/-- R27: reading a flag returns exactly one bit of P. -/
def getFlag (f : Flag) (p : Byte) : Bool := p.getLsbD f.bit

/-- R27: `P <- (P & ~(1 << i)) | (b << i)`: writing one flag changes only its bit. -/
def putFlag (f : Flag) (b : Bool) (p : Byte) : Byte :=
  (p &&& ~~~(1#8 <<< f.bit)) ||| ((if b then 1#8 else 0#8) <<< f.bit)

/-- R30: `P.Z <- (v == 0)`, `P.N <- v[7]`, and no other bit. -/
def setZN (v p : Byte) : Byte := putFlag .N (v.getLsbD 7) (putFlag .Z (v == 0) p)

/-- R28: the byte PHP and BRK push, `P | 0x18` (log 20). -/
def pushedP (p : Byte) : Byte := p ||| 0x18

/-- R28: the P that PLP and RTI restore, `popped & ~0x18` (log 20). -/
def restoredP (v : Byte) : Byte := v &&& 0xE7

/-- R115: the flags of a compare of register value `r` with `m`: C from the unsigned comparison, Z and N from `r - m`. -/
def compareP (r m p : Byte) : Byte := setZN (r - m) (putFlag .C (decide (m.toNat ≤ r.toNat)) p)

/-- R141: the flags of BIT: N and V from `m` itself, Z from `a & m`. -/
def bitP (a m p : Byte) : Byte :=
  putFlag .Z ((a &&& m) == 0) (putFlag .V (m.getLsbD 6) (putFlag .N (m.getLsbD 7) p))

/-- R121: `f(v, c_in) = ((v << 1) mod 256, v[7])`. -/
def aslF (v : Byte) (_cin : Bool) : Byte × Bool := (v <<< 1, v.getLsbD 7)

/-- R122: `f(v, c_in) = (v >> 1, v[0])`. -/
def lsrF (v : Byte) (_cin : Bool) : Byte × Bool := (v >>> 1, v.getLsbD 0)

/-- R123: `f(v, c_in) = (((v << 1) | c_in) mod 256, v[7])`. -/
def rolF (v : Byte) (cin : Bool) : Byte × Bool := ((v <<< 1) ||| (if cin then 0x01 else 0x00), v.getLsbD 7)

/-- R124: `f(v, c_in) = ((v >> 1) | (c_in << 7), v[0])`. -/
def rorF (v : Byte) (cin : Bool) : Byte × Bool := ((v >>> 1) ||| (if cin then 0x80 else 0x00), v.getLsbD 0)

/-- The flags of a shift or rotate (42_compare_logical_shift.md section 3): C is the bit shifted out, Z and N from `r`. -/
def shiftP (r : Byte) (c : Bool) (p : Byte) : Byte := setZN r (putFlag .C c p)

/-- R143: the default BCD_ADC. DESIGN CHOICE of the spec (D14, log 3). -/
def bcdAdcDefault (a m : Byte) (c : Bool) : Byte × Bool :=
  let lo := a.toNat % 16 + m.toNat % 16 + c.toNat
  let lo := if lo > 9 then lo + 6 else lo
  let hi := a.toNat / 16 + m.toNat / 16 + (if lo > 15 then 1 else 0)
  let hi := if hi > 9 then hi + 6 else hi
  (BitVec.ofNat 8 (hi % 16 * 16 + lo % 16), decide (hi > 15))

/-- R146: the default BCD_SBC, on signed integers; `x % 16` of a negative `x` is its low four bits in two's complement.
DESIGN CHOICE of the spec (D15, log 3). -/
def bcdSbcDefault (a m : Byte) (c : Bool) : Byte × Bool :=
  let lo : Int := (a.toNat % 16 : Nat) - (m.toNat % 16 : Nat) - (1 - (c.toNat : Int))
  let borrow : Int := if lo < 0 then 1 else 0
  let lo := if lo < 0 then lo - 6 else lo
  let hi : Int := (a.toNat / 16 : Nat) - (m.toNat / 16 : Nat) - borrow
  let hi := if hi < 0 then hi - 6 else hi
  (BitVec.ofInt 8 (hi % 16 * 16 + lo % 16), decide (0 ≤ hi))

/-- The first replaced entry for these operands, if any (R147, log 3). -/
def bcdLookup : List BcdEntry → Byte → Byte → Bool → Option (Byte × Bool)
  | [], _, _, _ => none
  | e :: rest, a, m, c =>
    if e.a = a ∧ e.m = m ∧ e.c = c then some (e.r, e.cout) else bcdLookup rest a m c

/-- The parameter BCD_ADC (R6): the replaced entries, else the default of R143. -/
def bcdAdc (t : List BcdEntry) (a m : Byte) (c : Bool) : Byte × Bool :=
  (bcdLookup t a m c).getD (bcdAdcDefault a m c)

/-- The parameter BCD_SBC (R6): the replaced entries, else the default of R146. -/
def bcdSbc (t : List BcdEntry) (a m : Byte) (c : Bool) : Byte × Bool :=
  (bcdLookup t a m c).getD (bcdSbcDefault a m c)

/-- R142: `((A ^ bin) & (M ^ bin) & 0x80) != 0`, where `bin = A + M + c` is the unbounded sum. -/
def addOverflow (a m : Byte) (bin : Nat) : Bool :=
  ((a.toNat ^^^ bin) &&& (m.toNat ^^^ bin) &&& 0x80) != 0

/-- R142, R144: ADC of `a`, `m` and carry `c`; `d` is P.D and `t` the replaced entries of BCD_ADC. V is the binary
overflow in both modes (D16, log 15). -/
def adcOut (t : List BcdEntry) (d : Bool) (a m : Byte) (c : Bool) : AluOut :=
  let bin := a.toNat + m.toNat + c.toNat
  let v := addOverflow a m bin
  if d then ⟨(bcdAdc t a m c).1, (bcdAdc t a m c).2, v⟩
  else ⟨BitVec.ofNat 8 bin, decide (bin > 0xFF), v⟩

/-- R145, R144: SBC, the addition of `nm = ~M`; V uses the operand actually added (D13, log 15). -/
def sbcOut (t : List BcdEntry) (d : Bool) (a m : Byte) (c : Bool) : AluOut :=
  let nm := ~~~m
  let bin := a.toNat + nm.toNat + c.toNat
  let v := addOverflow a nm bin
  if d then ⟨(bcdSbc t a m c).1, (bcdSbc t a m c).2, v⟩
  else ⟨BitVec.ofNat 8 bin, decide (bin > 0xFF), v⟩

/-- R142, R145: the flags of ADC and SBC: C, V, then Z and N from the result. -/
def aluP (o : AluOut) (p : Byte) : Byte := setZN o.r (putFlag .V o.v (putFlag .C o.c p))

end Sys2Proof.Machine
end

