-- ==== Sys2Proof/Machine/Ops.lean ====
section
/-! DEFINITION. The named operations over memory, Bus and registers: byte order (spec/00_scope.md R10), memory as its set
cells in one canonical form, MemRead and MemWrite (spec/20_memory.md R41, R42), Fetch (spec/30_encoding.md R60), Push and
Pop (R49, R50), taking a fault (spec/60_exceptions.md R164), and BRK's trap entry with RTI's return (R150, R151, R166,
R167). An operation ends in `.ok` or in `.error` with a fault, and in both cases with the state it leaves (R13). -/

namespace Sys2Proof.Machine

/-! ### Byte order and extension -/

/-- R10: `hi:lo` is the 16-bit value hi × 256 + lo. -/
def hiLo (hi lo : Byte) : Addr := hi ++ lo

/-- `v[15:8]` (R7). -/
def hiByte (v : Addr) : Byte := v.extractLsb' 8 8

/-- `v[7:0]` (R7). -/
def loByte (v : Addr) : Byte := v.extractLsb' 0 8

/-- R9: `zext_16`. -/
def zext (b : Byte) : Addr := b.setWidth 16

/-- R9: `sext_8`, as the 16-bit value that adds to PC mod 65536 (R125). -/
def sext (b : Byte) : Addr := b.signExtend 16

/-- R48: the stack cell is `0x0100 + S`. -/
def stackCell (sp : Byte) : Addr := 0x0100 + zext sp

/-! ### Memory: the cells that are set, addresses strictly rising -/

/-- The byte a cell was set to; none where nothing has set it. -/
def Memory.find : List Host.Cell → Nat → Option Byte
  | [], _ => none
  | (k, v) :: rest, a => if k = a then some v else Memory.find rest a

/-- R41, R58: the byte at `a`: the one last stored there, by a write or by the launch; for a cell that neither has set,
the free value of the launch (log 1). -/
def Memory.read (launch : Nat) (m : List Host.Cell) (a : Nat) : Byte :=
  (Memory.find m a).getD (Config.unsetByte launch a)

/-- Removes every entry for `a`. -/
def Memory.erase : List Host.Cell → Nat → List Host.Cell
  | [], _ => []
  | (k, v) :: rest, a => if k = a then Memory.erase rest a else (k, v) :: Memory.erase rest a

/-- Puts an entry for `a` before the first entry with a greater address. -/
def Memory.insert : List Host.Cell → Nat → Byte → List Host.Cell
  | [], a, v => [(a, v)]
  | (k, w) :: rest, a, v => if a < k then (a, v) :: (k, w) :: rest else (k, w) :: Memory.insert rest a v

/-- R42: stores `v` at `a`, keeping the canonical form. -/
def Memory.write (m : List Host.Cell) (a : Nat) (v : Byte) : List Host.Cell := Memory.insert (Memory.erase m a) a v

/-- The canonical form from address `lo` up. -/
def Memory.wfFrom (lo : Nat) : List Host.Cell → Bool
  | [] => true
  | (k, _) :: rest => decide (lo ≤ k) && Memory.wfFrom (k + 1) rest

/-- The canonical form: addresses strictly rising. An unlisted address finds `none`, which no entry is, so two memories in
this form that set the same cells to the same bytes are the same list. -/
def Memory.wf (m : List Host.Cell) : Bool := Memory.wfFrom 0 m

/-- Every listed cell exists: its address is below MEM_LEN (R43). -/
def Memory.below (n : Nat) (m : List Host.Cell) : Bool := m.all fun c => decide (c.1 < n)

/-! ### Operations: they end in `.ok` or `.error`, and leave a state either way -/

/-- An operation of the core: from a state, a result or a fault, and the state left (R13). -/
abbrev Op (α : Type) := EStateM Fault State α

/-- Reads something off the state. -/
def Op.get {α : Type} (f : State → α) : Op α := fun s => .ok (f s) s

/-- Changes the state. -/
def Op.update (f : State → State) : Op Unit := fun s => .ok () (f s)

/-- R13: `raise`: the step ends at once; what was done stays done. -/
def Op.fail {α : Type} (e : Fault) : Op α := fun s => .error e s

/-! ### Registers -/

/-- R22, R23: a register's value. -/
def State.getReg (s : State) : Reg → Byte
  | .A => s.A | .X => s.X | .Y => s.Y | .S => s.S

/-- R21: writing a register stores the byte. -/
def State.setReg (s : State) (r : Reg) (v : Byte) : State :=
  match r with
  | .A => { s with A := v }
  | .X => { s with X := v }
  | .Y => { s with Y := v }
  | .S => { s with S := v }

/-- R27: P replaced as a whole by a function of its old value. -/
def State.mapP (s : State) (g : Byte → Byte) : State := { s with P := g s.P }

/-- The value of a flag of the live P. -/
def State.flag (s : State) (f : Flag) : Bool := getFlag f s.P

/-- R21, R24: writing PC. -/
def setPC (a : Addr) : Op Unit := Op.update fun s => { s with PC := a }

/-! ### The Bus -/

/-- R59: the event is put on the record. -/
def State.recordEvent (s : State) (e : BusEvent) : State := { s with bus := e :: s.bus }

/-- The byte that memory holds at `a` (R41, R58). -/
def State.memByte (s : State) (a : Nat) : Byte := Memory.read s.cfg.launch s.mem a

/-- The byte a Bus read of `a` returns: a draw in IO_REGION (log 4), the memory's byte elsewhere (R41). -/
def State.busByte (s : State) (a : Addr) : Byte :=
  if a ∈ s.cfg.ioRegion then Config.drawIo s.bus a else s.memByte a.toNat

/-- R41: `MemRead(addr, 1)`. -/
def memRead (a : Addr) : Op Byte := fun s =>
  if s.cfg.memLen ≤ a.toNat then .error (.busRange a) s
  else .ok (s.busByte a) (s.recordEvent (.read a (s.busByte a)))

/-- R42: `MemWrite(addr, 1, v)`. A write in IO_REGION is recorded and changes no cell. -/
def memWrite (a : Addr) (v : Byte) : Op Unit := fun s =>
  if s.cfg.memLen ≤ a.toNat then .error (.busRange a) s
  else if a ∈ s.cfg.ioRegion then .ok () (s.recordEvent (.write a v))
  else .ok () { s.recordEvent (.write a v) with mem := Memory.write s.mem a.toNat v }

/-- R60: `Fetch()`: the byte at PC, and PC advances mod 65536. If the read faults PC stays. -/
def fetch : Op Byte := do
  let pc ← Op.get State.PC
  let b ← memRead pc
  setPC (pc + 1)
  return b

/-- Two fetches, low byte first (R45, R74). -/
def fetchWord : Op Addr := do
  let lo ← fetch
  let hi ← fetch
  return hiLo hi lo

/-- R49: `Push(v)`: write, then decrement S mod 256. If the write faults S stays. -/
def push (v : Byte) : Op Unit := do
  let sp ← Op.get State.S
  memWrite (stackCell sp) v
  Op.update fun s => s.setReg .S (sp - 1)

/-- R50: `Pop()`: increment S mod 256, then read. If the read faults S stays incremented. -/
def pop : Op Byte := do
  let sp ← Op.get State.S
  Op.update fun s => s.setReg .S (sp + 1)
  memRead (stackCell (sp + 1))

/-- R45: a 16-bit value is pushed high byte first. -/
def pushWord (v : Addr) : Op Unit := do
  push (hiByte v)
  push (loByte v)

/-- R45: and popped low byte first. -/
def popWord : Op Addr := do
  let lo ← pop
  let hi ← pop
  return hiLo hi lo

/-- Two reads of a 16-bit value at the two addresses given, low byte first (R45). -/
def readWordAt (loAddr hiAddr : Addr) : Op Addr := do
  let lo ← memRead loAddr
  let hi ← memRead hiAddr
  return hiLo hi lo

/-! ### Fetch and decode, faults, the trap -/

/-- R84: the opcode fetch and the table lookup. R85, R160: an absent entry raises Unimplemented with PC = K+1. -/
def fetchDecode : Op Instr := do
  let op ← fetch
  match decodeOpcode op with
  | some i => return i
  | none => Op.fail (.unimplemented op)

/-- R164, R34: taking a fault: the fault is put in the fault record. Nothing else changes: no state is saved, no vector
is taken. -/
def State.recordFault (s : State) (f : Fault) : State := { s with faultRecord := some f }

/-- What an instruction answers: the state it leaves, with the fault recorded if it ended in one (R164, log 5). -/
def finish (o : Op Unit) (s : State) : Host.Outcome State Fault Refusal :=
  match o s with
  | .ok _ t => .next t
  | .error f t => .next (t.recordFault f)

/-- R150, R166: BRK's trap entry, from PC = K+1: push K+2 high then low, push `P | 0x18`, load PC from 0xFFFE/0xFFFF.
The live P does not change, I included (D7, log 13). -/
def trapEntry : Op Unit := do
  let pc ← Op.get State.PC
  pushWord (pc + 1)
  let p ← Op.get State.P
  push (pushedP p)
  let target ← readWordAt 0xFFFE 0xFFFF
  setPC target

/-- R151, R167: RTI's return: P from the stack with bits 3 and 4 cleared, then PC low byte first, no increment. -/
def trapReturn : Op Unit := do
  let v ← pop
  Op.update fun s => s.mapP fun _ => restoredP v
  let target ← popWord
  setPC target

end Sys2Proof.Machine
end

