-- ==== Sys2Proof/Machine/Operands.lean ====
section
/-! DEFINITION. The addressing resolver (spec/30_encoding.md R68 to R83): GetAddr and GetData for every mode. No mode
issues a Bus operation beyond those of R86; crossing a page adds none (R76, D10, log 14). -/

namespace Sys2Proof.Machine

/-- R69: the effective address, which is not read. Pointer bytes are read (C8). -/
def getAddr : Mode → Op Addr
  | .implied => Op.fail (.unsupportedMode .implied)
  | .accumulator => Op.fail (.unsupportedMode .accumulator)
  | .immediate => Op.fail (.unsupportedMode .immediate)
  | .relative => Op.fail (.unsupportedMode .relative)          -- D27, log 16
  | .zeroPage => do                                            -- R71
    let b ← fetch
    return zext b
  | .zeroPageX => do                                           -- R72
    let b ← fetch
    let x ← Op.get State.X
    return zext (b + x)
  | .zeroPageY => do                                           -- R72
    let b ← fetch
    let y ← Op.get State.Y
    return zext (b + y)
  | .absolute => fetchWord                                     -- R74
  | .absoluteX => do                                           -- R75
    let base ← fetchWord
    let x ← Op.get State.X
    return base + zext x
  | .absoluteY => do                                           -- R75
    let base ← fetchWord
    let y ← Op.get State.Y
    return base + zext y
  | .indirect => do                                            -- R77, with the page bug
    let plo ← fetch
    let phi ← fetch
    readWordAt (hiLo phi plo) (hiLo phi (plo + 1))
  | .indexedIndirect => do                                     -- R79
    let b ← fetch
    let x ← Op.get State.X
    readWordAt (zext (b + x)) (zext (b + x + 1))
  | .indirectIndexed => do                                     -- R80
    let b ← fetch
    let base ← readWordAt (zext b) (zext (b + 1))
    let y ← Op.get State.Y
    return base + zext y

/-- R68: the byte to operate on. -/
def getData : Mode → Op Byte
  | .implied => Op.fail (.unsupportedMode .implied)
  | .accumulator => Op.fail (.unsupportedMode .accumulator)
  | .immediate => fetch                                        -- R70
  | .relative => fetch                                         -- R73
  | .zeroPage => do let ea ← getAddr .zeroPage; memRead ea
  | .zeroPageX => do let ea ← getAddr .zeroPageX; memRead ea
  | .zeroPageY => do let ea ← getAddr .zeroPageY; memRead ea
  | .absolute => do let ea ← getAddr .absolute; memRead ea
  | .absoluteX => do let ea ← getAddr .absoluteX; memRead ea
  | .absoluteY => do let ea ← getAddr .absoluteY; memRead ea
  | .indirect => do let ea ← getAddr .indirect; memRead ea
  | .indexedIndirect => do let ea ← getAddr .indexedIndirect; memRead ea
  | .indirectIndexed => do let ea ← getAddr .indirectIndexed; memRead ea

end Sys2Proof.Machine
end

