-- ==== Sys2Proof/Machine/Arith.lean ====
section
/-! DEFINITION. ADC and SBC, binary and decimal (spec/45_arithmetic.md R142 to R147). The computations are in Flags.lean. -/

namespace Sys2Proof.Machine

/-- R142: A, C, V, N and Z from the sum; P.D chooses binary or decimal. -/
def addCarry (m : Mode) : Op Unit := do
  let v ← getData m
  Op.update fun s =>
    let o := adcOut s.cfg.bcdAdc (s.flag .D) s.A v (s.flag .C)
    (s.setReg .A o.r).mapP (aluP o)

/-- R145: A, C, V, N and Z from the difference; C = 1 means no borrow. -/
def subBorrow (m : Mode) : Op Unit := do
  let v ← getData m
  Op.update fun s =>
    let o := sbcOut s.cfg.bcdSbc (s.flag .D) s.A v (s.flag .C)
    (s.setReg .A o.r).mapP (aluP o)

/-- ADC Immediate, opcode 0x69 (R142). -/
def execAdcImm (s : State) : Host.Outcome State Fault Refusal :=
  finish (addCarry .immediate) s

/-- ADC ZeroPage, opcode 0x65 (R142). -/
def execAdcZp (s : State) : Host.Outcome State Fault Refusal :=
  finish (addCarry .zeroPage) s

/-- ADC ZeroPage,X, opcode 0x75 (R142). -/
def execAdcZpX (s : State) : Host.Outcome State Fault Refusal :=
  finish (addCarry .zeroPageX) s

/-- ADC Absolute, opcode 0x6D (R142). -/
def execAdcAbs (s : State) : Host.Outcome State Fault Refusal :=
  finish (addCarry .absolute) s

/-- ADC Absolute,X, opcode 0x7D (R142). -/
def execAdcAbsX (s : State) : Host.Outcome State Fault Refusal :=
  finish (addCarry .absoluteX) s

/-- ADC Absolute,Y, opcode 0x79 (R142). -/
def execAdcAbsY (s : State) : Host.Outcome State Fault Refusal :=
  finish (addCarry .absoluteY) s

/-- ADC (zp,X), opcode 0x61 (R142). -/
def execAdcIndX (s : State) : Host.Outcome State Fault Refusal :=
  finish (addCarry .indexedIndirect) s

/-- ADC (zp),Y, opcode 0x71 (R142). -/
def execAdcIndY (s : State) : Host.Outcome State Fault Refusal :=
  finish (addCarry .indirectIndexed) s

/-- SBC Immediate, opcode 0xE9 (R145). -/
def execSbcImm (s : State) : Host.Outcome State Fault Refusal :=
  finish (subBorrow .immediate) s

/-- SBC ZeroPage, opcode 0xE5 (R145). -/
def execSbcZp (s : State) : Host.Outcome State Fault Refusal :=
  finish (subBorrow .zeroPage) s

/-- SBC ZeroPage,X, opcode 0xF5 (R145). -/
def execSbcZpX (s : State) : Host.Outcome State Fault Refusal :=
  finish (subBorrow .zeroPageX) s

/-- SBC Absolute, opcode 0xED (R145). -/
def execSbcAbs (s : State) : Host.Outcome State Fault Refusal :=
  finish (subBorrow .absolute) s

/-- SBC Absolute,X, opcode 0xFD (R145). -/
def execSbcAbsX (s : State) : Host.Outcome State Fault Refusal :=
  finish (subBorrow .absoluteX) s

/-- SBC Absolute,Y, opcode 0xF9 (R145). -/
def execSbcAbsY (s : State) : Host.Outcome State Fault Refusal :=
  finish (subBorrow .absoluteY) s

/-- SBC (zp,X), opcode 0xE1 (R145). -/
def execSbcIndX (s : State) : Host.Outcome State Fault Refusal :=
  finish (subBorrow .indexedIndirect) s

/-- SBC (zp),Y, opcode 0xF1 (R145). -/
def execSbcIndY (s : State) : Host.Outcome State Fault Refusal :=
  finish (subBorrow .indirectIndexed) s

end Sys2Proof.Machine
end

