-- ==== Sys2Proof/Machine/CompareLogicShift.lean ====
section
/-! DEFINITION. Compare, logical, shift and rotate (spec/42_compare_logical_shift.md R115 to R124). -/

namespace Sys2Proof.Machine

/-- R115 to R117: N, Z and C from the register against the operand; no register changes. -/
def compare (r : Reg) (m : Mode) : Op Unit := do
  let v ← getData m
  Op.update fun s => s.mapP (compareP (s.getReg r) v)

/-- R118 to R120: A takes `A op M`, then N and Z from it. -/
def logical (f : Byte → Byte → Byte) (m : Mode) : Op Unit := do
  let v ← getData m
  Op.update fun s => (s.setReg .A (f s.A v)).mapP (setZN (f s.A v))

/-- R121 to R124 in Accumulator mode. -/
def shiftAcc (f : Byte → Bool → Byte × Bool) : Op Unit :=
  Op.update fun s => (s.setReg .A (f s.A (s.flag .C)).1).mapP (shiftP (f s.A (s.flag .C)).1 (f s.A (s.flag .C)).2)

/-- R121 to R124 in a memory mode: one read and one write at the effective address (R47). -/
def shiftMem (m : Mode) (f : Byte → Bool → Byte × Bool) : Op Unit := do
  let ea ← getAddr m
  let v ← memRead ea
  let c ← Op.get fun s => s.flag .C
  memWrite ea (f v c).1
  Op.update fun s => s.mapP (shiftP (f v c).1 (f v c).2)

/-- R118. -/
def andByte (a m : Byte) : Byte := a &&& m

/-- R119. -/
def oraByte (a m : Byte) : Byte := a ||| m

/-- R120. -/
def eorByte (a m : Byte) : Byte := a ^^^ m

/-- CMP Immediate, opcode 0xC9 (R115). -/
def execCmpImm (s : State) : Host.Outcome State Fault Refusal :=
  finish (compare .A .immediate) s

/-- CMP ZeroPage, opcode 0xC5 (R115). -/
def execCmpZp (s : State) : Host.Outcome State Fault Refusal :=
  finish (compare .A .zeroPage) s

/-- CMP ZeroPage,X, opcode 0xD5 (R115). -/
def execCmpZpX (s : State) : Host.Outcome State Fault Refusal :=
  finish (compare .A .zeroPageX) s

/-- CMP Absolute, opcode 0xCD (R115). -/
def execCmpAbs (s : State) : Host.Outcome State Fault Refusal :=
  finish (compare .A .absolute) s

/-- CMP Absolute,X, opcode 0xDD (R115). -/
def execCmpAbsX (s : State) : Host.Outcome State Fault Refusal :=
  finish (compare .A .absoluteX) s

/-- CMP Absolute,Y, opcode 0xD9 (R115). -/
def execCmpAbsY (s : State) : Host.Outcome State Fault Refusal :=
  finish (compare .A .absoluteY) s

/-- CMP (zp,X), opcode 0xC1 (R115). -/
def execCmpIndX (s : State) : Host.Outcome State Fault Refusal :=
  finish (compare .A .indexedIndirect) s

/-- CMP (zp),Y, opcode 0xD1 (R115). -/
def execCmpIndY (s : State) : Host.Outcome State Fault Refusal :=
  finish (compare .A .indirectIndexed) s

/-- CPX Immediate, opcode 0xE0 (R116). -/
def execCpxImm (s : State) : Host.Outcome State Fault Refusal :=
  finish (compare .X .immediate) s

/-- CPX ZeroPage, opcode 0xE4 (R116). -/
def execCpxZp (s : State) : Host.Outcome State Fault Refusal :=
  finish (compare .X .zeroPage) s

/-- CPX Absolute, opcode 0xEC (R116). -/
def execCpxAbs (s : State) : Host.Outcome State Fault Refusal :=
  finish (compare .X .absolute) s

/-- CPY Immediate, opcode 0xC0 (R117). -/
def execCpyImm (s : State) : Host.Outcome State Fault Refusal :=
  finish (compare .Y .immediate) s

/-- CPY ZeroPage, opcode 0xC4 (R117). -/
def execCpyZp (s : State) : Host.Outcome State Fault Refusal :=
  finish (compare .Y .zeroPage) s

/-- CPY Absolute, opcode 0xCC (R117). -/
def execCpyAbs (s : State) : Host.Outcome State Fault Refusal :=
  finish (compare .Y .absolute) s

/-- AND Immediate, opcode 0x29 (R118). -/
def execAndImm (s : State) : Host.Outcome State Fault Refusal :=
  finish (logical andByte .immediate) s

/-- AND ZeroPage, opcode 0x25 (R118). -/
def execAndZp (s : State) : Host.Outcome State Fault Refusal :=
  finish (logical andByte .zeroPage) s

/-- AND ZeroPage,X, opcode 0x35 (R118). -/
def execAndZpX (s : State) : Host.Outcome State Fault Refusal :=
  finish (logical andByte .zeroPageX) s

/-- AND Absolute, opcode 0x2D (R118). -/
def execAndAbs (s : State) : Host.Outcome State Fault Refusal :=
  finish (logical andByte .absolute) s

/-- AND Absolute,X, opcode 0x3D (R118). -/
def execAndAbsX (s : State) : Host.Outcome State Fault Refusal :=
  finish (logical andByte .absoluteX) s

/-- AND Absolute,Y, opcode 0x39 (R118). -/
def execAndAbsY (s : State) : Host.Outcome State Fault Refusal :=
  finish (logical andByte .absoluteY) s

/-- AND (zp,X), opcode 0x21 (R118). -/
def execAndIndX (s : State) : Host.Outcome State Fault Refusal :=
  finish (logical andByte .indexedIndirect) s

/-- AND (zp),Y, opcode 0x31 (R118). -/
def execAndIndY (s : State) : Host.Outcome State Fault Refusal :=
  finish (logical andByte .indirectIndexed) s

/-- ORA Immediate, opcode 0x09 (R119). -/
def execOraImm (s : State) : Host.Outcome State Fault Refusal :=
  finish (logical oraByte .immediate) s

/-- ORA ZeroPage, opcode 0x05 (R119). -/
def execOraZp (s : State) : Host.Outcome State Fault Refusal :=
  finish (logical oraByte .zeroPage) s

/-- ORA ZeroPage,X, opcode 0x15 (R119). -/
def execOraZpX (s : State) : Host.Outcome State Fault Refusal :=
  finish (logical oraByte .zeroPageX) s

/-- ORA Absolute, opcode 0x0D (R119). -/
def execOraAbs (s : State) : Host.Outcome State Fault Refusal :=
  finish (logical oraByte .absolute) s

/-- ORA Absolute,X, opcode 0x1D (R119). -/
def execOraAbsX (s : State) : Host.Outcome State Fault Refusal :=
  finish (logical oraByte .absoluteX) s

/-- ORA Absolute,Y, opcode 0x19 (R119). -/
def execOraAbsY (s : State) : Host.Outcome State Fault Refusal :=
  finish (logical oraByte .absoluteY) s

/-- ORA (zp,X), opcode 0x01 (R119). -/
def execOraIndX (s : State) : Host.Outcome State Fault Refusal :=
  finish (logical oraByte .indexedIndirect) s

/-- ORA (zp),Y, opcode 0x11 (R119). -/
def execOraIndY (s : State) : Host.Outcome State Fault Refusal :=
  finish (logical oraByte .indirectIndexed) s

/-- EOR Immediate, opcode 0x49 (R120). -/
def execEorImm (s : State) : Host.Outcome State Fault Refusal :=
  finish (logical eorByte .immediate) s

/-- EOR ZeroPage, opcode 0x45 (R120). -/
def execEorZp (s : State) : Host.Outcome State Fault Refusal :=
  finish (logical eorByte .zeroPage) s

/-- EOR ZeroPage,X, opcode 0x55 (R120). -/
def execEorZpX (s : State) : Host.Outcome State Fault Refusal :=
  finish (logical eorByte .zeroPageX) s

/-- EOR Absolute, opcode 0x4D (R120). -/
def execEorAbs (s : State) : Host.Outcome State Fault Refusal :=
  finish (logical eorByte .absolute) s

/-- EOR Absolute,X, opcode 0x5D (R120). -/
def execEorAbsX (s : State) : Host.Outcome State Fault Refusal :=
  finish (logical eorByte .absoluteX) s

/-- EOR Absolute,Y, opcode 0x59 (R120). -/
def execEorAbsY (s : State) : Host.Outcome State Fault Refusal :=
  finish (logical eorByte .absoluteY) s

/-- EOR (zp,X), opcode 0x41 (R120). -/
def execEorIndX (s : State) : Host.Outcome State Fault Refusal :=
  finish (logical eorByte .indexedIndirect) s

/-- EOR (zp),Y, opcode 0x51 (R120). -/
def execEorIndY (s : State) : Host.Outcome State Fault Refusal :=
  finish (logical eorByte .indirectIndexed) s

/-- ASL Accumulator, opcode 0x0A (R121). -/
def execAslAcc (s : State) : Host.Outcome State Fault Refusal :=
  finish (shiftAcc aslF) s

/-- ASL ZeroPage, opcode 0x06 (R121). -/
def execAslZp (s : State) : Host.Outcome State Fault Refusal :=
  finish (shiftMem .zeroPage aslF) s

/-- ASL ZeroPage,X, opcode 0x16 (R121). -/
def execAslZpX (s : State) : Host.Outcome State Fault Refusal :=
  finish (shiftMem .zeroPageX aslF) s

/-- ASL Absolute, opcode 0x0E (R121). -/
def execAslAbs (s : State) : Host.Outcome State Fault Refusal :=
  finish (shiftMem .absolute aslF) s

/-- ASL Absolute,X, opcode 0x1E (R121). -/
def execAslAbsX (s : State) : Host.Outcome State Fault Refusal :=
  finish (shiftMem .absoluteX aslF) s

/-- LSR Accumulator, opcode 0x4A (R122). -/
def execLsrAcc (s : State) : Host.Outcome State Fault Refusal :=
  finish (shiftAcc lsrF) s

/-- LSR ZeroPage, opcode 0x46 (R122). -/
def execLsrZp (s : State) : Host.Outcome State Fault Refusal :=
  finish (shiftMem .zeroPage lsrF) s

/-- LSR ZeroPage,X, opcode 0x56 (R122). -/
def execLsrZpX (s : State) : Host.Outcome State Fault Refusal :=
  finish (shiftMem .zeroPageX lsrF) s

/-- LSR Absolute, opcode 0x4E (R122). -/
def execLsrAbs (s : State) : Host.Outcome State Fault Refusal :=
  finish (shiftMem .absolute lsrF) s

/-- LSR Absolute,X, opcode 0x5E (R122). -/
def execLsrAbsX (s : State) : Host.Outcome State Fault Refusal :=
  finish (shiftMem .absoluteX lsrF) s

/-- ROL Accumulator, opcode 0x2A (R123). -/
def execRolAcc (s : State) : Host.Outcome State Fault Refusal :=
  finish (shiftAcc rolF) s

/-- ROL ZeroPage, opcode 0x26 (R123). -/
def execRolZp (s : State) : Host.Outcome State Fault Refusal :=
  finish (shiftMem .zeroPage rolF) s

/-- ROL ZeroPage,X, opcode 0x36 (R123). -/
def execRolZpX (s : State) : Host.Outcome State Fault Refusal :=
  finish (shiftMem .zeroPageX rolF) s

/-- ROL Absolute, opcode 0x2E (R123). -/
def execRolAbs (s : State) : Host.Outcome State Fault Refusal :=
  finish (shiftMem .absolute rolF) s

/-- ROL Absolute,X, opcode 0x3E (R123). -/
def execRolAbsX (s : State) : Host.Outcome State Fault Refusal :=
  finish (shiftMem .absoluteX rolF) s

/-- ROR Accumulator, opcode 0x6A (R124). -/
def execRorAcc (s : State) : Host.Outcome State Fault Refusal :=
  finish (shiftAcc rorF) s

/-- ROR ZeroPage, opcode 0x66 (R124). -/
def execRorZp (s : State) : Host.Outcome State Fault Refusal :=
  finish (shiftMem .zeroPage rorF) s

/-- ROR ZeroPage,X, opcode 0x76 (R124). -/
def execRorZpX (s : State) : Host.Outcome State Fault Refusal :=
  finish (shiftMem .zeroPageX rorF) s

/-- ROR Absolute, opcode 0x6E (R124). -/
def execRorAbs (s : State) : Host.Outcome State Fault Refusal :=
  finish (shiftMem .absolute rorF) s

/-- ROR Absolute,X, opcode 0x7E (R124). -/
def execRorAbsX (s : State) : Host.Outcome State Fault Refusal :=
  finish (shiftMem .absoluteX rorF) s

end Sys2Proof.Machine
end

