-- ==== Sys2Proof/Machine/Control.lean ====
section
/-! DEFINITION. Control transfer (spec/43_control.md R125 to R136). PRESUMED (log 11): the flag and value each branch tests are the
spec's general knowledge (D18). -/

namespace Sys2Proof.Machine

/-- R125: the operand byte is fetched whether or not the branch is taken; if the flag has the value, PC moves by the
signed offset from the address after the branch. -/
def branch (f : Flag) (b : Bool) : Op Unit := do
  let off ← getData .relative
  Op.update fun s => if s.flag f = b then { s with PC := s.PC + sext off } else s

/-- R134: `PC <- GetAddr(mode)`. -/
def jump (m : Mode) : Op Unit := do
  let ea ← getAddr m
  setPC ea

/-- R135: push K+3 high then low, and only then fetch the target (D24, log 20). -/
def jumpSubroutine : Op Unit := do
  let pc ← Op.get State.PC
  pushWord (pc + 2)
  let ea ← getAddr .absolute
  setPC ea

/-- R136: pop low then high, with no increment. -/
def returnSubroutine : Op Unit := do
  let target ← popWord
  setPC target

/-- BEQ, opcode 0xF0 (R126). -/
def execBeq (s : State) : Host.Outcome State Fault Refusal :=
  finish (branch .Z true) s

/-- BNE, opcode 0xD0 (R127). -/
def execBne (s : State) : Host.Outcome State Fault Refusal :=
  finish (branch .Z false) s

/-- BMI, opcode 0x30 (R128). -/
def execBmi (s : State) : Host.Outcome State Fault Refusal :=
  finish (branch .N true) s

/-- BPL, opcode 0x10 (R129). -/
def execBpl (s : State) : Host.Outcome State Fault Refusal :=
  finish (branch .N false) s

/-- BCS, opcode 0xB0 (R130). -/
def execBcs (s : State) : Host.Outcome State Fault Refusal :=
  finish (branch .C true) s

/-- BCC, opcode 0x90 (R131). -/
def execBcc (s : State) : Host.Outcome State Fault Refusal :=
  finish (branch .C false) s

/-- BVC, opcode 0x50 (R132). -/
def execBvc (s : State) : Host.Outcome State Fault Refusal :=
  finish (branch .V false) s

/-- BVS, opcode 0x70 (R133). -/
def execBvs (s : State) : Host.Outcome State Fault Refusal :=
  finish (branch .V true) s

/-- JMP Absolute, opcode 0x4C (R134). -/
def execJmpAbs (s : State) : Host.Outcome State Fault Refusal :=
  finish (jump .absolute) s

/-- JMP Indirect, opcode 0x6C (R134). -/
def execJmpInd (s : State) : Host.Outcome State Fault Refusal :=
  finish (jump .indirect) s

/-- JSR Absolute, opcode 0x20 (R135). -/
def execJsr (s : State) : Host.Outcome State Fault Refusal :=
  finish jumpSubroutine s

/-- RTS, opcode 0x60 (R136). -/
def execRts (s : State) : Host.Outcome State Fault Refusal :=
  finish returnSubroutine s

end Sys2Proof.Machine
end

