-- ==== Sys2Proof/Machine/FlagsIncDec.lean ====
section
/-! DEFINITION. Flag set and clear, increment and decrement (spec/41_flags_incdec.md R102 to R114). PRESUMED (log 11): which flag each
of CLC to SEI names is the spec's general knowledge (D18). -/

namespace Sys2Proof.Machine

/-- R102 to R108: exactly one flag bit. -/
def writeFlag (f : Flag) (b : Bool) : Op Unit := Op.update fun s => s.mapP (putFlag f b)

/-- R109, R110, R47: one read, one write of the new value at the same address, then N and Z from it. -/
def modifyMem (m : Mode) (f : Byte → Byte) : Op Unit := do
  let ea ← getAddr m
  let v ← memRead ea
  memWrite ea (f v)
  Op.update fun s => s.mapP (setZN (f v))

/-- R111 to R114: the register forms. -/
def modifyReg (r : Reg) (f : Byte → Byte) : Op Unit :=
  Op.update fun s => (s.setReg r (f (s.getReg r))).mapP (setZN (f (s.getReg r)))

/-- (value + 1) mod 256. -/
def incByte (v : Byte) : Byte := v + 1

/-- (value - 1) mod 256. -/
def decByte (v : Byte) : Byte := v - 1

/-- CLC, opcode 0x18 (R102). -/
def execClc (s : State) : Host.Outcome State Fault Refusal :=
  finish (writeFlag .C false) s

/-- CLD, opcode 0xD8 (R103). -/
def execCld (s : State) : Host.Outcome State Fault Refusal :=
  finish (writeFlag .D false) s

/-- CLI, opcode 0x58 (R104). -/
def execCli (s : State) : Host.Outcome State Fault Refusal :=
  finish (writeFlag .I false) s

/-- CLV, opcode 0xB8 (R105). -/
def execClv (s : State) : Host.Outcome State Fault Refusal :=
  finish (writeFlag .V false) s

/-- SEC, opcode 0x38 (R106). -/
def execSec (s : State) : Host.Outcome State Fault Refusal :=
  finish (writeFlag .C true) s

/-- SED, opcode 0xF8 (R107). -/
def execSed (s : State) : Host.Outcome State Fault Refusal :=
  finish (writeFlag .D true) s

/-- SEI, opcode 0x78 (R108). -/
def execSei (s : State) : Host.Outcome State Fault Refusal :=
  finish (writeFlag .I true) s

/-- INC ZeroPage, opcode 0xE6 (R109). -/
def execIncZp (s : State) : Host.Outcome State Fault Refusal :=
  finish (modifyMem .zeroPage incByte) s

/-- INC ZeroPage,X, opcode 0xF6 (R109). -/
def execIncZpX (s : State) : Host.Outcome State Fault Refusal :=
  finish (modifyMem .zeroPageX incByte) s

/-- INC Absolute, opcode 0xEE (R109). -/
def execIncAbs (s : State) : Host.Outcome State Fault Refusal :=
  finish (modifyMem .absolute incByte) s

/-- INC Absolute,X, opcode 0xFE (R109). -/
def execIncAbsX (s : State) : Host.Outcome State Fault Refusal :=
  finish (modifyMem .absoluteX incByte) s

/-- DEC ZeroPage, opcode 0xC6 (R110). -/
def execDecZp (s : State) : Host.Outcome State Fault Refusal :=
  finish (modifyMem .zeroPage decByte) s

/-- DEC ZeroPage,X, opcode 0xD6 (R110). -/
def execDecZpX (s : State) : Host.Outcome State Fault Refusal :=
  finish (modifyMem .zeroPageX decByte) s

/-- DEC Absolute, opcode 0xCE (R110). -/
def execDecAbs (s : State) : Host.Outcome State Fault Refusal :=
  finish (modifyMem .absolute decByte) s

/-- DEC Absolute,X, opcode 0xDE (R110). -/
def execDecAbsX (s : State) : Host.Outcome State Fault Refusal :=
  finish (modifyMem .absoluteX decByte) s

/-- INX, opcode 0xE8 (R111). -/
def execInx (s : State) : Host.Outcome State Fault Refusal :=
  finish (modifyReg .X incByte) s

/-- INY, opcode 0xC8 (R112). -/
def execIny (s : State) : Host.Outcome State Fault Refusal :=
  finish (modifyReg .Y incByte) s

/-- DEX, opcode 0xCA (R113). -/
def execDex (s : State) : Host.Outcome State Fault Refusal :=
  finish (modifyReg .X decByte) s

/-- DEY, opcode 0x88 (R114). -/
def execDey (s : State) : Host.Outcome State Fault Refusal :=
  finish (modifyReg .Y decByte) s

end Sys2Proof.Machine
end

