-- ==== Sys2Proof/Machine/LoadStore.lean ====
section
/-! DEFINITION. Loads, stores and transfers (spec/40_load_store_transfer.md R90 to R101). Each meaning is one line over a shared operation. -/

namespace Sys2Proof.Machine

/-- R90 to R92: the register takes the operand, then N and Z from it. -/
def load (r : Reg) (m : Mode) : Op Unit := do
  let v ← getData m
  Op.update fun s => (s.setReg r v).mapP (setZN v)

/-- R93 to R95: the register is written at the effective address. No flag changes. -/
def store (r : Reg) (m : Mode) : Op Unit := do
  let ea ← getAddr m
  let v ← Op.get fun s => s.getReg r
  memWrite ea v

/-- R96 to R100: copy, then N and Z from the destination. -/
def transfer (src dst : Reg) : Op Unit :=
  Op.update fun s => (s.setReg dst (s.getReg src)).mapP (setZN (s.getReg src))

/-- R101: TXS copies and changes no flag. -/
def transferToS : Op Unit := Op.update fun s => s.setReg .S s.X

/-- LDA Immediate, opcode 0xA9 (R90). -/
def execLdaImm (s : State) : Host.Outcome State Fault Refusal :=
  finish (load .A .immediate) s

/-- LDA ZeroPage, opcode 0xA5 (R90). -/
def execLdaZp (s : State) : Host.Outcome State Fault Refusal :=
  finish (load .A .zeroPage) s

/-- LDA ZeroPage,X, opcode 0xB5 (R90). -/
def execLdaZpX (s : State) : Host.Outcome State Fault Refusal :=
  finish (load .A .zeroPageX) s

/-- LDA Absolute, opcode 0xAD (R90). -/
def execLdaAbs (s : State) : Host.Outcome State Fault Refusal :=
  finish (load .A .absolute) s

/-- LDA Absolute,X, opcode 0xBD (R90). -/
def execLdaAbsX (s : State) : Host.Outcome State Fault Refusal :=
  finish (load .A .absoluteX) s

/-- LDA Absolute,Y, opcode 0xB9 (R90). -/
def execLdaAbsY (s : State) : Host.Outcome State Fault Refusal :=
  finish (load .A .absoluteY) s

/-- LDA (zp,X), opcode 0xA1 (R90). -/
def execLdaIndX (s : State) : Host.Outcome State Fault Refusal :=
  finish (load .A .indexedIndirect) s

/-- LDA (zp),Y, opcode 0xB1 (R90). -/
def execLdaIndY (s : State) : Host.Outcome State Fault Refusal :=
  finish (load .A .indirectIndexed) s

/-- LDX Immediate, opcode 0xA2 (R91). -/
def execLdxImm (s : State) : Host.Outcome State Fault Refusal :=
  finish (load .X .immediate) s

/-- LDX ZeroPage, opcode 0xA6 (R91). -/
def execLdxZp (s : State) : Host.Outcome State Fault Refusal :=
  finish (load .X .zeroPage) s

/-- LDX ZeroPage,Y, opcode 0xB6 (R91). -/
def execLdxZpY (s : State) : Host.Outcome State Fault Refusal :=
  finish (load .X .zeroPageY) s

/-- LDX Absolute, opcode 0xAE (R91). -/
def execLdxAbs (s : State) : Host.Outcome State Fault Refusal :=
  finish (load .X .absolute) s

/-- LDX Absolute,Y, opcode 0xBE (R91). -/
def execLdxAbsY (s : State) : Host.Outcome State Fault Refusal :=
  finish (load .X .absoluteY) s

/-- LDY Immediate, opcode 0xA0 (R92). -/
def execLdyImm (s : State) : Host.Outcome State Fault Refusal :=
  finish (load .Y .immediate) s

/-- LDY ZeroPage, opcode 0xA4 (R92). -/
def execLdyZp (s : State) : Host.Outcome State Fault Refusal :=
  finish (load .Y .zeroPage) s

/-- LDY ZeroPage,X, opcode 0xB4 (R92). -/
def execLdyZpX (s : State) : Host.Outcome State Fault Refusal :=
  finish (load .Y .zeroPageX) s

/-- LDY Absolute, opcode 0xAC (R92). -/
def execLdyAbs (s : State) : Host.Outcome State Fault Refusal :=
  finish (load .Y .absolute) s

/-- LDY Absolute,X, opcode 0xBC (R92). -/
def execLdyAbsX (s : State) : Host.Outcome State Fault Refusal :=
  finish (load .Y .absoluteX) s

/-- STA ZeroPage, opcode 0x85 (R93). -/
def execStaZp (s : State) : Host.Outcome State Fault Refusal :=
  finish (store .A .zeroPage) s

/-- STA ZeroPage,X, opcode 0x95 (R93). -/
def execStaZpX (s : State) : Host.Outcome State Fault Refusal :=
  finish (store .A .zeroPageX) s

/-- STA Absolute, opcode 0x8D (R93). -/
def execStaAbs (s : State) : Host.Outcome State Fault Refusal :=
  finish (store .A .absolute) s

/-- STA Absolute,X, opcode 0x9D (R93). -/
def execStaAbsX (s : State) : Host.Outcome State Fault Refusal :=
  finish (store .A .absoluteX) s

/-- STA Absolute,Y, opcode 0x99 (R93). -/
def execStaAbsY (s : State) : Host.Outcome State Fault Refusal :=
  finish (store .A .absoluteY) s

/-- STA (zp,X), opcode 0x81 (R93). -/
def execStaIndX (s : State) : Host.Outcome State Fault Refusal :=
  finish (store .A .indexedIndirect) s

/-- STA (zp),Y, opcode 0x91 (R93). -/
def execStaIndY (s : State) : Host.Outcome State Fault Refusal :=
  finish (store .A .indirectIndexed) s

/-- STX ZeroPage, opcode 0x86 (R94). -/
def execStxZp (s : State) : Host.Outcome State Fault Refusal :=
  finish (store .X .zeroPage) s

/-- STX ZeroPage,Y, opcode 0x96 (R94). -/
def execStxZpY (s : State) : Host.Outcome State Fault Refusal :=
  finish (store .X .zeroPageY) s

/-- STX Absolute, opcode 0x8E (R94). -/
def execStxAbs (s : State) : Host.Outcome State Fault Refusal :=
  finish (store .X .absolute) s

/-- STY ZeroPage, opcode 0x84 (R95). -/
def execStyZp (s : State) : Host.Outcome State Fault Refusal :=
  finish (store .Y .zeroPage) s

/-- STY ZeroPage,X, opcode 0x94 (R95). -/
def execStyZpX (s : State) : Host.Outcome State Fault Refusal :=
  finish (store .Y .zeroPageX) s

/-- STY Absolute, opcode 0x8C (R95). -/
def execStyAbs (s : State) : Host.Outcome State Fault Refusal :=
  finish (store .Y .absolute) s

/-- TAX, opcode 0xAA (R96). -/
def execTax (s : State) : Host.Outcome State Fault Refusal :=
  finish (transfer .A .X) s

/-- TAY, opcode 0xA8 (R97). -/
def execTay (s : State) : Host.Outcome State Fault Refusal :=
  finish (transfer .A .Y) s

/-- TXA, opcode 0x8A (R98). -/
def execTxa (s : State) : Host.Outcome State Fault Refusal :=
  finish (transfer .X .A) s

/-- TYA, opcode 0x98 (R99). -/
def execTya (s : State) : Host.Outcome State Fault Refusal :=
  finish (transfer .Y .A) s

/-- TSX, opcode 0xBA (R100). -/
def execTsx (s : State) : Host.Outcome State Fault Refusal :=
  finish (transfer .S .X) s

/-- TXS, opcode 0x9A (R101). -/
def execTxs (s : State) : Host.Outcome State Fault Refusal :=
  finish transferToS s

end Sys2Proof.Machine
end

