-- ==== Sys2Proof/Machine/StackBit.lean ====
section
/-! DEFINITION. Push, pull and BIT (spec/44_stack_bit.md R137 to R141). -/

namespace Sys2Proof.Machine

/-- R137: push A. No flag changes. -/
def pushA : Op Unit := do
  let a ← Op.get State.A
  push a

/-- R138: pull A, then N and Z from it. -/
def pullA : Op Unit := do
  let v ← pop
  Op.update fun s => (s.setReg .A v).mapP (setZN v)

/-- R139: push `P | 0x18`; the live P is unchanged. -/
def pushStatus : Op Unit := do
  let p ← Op.get State.P
  push (pushedP p)

/-- R140: pull P with bits 3 and 4 cleared. -/
def pullStatus : Op Unit := do
  let v ← pop
  Op.update fun s => s.mapP fun _ => restoredP v

/-- R141: one read (D12); N and V from the operand, Z from A & M; A is not written. -/
def bitTest (m : Mode) : Op Unit := do
  let v ← getData m
  Op.update fun s => s.mapP (bitP s.A v)

/-- PHA, opcode 0x48 (R137). -/
def execPha (s : State) : Host.Outcome State Fault Refusal :=
  finish pushA s

/-- PLA, opcode 0x68 (R138). -/
def execPla (s : State) : Host.Outcome State Fault Refusal :=
  finish pullA s

/-- PHP, opcode 0x08 (R139). -/
def execPhp (s : State) : Host.Outcome State Fault Refusal :=
  finish pushStatus s

/-- PLP, opcode 0x28 (R140). -/
def execPlp (s : State) : Host.Outcome State Fault Refusal :=
  finish pullStatus s

/-- BIT ZeroPage, opcode 0x24 (R141). -/
def execBitZp (s : State) : Host.Outcome State Fault Refusal :=
  finish (bitTest .zeroPage) s

/-- BIT Absolute, opcode 0x2C (R141). -/
def execBitAbs (s : State) : Host.Outcome State Fault Refusal :=
  finish (bitTest .absolute) s

end Sys2Proof.Machine
end

