-- ==== Sys2Proof/Machine/System.lean ====
section
/-! DEFINITION. BRK, RTI and NOP (spec/46_system.md R150 to R152). BRK is the core's only trap entry and RTI its only return (R166, R167). -/

namespace Sys2Proof.Machine

/-- R152: no effect beyond the opcode fetch. -/
def noOperation : Op Unit := Op.update fun s => s

/-- BRK, opcode 0x00 (R150). -/
def execBrk (s : State) : Host.Outcome State Fault Refusal :=
  finish trapEntry s

/-- RTI, opcode 0x40 (R151). -/
def execRti (s : State) : Host.Outcome State Fault Refusal :=
  finish trapReturn s

/-- NOP, opcode 0xEA (R152). -/
def execNop (s : State) : Host.Outcome State Fault Refusal :=
  finish noOperation s

end Sys2Proof.Machine
end

