-- ==== Sys2Proof/Machine/Dispatch.lean ====
section
/-! DEFINITION. One arm per instruction, each one call of that instruction's own meaning (spec/30_encoding.md R84: execute). -/

namespace Sys2Proof.Machine

/-- R84: execute, from the state after the opcode fetch (PC = K+1). -/
def exec (i : Instr) (s : State) : Host.Outcome State Fault Refusal :=
  match i with
  -- LDA
  | .ldaImm => Sys2Proof.Machine.execLdaImm s
  | .ldaZp => Sys2Proof.Machine.execLdaZp s
  | .ldaZpX => Sys2Proof.Machine.execLdaZpX s
  | .ldaAbs => Sys2Proof.Machine.execLdaAbs s
  | .ldaAbsX => Sys2Proof.Machine.execLdaAbsX s
  | .ldaAbsY => Sys2Proof.Machine.execLdaAbsY s
  | .ldaIndX => Sys2Proof.Machine.execLdaIndX s
  | .ldaIndY => Sys2Proof.Machine.execLdaIndY s
  -- LDX
  | .ldxImm => Sys2Proof.Machine.execLdxImm s
  | .ldxZp => Sys2Proof.Machine.execLdxZp s
  | .ldxZpY => Sys2Proof.Machine.execLdxZpY s
  | .ldxAbs => Sys2Proof.Machine.execLdxAbs s
  | .ldxAbsY => Sys2Proof.Machine.execLdxAbsY s
  -- LDY
  | .ldyImm => Sys2Proof.Machine.execLdyImm s
  | .ldyZp => Sys2Proof.Machine.execLdyZp s
  | .ldyZpX => Sys2Proof.Machine.execLdyZpX s
  | .ldyAbs => Sys2Proof.Machine.execLdyAbs s
  | .ldyAbsX => Sys2Proof.Machine.execLdyAbsX s
  -- STA
  | .staZp => Sys2Proof.Machine.execStaZp s
  | .staZpX => Sys2Proof.Machine.execStaZpX s
  | .staAbs => Sys2Proof.Machine.execStaAbs s
  | .staAbsX => Sys2Proof.Machine.execStaAbsX s
  | .staAbsY => Sys2Proof.Machine.execStaAbsY s
  | .staIndX => Sys2Proof.Machine.execStaIndX s
  | .staIndY => Sys2Proof.Machine.execStaIndY s
  -- STX
  | .stxZp => Sys2Proof.Machine.execStxZp s
  | .stxZpY => Sys2Proof.Machine.execStxZpY s
  | .stxAbs => Sys2Proof.Machine.execStxAbs s
  -- STY
  | .styZp => Sys2Proof.Machine.execStyZp s
  | .styZpX => Sys2Proof.Machine.execStyZpX s
  | .styAbs => Sys2Proof.Machine.execStyAbs s
  -- TAX
  | .tax => Sys2Proof.Machine.execTax s
  -- TAY
  | .tay => Sys2Proof.Machine.execTay s
  -- TXA
  | .txa => Sys2Proof.Machine.execTxa s
  -- TYA
  | .tya => Sys2Proof.Machine.execTya s
  -- TSX
  | .tsx => Sys2Proof.Machine.execTsx s
  -- TXS
  | .txs => Sys2Proof.Machine.execTxs s
  -- CLC
  | .clc => Sys2Proof.Machine.execClc s
  -- CLD
  | .cld => Sys2Proof.Machine.execCld s
  -- CLI
  | .cli => Sys2Proof.Machine.execCli s
  -- CLV
  | .clv => Sys2Proof.Machine.execClv s
  -- SEC
  | .sec => Sys2Proof.Machine.execSec s
  -- SED
  | .sed => Sys2Proof.Machine.execSed s
  -- SEI
  | .sei => Sys2Proof.Machine.execSei s
  -- INC
  | .incZp => Sys2Proof.Machine.execIncZp s
  | .incZpX => Sys2Proof.Machine.execIncZpX s
  | .incAbs => Sys2Proof.Machine.execIncAbs s
  | .incAbsX => Sys2Proof.Machine.execIncAbsX s
  -- DEC
  | .decZp => Sys2Proof.Machine.execDecZp s
  | .decZpX => Sys2Proof.Machine.execDecZpX s
  | .decAbs => Sys2Proof.Machine.execDecAbs s
  | .decAbsX => Sys2Proof.Machine.execDecAbsX s
  -- INX
  | .inx => Sys2Proof.Machine.execInx s
  -- INY
  | .iny => Sys2Proof.Machine.execIny s
  -- DEX
  | .dex => Sys2Proof.Machine.execDex s
  -- DEY
  | .dey => Sys2Proof.Machine.execDey s
  -- CMP
  | .cmpImm => Sys2Proof.Machine.execCmpImm s
  | .cmpZp => Sys2Proof.Machine.execCmpZp s
  | .cmpZpX => Sys2Proof.Machine.execCmpZpX s
  | .cmpAbs => Sys2Proof.Machine.execCmpAbs s
  | .cmpAbsX => Sys2Proof.Machine.execCmpAbsX s
  | .cmpAbsY => Sys2Proof.Machine.execCmpAbsY s
  | .cmpIndX => Sys2Proof.Machine.execCmpIndX s
  | .cmpIndY => Sys2Proof.Machine.execCmpIndY s
  -- CPX
  | .cpxImm => Sys2Proof.Machine.execCpxImm s
  | .cpxZp => Sys2Proof.Machine.execCpxZp s
  | .cpxAbs => Sys2Proof.Machine.execCpxAbs s
  -- CPY
  | .cpyImm => Sys2Proof.Machine.execCpyImm s
  | .cpyZp => Sys2Proof.Machine.execCpyZp s
  | .cpyAbs => Sys2Proof.Machine.execCpyAbs s
  -- AND
  | .andImm => Sys2Proof.Machine.execAndImm s
  | .andZp => Sys2Proof.Machine.execAndZp s
  | .andZpX => Sys2Proof.Machine.execAndZpX s
  | .andAbs => Sys2Proof.Machine.execAndAbs s
  | .andAbsX => Sys2Proof.Machine.execAndAbsX s
  | .andAbsY => Sys2Proof.Machine.execAndAbsY s
  | .andIndX => Sys2Proof.Machine.execAndIndX s
  | .andIndY => Sys2Proof.Machine.execAndIndY s
  -- ORA
  | .oraImm => Sys2Proof.Machine.execOraImm s
  | .oraZp => Sys2Proof.Machine.execOraZp s
  | .oraZpX => Sys2Proof.Machine.execOraZpX s
  | .oraAbs => Sys2Proof.Machine.execOraAbs s
  | .oraAbsX => Sys2Proof.Machine.execOraAbsX s
  | .oraAbsY => Sys2Proof.Machine.execOraAbsY s
  | .oraIndX => Sys2Proof.Machine.execOraIndX s
  | .oraIndY => Sys2Proof.Machine.execOraIndY s
  -- EOR
  | .eorImm => Sys2Proof.Machine.execEorImm s
  | .eorZp => Sys2Proof.Machine.execEorZp s
  | .eorZpX => Sys2Proof.Machine.execEorZpX s
  | .eorAbs => Sys2Proof.Machine.execEorAbs s
  | .eorAbsX => Sys2Proof.Machine.execEorAbsX s
  | .eorAbsY => Sys2Proof.Machine.execEorAbsY s
  | .eorIndX => Sys2Proof.Machine.execEorIndX s
  | .eorIndY => Sys2Proof.Machine.execEorIndY s
  -- ASL
  | .aslAcc => Sys2Proof.Machine.execAslAcc s
  | .aslZp => Sys2Proof.Machine.execAslZp s
  | .aslZpX => Sys2Proof.Machine.execAslZpX s
  | .aslAbs => Sys2Proof.Machine.execAslAbs s
  | .aslAbsX => Sys2Proof.Machine.execAslAbsX s
  -- LSR
  | .lsrAcc => Sys2Proof.Machine.execLsrAcc s
  | .lsrZp => Sys2Proof.Machine.execLsrZp s
  | .lsrZpX => Sys2Proof.Machine.execLsrZpX s
  | .lsrAbs => Sys2Proof.Machine.execLsrAbs s
  | .lsrAbsX => Sys2Proof.Machine.execLsrAbsX s
  -- ROL
  | .rolAcc => Sys2Proof.Machine.execRolAcc s
  | .rolZp => Sys2Proof.Machine.execRolZp s
  | .rolZpX => Sys2Proof.Machine.execRolZpX s
  | .rolAbs => Sys2Proof.Machine.execRolAbs s
  | .rolAbsX => Sys2Proof.Machine.execRolAbsX s
  -- ROR
  | .rorAcc => Sys2Proof.Machine.execRorAcc s
  | .rorZp => Sys2Proof.Machine.execRorZp s
  | .rorZpX => Sys2Proof.Machine.execRorZpX s
  | .rorAbs => Sys2Proof.Machine.execRorAbs s
  | .rorAbsX => Sys2Proof.Machine.execRorAbsX s
  -- BEQ
  | .beq => Sys2Proof.Machine.execBeq s
  -- BNE
  | .bne => Sys2Proof.Machine.execBne s
  -- BMI
  | .bmi => Sys2Proof.Machine.execBmi s
  -- BPL
  | .bpl => Sys2Proof.Machine.execBpl s
  -- BCS
  | .bcs => Sys2Proof.Machine.execBcs s
  -- BCC
  | .bcc => Sys2Proof.Machine.execBcc s
  -- BVC
  | .bvc => Sys2Proof.Machine.execBvc s
  -- BVS
  | .bvs => Sys2Proof.Machine.execBvs s
  -- JMP
  | .jmpAbs => Sys2Proof.Machine.execJmpAbs s
  | .jmpInd => Sys2Proof.Machine.execJmpInd s
  -- JSR
  | .jsr => Sys2Proof.Machine.execJsr s
  -- RTS
  | .rts => Sys2Proof.Machine.execRts s
  -- PHA
  | .pha => Sys2Proof.Machine.execPha s
  -- PLA
  | .pla => Sys2Proof.Machine.execPla s
  -- PHP
  | .php => Sys2Proof.Machine.execPhp s
  -- PLP
  | .plp => Sys2Proof.Machine.execPlp s
  -- BIT
  | .bitZp => Sys2Proof.Machine.execBitZp s
  | .bitAbs => Sys2Proof.Machine.execBitAbs s
  -- ADC
  | .adcImm => Sys2Proof.Machine.execAdcImm s
  | .adcZp => Sys2Proof.Machine.execAdcZp s
  | .adcZpX => Sys2Proof.Machine.execAdcZpX s
  | .adcAbs => Sys2Proof.Machine.execAdcAbs s
  | .adcAbsX => Sys2Proof.Machine.execAdcAbsX s
  | .adcAbsY => Sys2Proof.Machine.execAdcAbsY s
  | .adcIndX => Sys2Proof.Machine.execAdcIndX s
  | .adcIndY => Sys2Proof.Machine.execAdcIndY s
  -- SBC
  | .sbcImm => Sys2Proof.Machine.execSbcImm s
  | .sbcZp => Sys2Proof.Machine.execSbcZp s
  | .sbcZpX => Sys2Proof.Machine.execSbcZpX s
  | .sbcAbs => Sys2Proof.Machine.execSbcAbs s
  | .sbcAbsX => Sys2Proof.Machine.execSbcAbsX s
  | .sbcAbsY => Sys2Proof.Machine.execSbcAbsY s
  | .sbcIndX => Sys2Proof.Machine.execSbcIndX s
  | .sbcIndY => Sys2Proof.Machine.execSbcIndY s
  -- BRK
  | .brk => Sys2Proof.Machine.execBrk s
  -- RTI
  | .rti => Sys2Proof.Machine.execRti s
  -- NOP
  | .nop => Sys2Proof.Machine.execNop s

end Sys2Proof.Machine
end

