-- ==== Sys2Proof/Machine/Step.lean ====
section
/-! DEFINITION. One step (spec/30_encoding.md R84) and the placing of one instruction where the next step fetches it. -/

namespace Sys2Proof.Machine

/-- R84: the sticky fault first (R164); then fetch, decode and execute. A fault at the fetch or at decode leaves a state
with the fault recorded, like one inside an instruction (log 5). A bad configuration is refused (log 7). -/
def step (s : State) : Host.Outcome State Fault Refusal :=
  if s.cfg.ok then
    match s.faultRecord with
    | some f => .fault f
    | none =>
      match fetchDecode s with
      | .ok i t => exec i t
      | .error f t => .next (t.recordFault f)
  else .refused .badConfig

/-- `s` with an instruction's bytes at PC, PC+1 and PC+2 (R25, R60), where the next step fetches them, and no fault on
record. It stands for the loading of a program from outside (R58, R186, log 19). -/
def State.withFetchWord (s : State) (nbits w : Nat) : State :=
  let v := w % 2 ^ nbits
  let m0 := Memory.write s.mem s.PC.toNat (BitVec.ofNat 8 v)
  let m1 := Memory.write m0 (s.PC + 1).toNat (BitVec.ofNat 8 (v / 256))
  let m2 := Memory.write m1 (s.PC + 2).toNat (BitVec.ofNat 8 (v / 65536))
  { s with mem := m2, faultRecord := none }

end Sys2Proof.Machine
end

