-- ==== Sys2Proof/Machine/HostOps.lean ====
section
/-! DEFINITION. The host's operations between steps (spec/70_reset_and_hazards.md R180 to R187): construct, reset, step,
run, register reads and writes, memory changes. Each takes a whole state, so none can happen inside a step (R183, R194). -/

namespace Sys2Proof.Machine

/-- R180: a newly built core over the parameters and the launch memory M0, given as a list of cells; a later entry for an
address wins, and a cell that does not exist is dropped. No Bus operation is issued. A MEM_LEN outside 1 to 65536 is
refused (log 7). -/
def construct (cfg : Config) (m0 : List Host.Cell) : Host.Outcome State Fault Refusal :=
  if cfg.ok then
    .next { A := 0x00, X := 0x00, Y := 0x00, S := 0x00, PC := 0x0000, P := 0x00, faultRecord := none,
            mem := m0.foldl (fun m c => if c.1 < cfg.memLen then Memory.write m c.1 c.2 else m) [],
            bus := [], cfg := cfg }
  else .refused .badConfig

/-- R181: the two vector reads, low byte first, the second at RESET_VECTOR + 1 mod 65536, and the write of PC. -/
def loadResetVector : Op Unit := do
  let v ← Op.get fun s => s.cfg.resetVector
  let target ← readWordAt v (v + 1)
  setPC target

/-- R181: `reset()`: the fault record is cleared and PC loaded; A, X, Y, S, P and memory keep their values (D5, log 9).
If a vector read faults, PC is unchanged and the record holds that fault. -/
def hostReset (s : State) : StepResult :=
  if s.cfg.ok then
    match loadResetVector { s with faultRecord := none } with
    | .ok _ t => .ok t
    | .error f t => .fault f (t.recordFault f)
  else .refused .badConfig

/-- R184: `step() -> ok | fault`, with the state the step leaves. -/
def hostStep (s : State) : StepResult :=
  match step s with
  | .next t =>
    match t.faultRecord with
    | none => .ok t
    | some f => .fault f t
  | .fault f => .fault f s
  | .refused r => .refused r

/-- R185: `run()`, with a bound on the number of steps: it halts when PC is at or above MEM_LEN before a fetch (D19,
log 18), and ends at the first step that returns a fault. -/
def run : Nat → State → RunResult
  | fuel, s =>
    if s.cfg.memLen ≤ s.PC.toNat then .halted s
    else
      match fuel with
      | 0 => .outOfFuel s
      | n + 1 =>
        match hostStep s with
        | .ok t => run n t
        | .fault f t => .fault f t
        | .refused r => .refused r

/-- R187: a host write of A, X, Y or S stores the value mod 256. -/
def hostWriteReg (r : Reg) (v : Nat) (s : State) : State := s.setReg r (BitVec.ofNat 8 v)

/-- R187, R21: a host write of PC stores the value mod 65536. -/
def hostWritePC (v : Nat) (s : State) : State := { s with PC := BitVec.ofNat 16 v }

/-- R187: a host write of P stores all 8 bits as given; the 0x18 mask does not apply. -/
def hostWriteP (v : Nat) (s : State) : State := { s with P := BitVec.ofNat 8 v }

/-- R187: the host changes a byte of memory between steps (R193). DESIGN CHOICE (log 17), safe: a cell that does not
exist or lies in IO_REGION is not changed, and the change is no Bus event of the core. -/
def hostWriteMem (a : Addr) (v : Byte) (s : State) : State :=
  if s.cfg.memLen ≤ a.toNat then s
  else if a ∈ s.cfg.ioRegion then s
  else { s with mem := Memory.write s.mem a.toNat v }

/-- R187: the host reads a register; the state is not an output, so the read has no effect. -/
def hostReadReg (r : Reg) (s : State) : Byte := s.getReg r

/-- R187: the host reads PC. -/
def hostReadPC (s : State) : Addr := s.PC

/-- R187: the host reads P. -/
def hostReadP (s : State) : Byte := s.P

end Sys2Proof.Machine
end

