-- ==== Sys2Proof/WellFormed.lean ====
section
/-! DEFINITION. Which instructions with operand bytes are well formed (spec/30_encoding.md R61): exactly as many
operand bytes as the row's mode consumes. Byte values need no check: every byte is a legal operand (R70 to R80, R125). -/

namespace Sys2Proof

/-- R61: the operand bytes are as many as the mode says. -/
def Code.wellFormed (c : Code) : Bool := c.operands.length == c.instr.mode.operandBytes

end Sys2Proof
end

