-- ==== Sys2Proof/Safety.lean ====
section
/-! DEFINITION. What counts as a safe state, and the vocabulary the statements use: the effect of one Bus operation, fetch,
push and pop as plain functions of a state, values and flags by ordinary arithmetic, the R86 table of Bus operations, and
the replay of a Bus event record. None of it is used by the machine; each is written again from the spec. -/

namespace Sys2Proof.Machine

/-- The whole 64 KiB exists: MEM_LEN has its default (R6, R43), under which no address can raise BusRange (R162). -/
abbrev State.FullMemory (s : State) : Prop := s.cfg.memLen = 65536

/-- No device: IO_REGION has its default, the empty set (R6, D3). -/
abbrev State.NoDevices (s : State) : Prop := s.cfg.ioRegion = []

/-- What every step keeps: a legal configuration (R6), memory in canonical form with no cell at or above MEM_LEN (R43),
and the live B bit 0 (R28). A host write of P can break the last clause (R187). -/
abbrev State.Inv (s : State) : Prop :=
  s.cfg.ok = true ∧ Memory.wf s.mem = true ∧ Memory.below s.cfg.memLen s.mem = true ∧ s.flag .B = false

end Sys2Proof.Machine

namespace Sys2Proof.Spec

open Sys2Proof.Machine

/-! ### Values -/

/-- R10: hi × 256 + lo. -/
def word (hi lo : Byte) : Addr := BitVec.ofNat 16 (hi.toNat * 256 + lo.toNat)

/-- The byte of plain memory at `a` (R41, R58). -/
def byteAt (s : State) (a : Addr) : Byte := s.memByte a.toNat

/-- R48: 0x0100 + S. -/
def cell (sp : Byte) : Addr := BitVec.ofNat 16 (0x0100 + sp.toNat)

/-- A zero-page address (R71, R72): `n` mod 256. -/
def zeroPage (n : Nat) : Addr := BitVec.ofNat 16 (n % 256)

/-! ### P by its eight flags -/

/-- The byte whose flags are the given ones (R26). -/
def packP (g : Flag → Bool) : Byte :=
  BitVec.ofNat 8 ((g .C).toNat + 2 * (g .Z).toNat + 4 * (g .I).toNat + 8 * (g .D).toNat + 16 * (g .B).toNat +
    32 * (g .U).toNat + 64 * (g .V).toNat + 128 * (g .N).toNat)

/-- P with Z and N of the byte `v`, every other flag as in `p` (R30). -/
def znP (v p : Byte) : Byte :=
  packP fun f => match f with
    | .Z => decide (v.toNat = 0)
    | .N => decide (128 ≤ v.toNat)
    | f => getFlag f p

/-- P with C, and Z and N of the byte `v`, every other flag as in `p`. -/
def cznP (c : Bool) (v p : Byte) : Byte :=
  packP fun f => match f with
    | .C => c
    | .Z => decide (v.toNat = 0)
    | .N => decide (128 ≤ v.toNat)
    | f => getFlag f p

/-- P with C, V, and Z and N of the byte `v`, every other flag as in `p`. -/
def cvznP (c o : Bool) (v p : Byte) : Byte :=
  packP fun f => match f with
    | .C => c
    | .V => o
    | .Z => decide (v.toNat = 0)
    | .N => decide (128 ≤ v.toNat)
    | f => getFlag f p

/-- The byte PHP and BRK push (R28): D and B are 1, every other flag as in `p`. -/
def pushByte (p : Byte) : Byte :=
  packP fun f => match f with
    | .D => true
    | .B => true
    | f => getFlag f p

/-- The P that PLP and RTI restore (R28): D and B are 0, every other flag as in the popped byte. -/
def restoreByte (v : Byte) : Byte :=
  packP fun f => match f with
    | .D => false
    | .B => false
    | f => getFlag f v

/-! ### The effect of one Bus operation, fetch, push and pop -/

/-- The state after a Bus read of `a` that is in range (R41). -/
def afterRead (s : State) (a : Addr) : State := { s with bus := .read a (s.busByte a) :: s.bus }

/-- The state after a Bus write of `v` at `a` that is in range (R42). -/
def afterWrite (s : State) (a : Addr) (v : Byte) : State :=
  { s with bus := .write a v :: s.bus,
           mem := if a ∈ s.cfg.ioRegion then s.mem else Memory.write s.mem a.toNat v }

/-- The state after a fetch that is in range (R60). -/
def afterFetch (s : State) : State :=
  { s with bus := .read s.PC (s.busByte s.PC) :: s.bus, PC := BitVec.ofNat 16 (s.PC.toNat + 1) }

/-- The state after a push that is in range (R49). -/
def afterPush (s : State) (v : Byte) : State :=
  { afterWrite s (cell s.S) v with S := BitVec.ofInt 8 ((s.S.toNat : Int) - 1) }

/-- S after a pop (R50). -/
def poppedS (s : State) : Byte := BitVec.ofNat 8 (s.S.toNat + 1)

/-- The byte a pop returns (R50). -/
def popByte (s : State) : Byte := s.busByte (cell (poppedS s))

/-- The state after a pop that is in range (R50). -/
def afterPop (s : State) : State := afterRead { s with S := poppedS s } (cell (poppedS s))

/-! ### Rows of the opcode table, and what the instruction classes of R67 do -/

/-- A row: its constructor, its addressing mode and its opcode (R66). -/
structure Row where
  i : Instr
  m : Mode
  op : Byte
  deriving DecidableEq, Repr

/-- The opcode decodes to the row's instruction, in the row's mode. -/
def Row.Encoded (r : Row) : Prop := decodeOpcode r.op = some r.i ∧ r.i.mode = r.m

/-- A fault that only an access at or above MEM_LEN raises (R162). -/
def OutOfRange (s : State) (f : Fault) : Prop := ∃ a : Addr, f = .busRange a ∧ s.cfg.memLen ≤ a.toNat

/-- How an operand of `n` bytes stops when it faults (R13, R24, R60): at an access at or above MEM_LEN, with PC past the `k`
bytes already fetched, the reads made on the record, and nothing else changed; before its last byte is fetched, the access
is the next fetch. -/
def StopsAt (n : Nat) (s : State) (f : Fault) (t : State) : Prop :=
  ∃ (a : Addr) (k : Nat) (reads : List (Addr × Byte)), f = .busRange a ∧ s.cfg.memLen ≤ a.toNat ∧ k ≤ n ∧
    t = { s with PC := BitVec.ofNat 16 (s.PC.toNat + k),
                 bus := (reads.map fun e => BusEvent.read e.1 e.2) ++ s.bus } ∧
    k ≤ reads.length ∧ (∀ e ∈ reads, e.1.toNat < s.cfg.memLen) ∧ (k < n → reads.length = k ∧ a = t.PC)

/-- A read-class row (R67): the operand is `GetData(mode)`; the state left is `result operand state`. With a full memory
it always completes; a fault of the operand is out of range, ends the instruction and is recorded (R164). -/
def ReadClass (r : Row) (result : Byte → State → State) : Prop :=
  r.Encoded ∧ ∀ s : State,
    (s.FullMemory → ∃ v t, getData r.m s = .ok v t ∧ exec r.i s = .next (result v t)) ∧
    (∀ v t, getData r.m s = .ok v t → exec r.i s = .next (result v t)) ∧
    (∀ f t, getData r.m s = .error f t → OutOfRange s f ∧ exec r.i s = .next { t with faultRecord := some f })

/-- A write-class row (R67): `value` is written at `GetAddr(mode)`. -/
def WriteClass (r : Row) (value : State → Byte) : Prop :=
  r.Encoded ∧ ∀ s : State,
    (s.FullMemory → ∃ ea t, getAddr r.m s = .ok ea t ∧ exec r.i s = .next (afterWrite t ea (value s))) ∧
    (∀ ea t, getAddr r.m s = .ok ea t → ea.toNat < s.cfg.memLen →
      exec r.i s = .next (afterWrite t ea (value s))) ∧
    (∀ ea t, getAddr r.m s = .ok ea t → s.cfg.memLen ≤ ea.toNat →
      exec r.i s = .next { t with faultRecord := some (.busRange ea) }) ∧
    (∀ f t, getAddr r.m s = .error f t → OutOfRange s f ∧ exec r.i s = .next { t with faultRecord := some f })

/-- A read-modify-write row in a memory mode (R47, R67): one read of the operand at `GetAddr(mode)`, one write of
`value operand` there, and P becomes `status operand old`. -/
def ModifyClass (r : Row) (value : State → Byte → Byte) (status : State → Byte → Byte) : Prop :=
  r.Encoded ∧ ∀ s : State,
    (s.FullMemory → ∃ ea t, getAddr r.m s = .ok ea t ∧
      exec r.i s = .next { afterWrite (afterRead t ea) ea (value s (t.busByte ea)) with P := status s (t.busByte ea) }) ∧
    (∀ ea t, getAddr r.m s = .ok ea t → ea.toNat < s.cfg.memLen →
      exec r.i s = .next { afterWrite (afterRead t ea) ea (value s (t.busByte ea)) with P := status s (t.busByte ea) }) ∧
    (∀ ea t, getAddr r.m s = .ok ea t → s.cfg.memLen ≤ ea.toNat →
      exec r.i s = .next { t with faultRecord := some (.busRange ea) }) ∧
    (∀ f t, getAddr r.m s = .error f t → OutOfRange s f ∧ exec r.i s = .next { t with faultRecord := some f })

/-- A row that makes no Bus operation after the opcode fetch (R67: register-only). -/
def RegisterOnly (r : Row) (result : State → State) : Prop :=
  r.Encoded ∧ ∀ s : State, exec r.i s = .next (result s)

/-! ### The Bus operations of an instruction, from the table of R86 -/

/-- A Bus operation without its byte: whether it writes, and its address. -/
def BusEvent.access : BusEvent → Bool × Addr
  | .read a _ => (false, a)
  | .write a _ => (true, a)

/-- F: the fetch of the `k`-th byte after the opcode. -/
def fetchAt (s : State) (k : Nat) : Bool × Addr := (false, BitVec.ofNat 16 (s.PC.toNat + k))

/-- The operand byte `k` of the instruction at PC, in plain memory. -/
def operand (s : State) (k : Nat) : Byte := byteAt s (BitVec.ofNat 16 (s.PC.toNat + k))

/-- The effective address of a memory mode, in plain memory (R71 to R80). -/
def effAddr (m : Mode) (s : State) : Addr :=
  match m with
  | .zeroPage => zeroPage (operand s 0).toNat
  | .zeroPageX => zeroPage ((operand s 0).toNat + s.X.toNat)
  | .zeroPageY => zeroPage ((operand s 0).toNat + s.Y.toNat)
  | .absolute => word (operand s 1) (operand s 0)
  | .absoluteX => BitVec.ofNat 16 ((word (operand s 1) (operand s 0)).toNat + s.X.toNat)
  | .absoluteY => BitVec.ofNat 16 ((word (operand s 1) (operand s 0)).toNat + s.Y.toNat)
  | .indirect => word (byteAt s (word (operand s 1) (operand s 0 + 1))) (byteAt s (word (operand s 1) (operand s 0)))
  | .indexedIndirect =>
    word (byteAt s (zeroPage ((operand s 0).toNat + s.X.toNat + 1))) (byteAt s (zeroPage ((operand s 0).toNat + s.X.toNat)))
  | .indirectIndexed =>
    BitVec.ofNat 16 ((word (byteAt s (zeroPage ((operand s 0).toNat + 1))) (byteAt s (zeroPage (operand s 0).toNat))).toNat
      + s.Y.toNat)
  | .implied | .accumulator | .immediate | .relative => 0

/-- R86: res(mode). -/
def resolverOps (m : Mode) (s : State) : List (Bool × Addr) :=
  match m with
  | .implied | .accumulator => []
  | .immediate | .relative | .zeroPage | .zeroPageX | .zeroPageY => [fetchAt s 0]
  | .absolute | .absoluteX | .absoluteY => [fetchAt s 0, fetchAt s 1]
  | .indirect =>
    [fetchAt s 0, fetchAt s 1, (false, word (operand s 1) (operand s 0)), (false, word (operand s 1) (operand s 0 + 1))]
  | .indexedIndirect =>
    [fetchAt s 0, (false, zeroPage ((operand s 0).toNat + s.X.toNat)),
     (false, zeroPage ((operand s 0).toNat + s.X.toNat + 1))]
  | .indirectIndexed =>
    [fetchAt s 0, (false, zeroPage (operand s 0).toNat), (false, zeroPage ((operand s 0).toNat + 1))]

/-- The stack cell `k` above S, mod 256. -/
def stackUp (s : State) (k : Nat) : Addr := cell (BitVec.ofNat 8 (s.S.toNat + k))

/-- The stack cell `k` below S, mod 256. -/
def stackDown (s : State) (k : Nat) : Addr := cell (BitVec.ofNat 8 (s.S.toNat + 256 - k))

/-- R86: the Bus operations of one instruction after its opcode fetch, in order, for a core with a full memory and no
device. -/
def busOps (i : Instr) (s : State) : List (Bool × Addr) :=
  match i.mnemonic with
  | .LDA | .LDX | .LDY | .AND | .ORA | .EOR | .ADC | .SBC | .CMP | .CPX | .CPY | .BIT =>
    if i.mode = .immediate then resolverOps i.mode s else resolverOps i.mode s ++ [(false, effAddr i.mode s)]
  | .STA | .STX | .STY => resolverOps i.mode s ++ [(true, effAddr i.mode s)]
  | .INC | .DEC | .ASL | .LSR | .ROL | .ROR =>
    if i.mode = .accumulator then []
    else resolverOps i.mode s ++ [(false, effAddr i.mode s), (true, effAddr i.mode s)]
  | .BEQ | .BNE | .BMI | .BPL | .BCS | .BCC | .BVC | .BVS | .JMP => resolverOps i.mode s
  | .JSR => [(true, stackDown s 0), (true, stackDown s 1), fetchAt s 0, fetchAt s 1]
  | .RTS => [(false, stackUp s 1), (false, stackUp s 2)]
  | .PHA | .PHP => [(true, stackDown s 0)]
  | .PLA | .PLP => [(false, stackUp s 1)]
  | .BRK =>
    [(true, stackDown s 0), (true, stackDown s 1), (true, stackDown s 2), (false, 0xFFFE), (false, 0xFFFF)]
  | .RTI => [(false, stackUp s 1), (false, stackUp s 2), (false, stackUp s 3)]
  | .TAX | .TAY | .TXA | .TYA | .TSX | .TXS | .CLC | .CLD | .CLI | .CLV | .SEC | .SED | .SEI | .INX | .INY | .DEX
  | .DEY | .NOP => []

/-! ### Who writes what (R22, R23, R31) -/

/-- R22, R23: the instructions that write a register. -/
def writesReg (r : Reg) (i : Instr) : Bool :=
  match r, i.mnemonic with
  | .A, .LDA | .A, .TXA | .A, .TYA | .A, .PLA | .A, .AND | .A, .ORA | .A, .EOR | .A, .ADC | .A, .SBC => true
  | .A, .ASL | .A, .LSR | .A, .ROL | .A, .ROR => i.mode == .accumulator
  | .X, .LDX | .X, .TAX | .X, .TSX | .X, .INX | .X, .DEX => true
  | .Y, .LDY | .Y, .TAY | .Y, .INY | .Y, .DEY => true
  | .S, .TXS | .S, .PHA | .S, .PHP | .S, .JSR | .S, .BRK | .S, .PLA | .S, .PLP | .S, .RTS | .S, .RTI => true
  | _, _ => false

/-- R31: PLP and RTI restore the whole of P. -/
def restoresP (i : Instr) : Bool :=
  match i.mnemonic with
  | .PLP | .RTI => true
  | _ => false

/-- R31: the instructions, other than PLP and RTI, that write a flag. -/
def writesFlag (f : Flag) (i : Instr) : Bool :=
  match f, i.mnemonic with
  | .N, .LDA | .N, .LDX | .N, .LDY | .N, .TAX | .N, .TAY | .N, .TXA | .N, .TYA | .N, .TSX | .N, .INC | .N, .DEC
  | .N, .INX | .N, .INY | .N, .DEX | .N, .DEY | .N, .CMP | .N, .CPX | .N, .CPY | .N, .AND | .N, .ORA | .N, .EOR
  | .N, .ASL | .N, .LSR | .N, .ROL | .N, .ROR | .N, .PLA | .N, .ADC | .N, .SBC | .N, .BIT => true
  | .Z, .LDA | .Z, .LDX | .Z, .LDY | .Z, .TAX | .Z, .TAY | .Z, .TXA | .Z, .TYA | .Z, .TSX | .Z, .INC | .Z, .DEC
  | .Z, .INX | .Z, .INY | .Z, .DEX | .Z, .DEY | .Z, .CMP | .Z, .CPX | .Z, .CPY | .Z, .AND | .Z, .ORA | .Z, .EOR
  | .Z, .ASL | .Z, .LSR | .Z, .ROL | .Z, .ROR | .Z, .PLA | .Z, .ADC | .Z, .SBC | .Z, .BIT => true
  | .C, .CMP | .C, .CPX | .C, .CPY | .C, .ASL | .C, .LSR | .C, .ROL | .C, .ROR | .C, .ADC | .C, .SBC | .C, .SEC
  | .C, .CLC => true
  | .V, .ADC | .V, .SBC | .V, .BIT | .V, .CLV => true
  | .D, .SED | .D, .CLD => true
  | .I, .SEI | .I, .CLI => true
  | _, _ => false

/-- The instructions that write memory: stores, read-modify-writes in a memory mode, pushes, JSR and BRK (R86: the rows
with a W). -/
def storesToMemory (i : Instr) : Bool :=
  match i.mnemonic with
  | .STA | .STX | .STY | .INC | .DEC | .PHA | .PHP | .JSR | .BRK => true
  | .ASL | .LSR | .ROL | .ROR => i.mode != .accumulator
  | _ => false

/-- R24: the instructions that write PC other than by fetching. -/
def writesPC (i : Instr) : Bool :=
  match i.mnemonic with
  | .BEQ | .BNE | .BMI | .BPL | .BCS | .BCC | .BVC | .BVS | .JMP | .JSR | .RTS | .BRK | .RTI => true
  | _ => false

/-! ### Replaying a Bus event record -/

/-- R53, R59: performs the events, oldest first, on a memory: a write outside IO_REGION stores its byte; a read must
return the memory's byte, or in IO_REGION the draw for the events before it (`history`, newest first). None if some read
returned another byte. The parameters `c` give IO_REGION and the launch. -/
def replay (c : Config) : List BusEvent → List BusEvent → List Host.Cell → Option (List Host.Cell)
  | _, [], m => some m
  | history, .read a v :: rest, m =>
    if v = (if a ∈ c.ioRegion then Config.drawIo history a else Memory.read c.launch m a.toNat) then
      replay c (.read a v :: history) rest m
    else none
  | history, .write a v :: rest, m =>
    replay c (.write a v :: history) rest (if a ∈ c.ioRegion then m else Memory.write m a.toNat v)

/-! ### Signed and decimal arithmetic -/

/-- A byte of two valid decimal digits. -/
def ValidBcd (b : Byte) : Prop := b.toNat / 16 ≤ 9 ∧ b.toNat % 16 ≤ 9

/-- The number that two decimal digits name. -/
def bcdValue (b : Byte) : Nat := b.toNat / 16 * 10 + b.toNat % 16

/-- The signed sum with carry leaves the range of a signed byte. -/
def signedAddOverflow (a m : Byte) (c : Bool) : Bool :=
  decide (a.toInt + m.toInt + (c.toNat : Int) < -128 ∨ 127 < a.toInt + m.toInt + (c.toNat : Int))

/-- The signed difference with borrow (1 - carry) leaves the range of a signed byte. -/
def signedSubOverflow (a m : Byte) (c : Bool) : Bool :=
  decide (a.toInt - m.toInt - (1 - (c.toNat : Int)) < -128 ∨ 127 < a.toInt - m.toInt - (1 - (c.toNat : Int)))

end Sys2Proof.Spec
end

