-- ==== Sys2Proof/Certificates/Slice0/Obligations.lean ====
section
/-! DEFINITION. The statements for the provers. Each formalises numbered rules of spec/, or is derived from them where it
rests on one of the spec's decisions (D<n>) or on a choice of the model (log <n>); its docstring says which. `Spec.*` is the
vocabulary of Sys2Proof/Safety.lean. Throughout, a meaning starts from the state after the opcode fetch: PC = K+1 (R84). -/

namespace Sys2Proof.Spec

open Sys2Proof.Machine

/-- The rows of LDA (R90). -/
def ldaRows : List Row :=
  [⟨.ldaImm, .immediate, 0xA9⟩, ⟨.ldaZp, .zeroPage, 0xA5⟩, ⟨.ldaZpX, .zeroPageX, 0xB5⟩, ⟨.ldaAbs, .absolute, 0xAD⟩,
   ⟨.ldaAbsX, .absoluteX, 0xBD⟩, ⟨.ldaAbsY, .absoluteY, 0xB9⟩, ⟨.ldaIndX, .indexedIndirect, 0xA1⟩, ⟨.ldaIndY, .indirectIndexed, 0xB1⟩]

/-- The rows of LDX (R91). -/
def ldxRows : List Row :=
  [⟨.ldxImm, .immediate, 0xA2⟩, ⟨.ldxZp, .zeroPage, 0xA6⟩, ⟨.ldxZpY, .zeroPageY, 0xB6⟩, ⟨.ldxAbs, .absolute, 0xAE⟩,
   ⟨.ldxAbsY, .absoluteY, 0xBE⟩]

/-- The rows of LDY (R92). -/
def ldyRows : List Row :=
  [⟨.ldyImm, .immediate, 0xA0⟩, ⟨.ldyZp, .zeroPage, 0xA4⟩, ⟨.ldyZpX, .zeroPageX, 0xB4⟩, ⟨.ldyAbs, .absolute, 0xAC⟩,
   ⟨.ldyAbsX, .absoluteX, 0xBC⟩]

/-- The rows of STA (R93). -/
def staRows : List Row :=
  [⟨.staZp, .zeroPage, 0x85⟩, ⟨.staZpX, .zeroPageX, 0x95⟩, ⟨.staAbs, .absolute, 0x8D⟩, ⟨.staAbsX, .absoluteX, 0x9D⟩,
   ⟨.staAbsY, .absoluteY, 0x99⟩, ⟨.staIndX, .indexedIndirect, 0x81⟩, ⟨.staIndY, .indirectIndexed, 0x91⟩]

/-- The rows of STX (R94). -/
def stxRows : List Row :=
  [⟨.stxZp, .zeroPage, 0x86⟩, ⟨.stxZpY, .zeroPageY, 0x96⟩, ⟨.stxAbs, .absolute, 0x8E⟩]

/-- The rows of STY (R95). -/
def styRows : List Row :=
  [⟨.styZp, .zeroPage, 0x84⟩, ⟨.styZpX, .zeroPageX, 0x94⟩, ⟨.styAbs, .absolute, 0x8C⟩]

/-- The rows of INC (R109). -/
def incRows : List Row :=
  [⟨.incZp, .zeroPage, 0xE6⟩, ⟨.incZpX, .zeroPageX, 0xF6⟩, ⟨.incAbs, .absolute, 0xEE⟩, ⟨.incAbsX, .absoluteX, 0xFE⟩]

/-- The rows of DEC (R110). -/
def decRows : List Row :=
  [⟨.decZp, .zeroPage, 0xC6⟩, ⟨.decZpX, .zeroPageX, 0xD6⟩, ⟨.decAbs, .absolute, 0xCE⟩, ⟨.decAbsX, .absoluteX, 0xDE⟩]

/-- The rows of CMP (R115). -/
def cmpRows : List Row :=
  [⟨.cmpImm, .immediate, 0xC9⟩, ⟨.cmpZp, .zeroPage, 0xC5⟩, ⟨.cmpZpX, .zeroPageX, 0xD5⟩, ⟨.cmpAbs, .absolute, 0xCD⟩,
   ⟨.cmpAbsX, .absoluteX, 0xDD⟩, ⟨.cmpAbsY, .absoluteY, 0xD9⟩, ⟨.cmpIndX, .indexedIndirect, 0xC1⟩, ⟨.cmpIndY, .indirectIndexed, 0xD1⟩]

/-- The rows of CPX (R116). -/
def cpxRows : List Row :=
  [⟨.cpxImm, .immediate, 0xE0⟩, ⟨.cpxZp, .zeroPage, 0xE4⟩, ⟨.cpxAbs, .absolute, 0xEC⟩]

/-- The rows of CPY (R117). -/
def cpyRows : List Row :=
  [⟨.cpyImm, .immediate, 0xC0⟩, ⟨.cpyZp, .zeroPage, 0xC4⟩, ⟨.cpyAbs, .absolute, 0xCC⟩]

/-- The rows of AND (R118). -/
def andRows : List Row :=
  [⟨.andImm, .immediate, 0x29⟩, ⟨.andZp, .zeroPage, 0x25⟩, ⟨.andZpX, .zeroPageX, 0x35⟩, ⟨.andAbs, .absolute, 0x2D⟩,
   ⟨.andAbsX, .absoluteX, 0x3D⟩, ⟨.andAbsY, .absoluteY, 0x39⟩, ⟨.andIndX, .indexedIndirect, 0x21⟩, ⟨.andIndY, .indirectIndexed, 0x31⟩]

/-- The rows of ORA (R119). -/
def oraRows : List Row :=
  [⟨.oraImm, .immediate, 0x09⟩, ⟨.oraZp, .zeroPage, 0x05⟩, ⟨.oraZpX, .zeroPageX, 0x15⟩, ⟨.oraAbs, .absolute, 0x0D⟩,
   ⟨.oraAbsX, .absoluteX, 0x1D⟩, ⟨.oraAbsY, .absoluteY, 0x19⟩, ⟨.oraIndX, .indexedIndirect, 0x01⟩, ⟨.oraIndY, .indirectIndexed, 0x11⟩]

/-- The rows of EOR (R120). -/
def eorRows : List Row :=
  [⟨.eorImm, .immediate, 0x49⟩, ⟨.eorZp, .zeroPage, 0x45⟩, ⟨.eorZpX, .zeroPageX, 0x55⟩, ⟨.eorAbs, .absolute, 0x4D⟩,
   ⟨.eorAbsX, .absoluteX, 0x5D⟩, ⟨.eorAbsY, .absoluteY, 0x59⟩, ⟨.eorIndX, .indexedIndirect, 0x41⟩, ⟨.eorIndY, .indirectIndexed, 0x51⟩]

/-- The rows of JMP (R134). -/
def jmpRows : List Row :=
  [⟨.jmpAbs, .absolute, 0x4C⟩, ⟨.jmpInd, .indirect, 0x6C⟩]

/-- The rows of BIT (R141). -/
def bitRows : List Row :=
  [⟨.bitZp, .zeroPage, 0x24⟩, ⟨.bitAbs, .absolute, 0x2C⟩]

/-- The rows of ADC (R142). -/
def adcRows : List Row :=
  [⟨.adcImm, .immediate, 0x69⟩, ⟨.adcZp, .zeroPage, 0x65⟩, ⟨.adcZpX, .zeroPageX, 0x75⟩, ⟨.adcAbs, .absolute, 0x6D⟩,
   ⟨.adcAbsX, .absoluteX, 0x7D⟩, ⟨.adcAbsY, .absoluteY, 0x79⟩, ⟨.adcIndX, .indexedIndirect, 0x61⟩, ⟨.adcIndY, .indirectIndexed, 0x71⟩]

/-- The rows of SBC (R145). -/
def sbcRows : List Row :=
  [⟨.sbcImm, .immediate, 0xE9⟩, ⟨.sbcZp, .zeroPage, 0xE5⟩, ⟨.sbcZpX, .zeroPageX, 0xF5⟩, ⟨.sbcAbs, .absolute, 0xED⟩,
   ⟨.sbcAbsX, .absoluteX, 0xFD⟩, ⟨.sbcAbsY, .absoluteY, 0xF9⟩, ⟨.sbcIndX, .indexedIndirect, 0xE1⟩, ⟨.sbcIndY, .indirectIndexed, 0xF1⟩]

/-- The rows of ASL in a memory mode (R121). -/
def aslMemRows : List Row :=
  [⟨.aslZp, .zeroPage, 0x06⟩, ⟨.aslZpX, .zeroPageX, 0x16⟩, ⟨.aslAbs, .absolute, 0x0E⟩, ⟨.aslAbsX, .absoluteX, 0x1E⟩]

/-- The rows of LSR in a memory mode (R122). -/
def lsrMemRows : List Row :=
  [⟨.lsrZp, .zeroPage, 0x46⟩, ⟨.lsrZpX, .zeroPageX, 0x56⟩, ⟨.lsrAbs, .absolute, 0x4E⟩, ⟨.lsrAbsX, .absoluteX, 0x5E⟩]

/-- The rows of ROL in a memory mode (R123). -/
def rolMemRows : List Row :=
  [⟨.rolZp, .zeroPage, 0x26⟩, ⟨.rolZpX, .zeroPageX, 0x36⟩, ⟨.rolAbs, .absolute, 0x2E⟩, ⟨.rolAbsX, .absoluteX, 0x3E⟩]

/-- The rows of ROR in a memory mode (R124). -/
def rorMemRows : List Row :=
  [⟨.rorZp, .zeroPage, 0x66⟩, ⟨.rorZpX, .zeroPageX, 0x76⟩, ⟨.rorAbs, .absolute, 0x6E⟩, ⟨.rorAbsX, .absoluteX, 0x7E⟩]

/-- The 105 absent cells, as R87 lists them (its first rows and its last). -/
def unimplementedLow : List Byte :=
  [0x02, 0x03, 0x04, 0x07, 0x0B, 0x0C, 0x0F, 0x12, 0x13, 0x14, 0x17, 0x1A, 0x1B, 0x1C, 0x1F, 0x22, 0x23, 0x27,
   0x2B, 0x2F, 0x32, 0x33, 0x34, 0x37, 0x3A, 0x3B, 0x3C, 0x3F, 0x42, 0x43, 0x44, 0x47, 0x4B, 0x4F, 0x52, 0x53,
   0x54, 0x57, 0x5A, 0x5B, 0x5C, 0x5F, 0x62, 0x63, 0x64, 0x67, 0x6B, 0x6F, 0x72, 0x73, 0x74, 0x77, 0x7A, 0x7B,
   0x7C, 0x7F]

/-- The rest of R87's list. -/
def unimplementedHigh : List Byte :=
  [0x80, 0x82, 0x83, 0x87, 0x89, 0x8B, 0x8F, 0x92, 0x93, 0x97, 0x9B, 0x9C, 0x9E, 0x9F, 0xA3, 0xA7, 0xAB, 0xAF,
   0xB2, 0xB3, 0xB7, 0xBB, 0xBF, 0xC2, 0xC3, 0xC7, 0xCB, 0xCF, 0xD2, 0xD3, 0xD4, 0xD7, 0xDA, 0xDB, 0xDC, 0xDF,
   0xE2, 0xE3, 0xE7, 0xEB, 0xEF, 0xF2, 0xF3, 0xF4, 0xF7, 0xFA, 0xFB, 0xFC, 0xFF]

/-- R87: the absent opcodes. -/
def unimplemented : List Byte := unimplementedLow ++ unimplementedHigh

/-- A memory mode of the resolver: one that names an address (R69). -/
def memoryModes : List Mode :=
  [.zeroPage, .zeroPageX, .zeroPageY, .absolute, .absoluteX, .absoluteY, .indirect, .indexedIndirect, .indirectIndexed]

/-- The default ADC, binary (R142): the sum mod 256 with its carry. -/
def binarySum (a m : Byte) (c : Bool) : Byte × Bool :=
  (BitVec.ofNat 8 (a.toNat + m.toNat + c.toNat), decide (255 < a.toNat + m.toNat + c.toNat))

/-- Binary SBC (R145): the difference mod 256, and C = 1 iff it is not negative. -/
def binaryDifference (a m : Byte) (c : Bool) : Byte × Bool :=
  (BitVec.ofInt 8 ((a.toNat : Int) - m.toNat - (1 - (c.toNat : Int))),
   decide (0 ≤ (a.toNat : Int) - m.toNat - (1 - (c.toNat : Int))))

/-- The state after ADC or SBC: A, C, V, Z and N written, nothing else (R142, R145). -/
def afterArith (t : State) (rc : Byte × Bool) (o : Bool) : State :=
  { t with A := rc.1, P := cvznP rc.2 o rc.1 t.P }

/-- The same state under other decimal parameters (R147). -/
def withBcd (ta ts : List BcdEntry) (s : State) : State := { s with cfg := { s.cfg with bcdAdc := ta, bcdSbc := ts } }

/-- The same state with one flag of P set as given. -/
def withFlag (f : Flag) (b : Bool) (s : State) : State := { s with P := putFlag f b s.P }

end Sys2Proof.Spec

open Sys2Proof Sys2Proof.Machine Sys2Proof.Spec

/-! ### Encoding -/

/-- R88, R61, R62 (table contents: D17, log 10): bytes written out from the spec's examples decode to the instructions they
stand for. -/
def Obligations.DecodeReadsTheWrittenWords : Prop :=
  decode [0x18] = .code ⟨.clc, []⟩ [] ∧ decode [0x0A] = .code ⟨.aslAcc, []⟩ [] ∧
  decode [0xA9, 0x01] = .code ⟨.ldaImm, [0x01]⟩ [] ∧ decode [0xA5, 0x10] = .code ⟨.ldaZp, [0x10]⟩ [] ∧
  decode [0xB5, 0x10] = .code ⟨.ldaZpX, [0x10]⟩ [] ∧ decode [0xB6, 0x10] = .code ⟨.ldxZpY, [0x10]⟩ [] ∧
  decode [0x4C, 0x34, 0x12] = .code ⟨.jmpAbs, [0x34, 0x12]⟩ [] ∧
  decode [0xBD, 0x34, 0x12] = .code ⟨.ldaAbsX, [0x34, 0x12]⟩ [] ∧
  decode [0xB9, 0x34, 0x12] = .code ⟨.ldaAbsY, [0x34, 0x12]⟩ [] ∧
  decode [0x6C, 0xFF, 0x00] = .code ⟨.jmpInd, [0xFF, 0x00]⟩ [] ∧
  decode [0xA1, 0x20] = .code ⟨.ldaIndX, [0x20]⟩ [] ∧ decode [0xB1, 0x20] = .code ⟨.ldaIndY, [0x20]⟩ [] ∧
  decode [0xD0, 0xF8, 0xEA] = .code ⟨.bne, [0xF8]⟩ [0xEA] ∧ decode [0x20, 0x09] = .truncated ∧
  decode [0x02, 0x00] = .unimplemented 0x02

/-- R62, R63, R87 (D17, log 10): the opcodes without a table entry are exactly the 105 that R87 lists. -/
def Obligations.UnimplementedOpcodesAreTheListed105 : Prop :=
  unimplemented.length = 105 ∧ ∀ op : Byte, decodeOpcode op = none ↔ op ∈ unimplemented

/-- R61, R63, R89: decoding and encoding agree on all bytes. A list of bytes decodes to an instruction with its operand
bytes and a rest exactly when the instruction is well formed and the list is its encoding followed by the rest; so no
encoding bit is dropped and no two instructions share bytes. -/
def Obligations.DecodeAndEncodeAgree : Prop :=
  ∀ (bs : List Byte) (c : Code) (rest : List Byte),
    decode bs = .code c rest ↔ c.wellFormed = true ∧ bs = encode c ++ rest

/-! ### The step -/

/-- R84, R164 (the sticky record is D6, the parameters log 2, the form of a fault log 5): the cycle. A recorded fault is
returned; a fetch out of range is recorded; an absent opcode is recorded with PC = K+1; a present one is executed from the
state after the fetch. -/
def Obligations.StepFollowsTheCycle : Prop :=
  ∀ s : State, s.cfg.ok = true →
    (∀ f, s.faultRecord = some f → step s = .fault f) ∧
    (s.faultRecord = none → s.cfg.memLen ≤ s.PC.toNat →
      step s = .next { s with faultRecord := some (.busRange s.PC) }) ∧
    (s.faultRecord = none → s.PC.toNat < s.cfg.memLen → decodeOpcode (s.busByte s.PC) = none →
      step s = .next { afterFetch s with faultRecord := some (.unimplemented (s.busByte s.PC)) }) ∧
    (∀ i, s.faultRecord = none → s.PC.toNat < s.cfg.memLen → decodeOpcode (s.busByte s.PC) = some i →
      step s = exec i (afterFetch s))

/-- R84, R61 (log 12): when the bytes at PC decode to an instruction, the step is that instruction's execution from the
state after the opcode fetch; it fetches the opcode first, and then the operand bytes as decoded. JSR alone fetches its
two operand bytes after its pushes of K+3 (D24, log 20): they are what memory then holds (R135, R191). -/
def Obligations.StepRunsTheDecodedInstruction : Prop :=
  ∀ (s u : State) (c : Code) (rest : List Byte), s.FullMemory → s.NoDevices → s.faultRecord = none →
    decode [byteAt s s.PC, byteAt s (s.PC + 1), byteAt s (s.PC + 2)] = .code c rest →
    u = afterPush (afterPush (afterFetch s) (BitVec.ofNat 8 ((s.PC.toNat + 3) % 65536 / 256)))
      (BitVec.ofNat 8 ((s.PC.toNat + 3) % 65536 % 256)) →
    c.wellFormed = true ∧ step s = exec c.instr (afterFetch s) ∧
      ∃ (t : State) (new : List BusEvent), step s = .next t ∧ t.bus = new.reverse ++ s.bus ∧
        new[0]? = some (.read s.PC (byteAt s s.PC)) ∧
        (c.instr ≠ .jsr → ∀ k v, c.operands[k]? = some v →
          new[k + 1]? = some (.read (BitVec.ofNat 16 (s.PC.toNat + 1 + k)) v)) ∧
        (c.instr = .jsr → ∀ k, k < 2 →
          new[k + 3]? = some (.read (BitVec.ofNat 16 (s.PC.toNat + 1 + k)) (byteAt u (BitVec.ofNat 16 (s.PC.toNat + 1 + k)))))

/-- R85, which the spec derives from R60 and R84 (a recorded fault as a next state: log 5; which opcodes are absent, R87: D17,
log 10): after an absent opcode PC is K+1 and no other register, flag or memory cell has changed. -/
def Obligations.UnimplementedOpcodeChangesOnlyPc : Prop :=
  ∀ s : State, s.cfg.ok = true → s.faultRecord = none → s.PC.toNat < s.cfg.memLen →
    s.busByte s.PC ∈ unimplemented →
    ∃ t, step s = .next t ∧ t.faultRecord = some (.unimplemented (s.busByte s.PC)) ∧
      t.PC = BitVec.ofNat 16 (s.PC.toNat + 1) ∧ t.A = s.A ∧ t.X = s.X ∧ t.Y = s.Y ∧ t.S = s.S ∧ t.P = s.P ∧ t.mem = s.mem

/-- R164, R184, R181, R187 (D6, log 5): a recorded fault is returned by every later step, which changes nothing; every host
write keeps it; and `reset()` clears it. -/
def Obligations.RecordedFaultIsSticky : Prop :=
  ∀ (s : State) (f : Fault), s.cfg.ok = true → s.faultRecord = some f →
    step s = .fault f ∧ hostStep s = .fault f s ∧
    (∀ n, s.PC.toNat < s.cfg.memLen → run (n + 1) s = .fault f s) ∧
    (∀ (r : Reg) (v : Nat), (hostWriteReg r v s).faultRecord = some f) ∧
    (∀ v : Nat, (hostWritePC v s).faultRecord = some f ∧ (hostWriteP v s).faultRecord = some f) ∧
    (∀ (a : Addr) (v : Byte), (hostWriteMem a v s).faultRecord = some f) ∧
    (s.FullMemory → ∃ t, hostReset s = .ok t ∧ t.faultRecord = none)

/-- R6, spec/93_implementation_defined.md row 5 (log 7): a MEM_LEN outside 1 to 65536 is refused by construct, reset and
step. -/
def Obligations.BadConfigurationIsRefused : Prop :=
  ∀ s : State, (s.cfg.memLen = 0 ∨ 65536 < s.cfg.memLen) →
    step s = .refused .badConfig ∧ hostReset s = .refused .badConfig ∧ ∀ m0, construct s.cfg m0 = .refused .badConfig

/-! ### P, the Bus, the stack -/

/-- R26, R27, R30: a flag is its bit of P; writing a flag changes only its bit; SetZN writes Z and N from the byte and no
other bit. -/
def Obligations.FlagsAreBitsOfP : Prop :=
  (∀ p : Byte, getFlag .C p = p.getLsbD 0 ∧ getFlag .Z p = p.getLsbD 1 ∧ getFlag .I p = p.getLsbD 2 ∧
    getFlag .D p = p.getLsbD 3 ∧ getFlag .B p = p.getLsbD 4 ∧ getFlag .U p = p.getLsbD 5 ∧ getFlag .V p = p.getLsbD 6 ∧
    getFlag .N p = p.getLsbD 7) ∧
  (∀ (f : Flag) (b : Bool) (p : Byte), getFlag f (putFlag f b p) = b ∧
    ∀ g, g ≠ f → getFlag g (putFlag f b p) = getFlag g p) ∧
  (∀ (v : Nat) (s : State), (hostWriteP v s).P.toNat = v % 256) ∧
  ∀ v p : Byte, setZN v p = znP v p

/-- R60: a fetch reads the byte at PC and advances PC mod 65536; if the read faults PC is not advanced. -/
def Obligations.FetchReadsAtPcAndAdvances : Prop :=
  ∀ s : State,
    (s.PC.toNat < s.cfg.memLen → fetch s = .ok (s.busByte s.PC) (afterFetch s)) ∧
    (s.cfg.memLen ≤ s.PC.toNat → fetch s = .error (.busRange s.PC) s) ∧
    (s.PC = 0xFFFF → (afterFetch s).PC = 0x0000)

/-- R49: a push writes at 0x0100 + S, then decrements S mod 256; if the write faults S is not decremented. -/
def Obligations.PushWritesThenDecrements : Prop :=
  ∀ (s : State) (v : Byte),
    ((cell s.S).toNat < s.cfg.memLen → push v s = .ok () (afterPush s v)) ∧
    (s.cfg.memLen ≤ (cell s.S).toNat → push v s = .error (.busRange (cell s.S)) s)

/-- R50: a pop increments S mod 256, then reads at 0x0100 + S; if the read faults S stays incremented. -/
def Obligations.PopIncrementsThenReads : Prop :=
  ∀ s : State,
    ((cell (poppedS s)).toNat < s.cfg.memLen → pop s = .ok (popByte s) (afterPop s)) ∧
    (s.cfg.memLen ≤ (cell (poppedS s)).toNat →
      pop s = .error (.busRange (cell (poppedS s))) { s with S := poppedS s })

/-- R41, R42, R53 (MEM_LEN and the draw are D2, D3, log 2, log 4): a Bus operation out of range raises BusRange and does
nothing; in range it is recorded, a read outside IO_REGION returns the last byte written there or the launch byte, and a
write changes its own cell alone. -/
def Obligations.BusReadsReturnTheLastWrite : Prop :=
  ∀ (s : State) (a : Addr) (v : Byte),
    (s.cfg.memLen ≤ a.toNat → memRead a s = .error (.busRange a) s ∧ memWrite a v s = .error (.busRange a) s) ∧
    (a.toNat < s.cfg.memLen →
      memRead a s = .ok (if a ∈ s.cfg.ioRegion then Config.drawIo s.bus a else byteAt s a) (afterRead s a) ∧
      ∃ t, memWrite a v s = .ok () t ∧ t.bus = .write a v :: s.bus ∧ t.cfg = s.cfg ∧
        (∀ b : Nat, b ≠ a.toNat → t.memByte b = s.memByte b) ∧
        (a ∉ s.cfg.ioRegion → memRead a t = .ok v (afterRead t a)) ∧
        (a ∈ s.cfg.ioRegion → t.mem = s.mem))

/-! ### The addressing resolver -/

/-- R71, R72: ZeroPage is the operand byte zero-extended; ZeroPage,X and ZeroPage,Y add the index mod 256 and stay in
page 0. -/
def Obligations.ZeroPageModesStayInPageZero : Prop :=
  ∀ s : State, s.PC.toNat < s.cfg.memLen →
    getAddr .zeroPage s = .ok (BitVec.ofNat 16 (s.busByte s.PC).toNat) (afterFetch s) ∧
    getAddr .zeroPageX s = .ok (BitVec.ofNat 16 (((s.busByte s.PC).toNat + s.X.toNat) % 256)) (afterFetch s) ∧
    getAddr .zeroPageY s = .ok (BitVec.ofNat 16 (((s.busByte s.PC).toNat + s.Y.toNat) % 256)) (afterFetch s)

/-- R74, R75: Absolute fetches low then high; Absolute,X and Absolute,Y add the index mod 65536. -/
def Obligations.AbsoluteModesAddMod65536 : Prop :=
  ∀ (s t : State) (lo hi : Byte), s.PC.toNat < s.cfg.memLen → lo = s.busByte s.PC → t = afterFetch s →
    t.PC.toNat < s.cfg.memLen → hi = t.busByte t.PC →
    getAddr .absolute s = .ok (BitVec.ofNat 16 (hi.toNat * 256 + lo.toNat)) (afterFetch t) ∧
    getAddr .absoluteX s = .ok (BitVec.ofNat 16 (hi.toNat * 256 + lo.toNat + s.X.toNat)) (afterFetch t) ∧
    getAddr .absoluteY s = .ok (BitVec.ofNat 16 (hi.toNat * 256 + lo.toNat + s.Y.toNat)) (afterFetch t)

/-- R77: Indirect reads the target's low byte at the pointer and its high byte at the pointer with the low byte incremented
mod 256 and the high byte unchanged. -/
def Obligations.IndirectHasThePageBug : Prop :=
  ∀ (s t u : State) (plo phi : Byte) (p q : Addr), s.PC.toNat < s.cfg.memLen → plo = s.busByte s.PC → t = afterFetch s →
    t.PC.toNat < s.cfg.memLen → phi = t.busByte t.PC → u = afterFetch t →
    p = BitVec.ofNat 16 (phi.toNat * 256 + plo.toNat) → p.toNat < s.cfg.memLen →
    q = BitVec.ofNat 16 (phi.toNat * 256 + (plo.toNat + 1) % 256) → q.toNat < s.cfg.memLen →
    getAddr .indirect s = .ok (word ((afterRead u p).busByte q) (u.busByte p)) (afterRead (afterRead u p) q)

/-- R79, R80: the zero-page pointers. (zp,X) adds X mod 256 to the pointer, (zp),Y adds Y mod 65536 to the base; both read
the pointer's second byte one above the first, mod 256. -/
def Obligations.ZeroPagePointersWrap : Prop :=
  ∀ (s t : State) (b : Byte) (p q : Addr), s.PC.toNat < s.cfg.memLen → b = s.busByte s.PC → t = afterFetch s →
    p.toNat < s.cfg.memLen → q.toNat < s.cfg.memLen →
    (p = BitVec.ofNat 16 ((b.toNat + s.X.toNat) % 256) → q = BitVec.ofNat 16 ((b.toNat + s.X.toNat + 1) % 256) →
      getAddr .indexedIndirect s = .ok (word ((afterRead t p).busByte q) (t.busByte p)) (afterRead (afterRead t p) q)) ∧
    (p = BitVec.ofNat 16 b.toNat → q = BitVec.ofNat 16 ((b.toNat + 1) % 256) →
      getAddr .indirectIndexed s =
        .ok (BitVec.ofNat 16 (((afterRead t p).busByte q).toNat * 256 + (t.busByte p).toNat + s.Y.toNat))
          (afterRead (afterRead t p) q))

/-- R68, R69, R70, R73, R161 (that GetAddr refuses Relative is D27, log 16): GetData fetches for Immediate and Relative,
reads at GetAddr's address for the nine memory modes, and both entry points refuse the modes they cannot serve, changing
nothing. -/
def Obligations.GetDataReadsAtTheAddress : Prop :=
  ∀ s : State,
    getData .immediate s = fetch s ∧ getData .relative s = fetch s ∧
    (∀ m ∈ memoryModes,
      (∀ ea t, getAddr m s = .ok ea t → getData m s = memRead ea t) ∧
      (∀ f t, getAddr m s = .error f t → getData m s = .error f t)) ∧
    (∀ m ∈ [Mode.implied, Mode.accumulator], getData m s = .error (.unsupportedMode m) s) ∧
    (∀ m ∈ [Mode.implied, Mode.accumulator, Mode.immediate, Mode.relative],
      getAddr m s = .error (.unsupportedMode m) s)

/-- R24, R25, R76, R13, R162: resolving an operand advances PC by the mode's operand bytes, adds Bus reads to the record and
changes nothing else; with a full memory it always succeeds, for every mode the entry point serves. Where it faults, PC is
past the bytes already fetched, the reads made are on the record and nothing else has changed (`StopsAt`). -/
def Obligations.ResolverChangesOnlyPcAndBus : Prop :=
  ∀ (s : State) (m : Mode),
    (∀ ea t, getAddr m s = .ok ea t → ∃ reads : List (Addr × Byte),
      t = { s with PC := BitVec.ofNat 16 (s.PC.toNat + m.operandBytes),
                   bus := (reads.map fun e => BusEvent.read e.1 e.2) ++ s.bus }) ∧
    (∀ v t, getData m s = .ok v t → ∃ reads : List (Addr × Byte),
      t = { s with PC := BitVec.ofNat 16 (s.PC.toNat + m.operandBytes),
                   bus := (reads.map fun e => BusEvent.read e.1 e.2) ++ s.bus }) ∧
    (s.FullMemory → m ∈ memoryModes → ∃ ea t, getAddr m s = .ok ea t) ∧
    (s.FullMemory → m ∈ memoryModes ++ [.immediate, .relative] → ∃ v t, getData m s = .ok v t) ∧
    (∀ f t, m ∈ memoryModes → getAddr m s = .error f t → StopsAt m.operandBytes s f t) ∧
    (∀ f t, m ∈ memoryModes ++ [.immediate, .relative] → getData m s = .error f t → StopsAt m.operandBytes s f t)

/-! ### Instructions -/

/-- R90, R91, R92 (opcodes: D17, log 10): LDA, LDX and LDY in every mode: the register takes the operand, Z and N follow it,
nothing else of P changes. -/
def Obligations.LoadsTakeTheOperand : Prop :=
  (∀ r ∈ ldaRows, ReadClass r fun v t => { t with A := v, P := znP v t.P }) ∧
  (∀ r ∈ ldxRows, ReadClass r fun v t => { t with X := v, P := znP v t.P }) ∧
  (∀ r ∈ ldyRows, ReadClass r fun v t => { t with Y := v, P := znP v t.P })

/-- R93, R94, R95 (opcodes: D17, log 10): STA, STX and STY in every mode: the register is written at the effective address,
which is not read, and no flag changes. -/
def Obligations.StoresWriteTheRegister : Prop :=
  (∀ r ∈ staRows, WriteClass r State.A) ∧ (∀ r ∈ stxRows, WriteClass r State.X) ∧ (∀ r ∈ styRows, WriteClass r State.Y)

/-- R96 to R101 (opcodes: D17, log 10): the transfers copy and set Z and N from the destination, but TXS changes no flag. -/
def Obligations.TransfersCopyRegisters : Prop :=
  RegisterOnly ⟨.tax, .implied, 0xAA⟩ (fun s => { s with X := s.A, P := znP s.A s.P }) ∧
  RegisterOnly ⟨.tay, .implied, 0xA8⟩ (fun s => { s with Y := s.A, P := znP s.A s.P }) ∧
  RegisterOnly ⟨.txa, .implied, 0x8A⟩ (fun s => { s with A := s.X, P := znP s.X s.P }) ∧
  RegisterOnly ⟨.tya, .implied, 0x98⟩ (fun s => { s with A := s.Y, P := znP s.Y s.P }) ∧
  RegisterOnly ⟨.tsx, .implied, 0xBA⟩ (fun s => { s with X := s.S, P := znP s.S s.P }) ∧
  RegisterOnly ⟨.txs, .implied, 0x9A⟩ (fun s => { s with S := s.X })

/-- R102 to R108 (opcodes: D17, log 10): each flag instruction writes exactly its flag. Which flag each names is the spec's
general knowledge (D18, log 11). -/
def Obligations.FlagInstructionsWriteOneFlag : Prop :=
  ∀ e ∈ [((⟨.clc, .implied, 0x18⟩ : Row), Flag.C, false), (⟨.cld, .implied, 0xD8⟩, .D, false),
      (⟨.cli, .implied, 0x58⟩, .I, false), (⟨.clv, .implied, 0xB8⟩, .V, false), (⟨.sec, .implied, 0x38⟩, .C, true),
      (⟨.sed, .implied, 0xF8⟩, .D, true), (⟨.sei, .implied, 0x78⟩, .I, true)],
    RegisterOnly e.1 fun s =>
      { s with P := packP fun f => if f = e.2.1 then e.2.2 else getFlag f s.P }

/-- R109 to R114 (opcodes: D17, log 10): INC and DEC on memory (one read, one write of the value ± 1 mod 256, Z and N from
it) and INX, INY, DEX, DEY. -/
def Obligations.IncrementsAndDecrements : Prop :=
  (∀ r ∈ incRows, ModifyClass r (fun _ v => BitVec.ofNat 8 (v.toNat + 1))
    (fun s v => znP (BitVec.ofNat 8 (v.toNat + 1)) s.P)) ∧
  (∀ r ∈ decRows, ModifyClass r (fun _ v => BitVec.ofInt 8 ((v.toNat : Int) - 1))
    (fun s v => znP (BitVec.ofInt 8 ((v.toNat : Int) - 1)) s.P)) ∧
  RegisterOnly ⟨.inx, .implied, 0xE8⟩ (fun s =>
    { s with X := BitVec.ofNat 8 (s.X.toNat + 1), P := znP (BitVec.ofNat 8 (s.X.toNat + 1)) s.P }) ∧
  RegisterOnly ⟨.iny, .implied, 0xC8⟩ (fun s =>
    { s with Y := BitVec.ofNat 8 (s.Y.toNat + 1), P := znP (BitVec.ofNat 8 (s.Y.toNat + 1)) s.P }) ∧
  RegisterOnly ⟨.dex, .implied, 0xCA⟩ (fun s =>
    { s with X := BitVec.ofInt 8 ((s.X.toNat : Int) - 1), P := znP (BitVec.ofInt 8 ((s.X.toNat : Int) - 1)) s.P }) ∧
  RegisterOnly ⟨.dey, .implied, 0x88⟩ (fun s =>
    { s with Y := BitVec.ofInt 8 ((s.Y.toNat : Int) - 1), P := znP (BitVec.ofInt 8 ((s.Y.toNat : Int) - 1)) s.P })

/-- R115, R116, R117 (opcodes: D17, log 10): a compare writes C from the unsigned comparison and Z and N from the difference
mod 256, and no register; V and D are unchanged. -/
def Obligations.ComparesSetCarryZeroNegative : Prop :=
  (∀ r ∈ cmpRows, ReadClass r fun v t =>
    { t with P := cznP (decide (v.toNat ≤ t.A.toNat)) (BitVec.ofInt 8 ((t.A.toNat : Int) - v.toNat)) t.P }) ∧
  (∀ r ∈ cpxRows, ReadClass r fun v t =>
    { t with P := cznP (decide (v.toNat ≤ t.X.toNat)) (BitVec.ofInt 8 ((t.X.toNat : Int) - v.toNat)) t.P }) ∧
  (∀ r ∈ cpyRows, ReadClass r fun v t =>
    { t with P := cznP (decide (v.toNat ≤ t.Y.toNat)) (BitVec.ofInt 8 ((t.Y.toNat : Int) - v.toNat)) t.P })

/-- R118, R119, R120 (opcodes: D17, log 10): AND, ORA and EOR combine A with the operand bit by bit and set Z and N from the
result. -/
def Obligations.LogicalCombinesBits : Prop :=
  (∀ r ∈ andRows, ReadClass r fun v t => { t with A := t.A &&& v, P := znP (t.A &&& v) t.P }) ∧
  (∀ r ∈ oraRows, ReadClass r fun v t => { t with A := t.A ||| v, P := znP (t.A ||| v) t.P }) ∧
  (∀ r ∈ eorRows, ReadClass r fun v t => { t with A := t.A ^^^ v, P := znP (t.A ^^^ v) t.P })

/-- R121 to R124 (opcodes: D17, log 10): ASL, LSR, ROL and ROR on A (no Bus operation) and on memory (one read, one write):
the shifted value, C the bit shifted out, Z and N from the result, V unchanged. -/
def Obligations.ShiftsAndRotatesMoveBits : Prop :=
  RegisterOnly ⟨.aslAcc, .accumulator, 0x0A⟩ (fun s =>
    { s with A := BitVec.ofNat 8 (s.A.toNat * 2),
             P := cznP (decide (128 ≤ s.A.toNat)) (BitVec.ofNat 8 (s.A.toNat * 2)) s.P }) ∧
  RegisterOnly ⟨.lsrAcc, .accumulator, 0x4A⟩ (fun s =>
    { s with A := BitVec.ofNat 8 (s.A.toNat / 2),
             P := cznP (decide (s.A.toNat % 2 = 1)) (BitVec.ofNat 8 (s.A.toNat / 2)) s.P }) ∧
  RegisterOnly ⟨.rolAcc, .accumulator, 0x2A⟩ (fun s =>
    { s with A := BitVec.ofNat 8 (s.A.toNat * 2 + (getFlag .C s.P).toNat),
             P := cznP (decide (128 ≤ s.A.toNat)) (BitVec.ofNat 8 (s.A.toNat * 2 + (getFlag .C s.P).toNat)) s.P }) ∧
  RegisterOnly ⟨.rorAcc, .accumulator, 0x6A⟩ (fun s =>
    { s with A := BitVec.ofNat 8 (s.A.toNat / 2 + 128 * (getFlag .C s.P).toNat),
             P := cznP (decide (s.A.toNat % 2 = 1)) (BitVec.ofNat 8 (s.A.toNat / 2 + 128 * (getFlag .C s.P).toNat)) s.P }) ∧
  (∀ r ∈ aslMemRows, ModifyClass r (fun _ v => BitVec.ofNat 8 (v.toNat * 2))
    (fun s v => cznP (decide (128 ≤ v.toNat)) (BitVec.ofNat 8 (v.toNat * 2)) s.P)) ∧
  (∀ r ∈ lsrMemRows, ModifyClass r (fun _ v => BitVec.ofNat 8 (v.toNat / 2))
    (fun s v => cznP (decide (v.toNat % 2 = 1)) (BitVec.ofNat 8 (v.toNat / 2)) s.P)) ∧
  (∀ r ∈ rolMemRows, ModifyClass r (fun s v => BitVec.ofNat 8 (v.toNat * 2 + (getFlag .C s.P).toNat))
    (fun s v => cznP (decide (128 ≤ v.toNat)) (BitVec.ofNat 8 (v.toNat * 2 + (getFlag .C s.P).toNat)) s.P)) ∧
  (∀ r ∈ rorMemRows, ModifyClass r (fun s v => BitVec.ofNat 8 (v.toNat / 2 + 128 * (getFlag .C s.P).toNat))
    (fun s v => cznP (decide (v.toNat % 2 = 1)) (BitVec.ofNat 8 (v.toNat / 2 + 128 * (getFlag .C s.P).toNat)) s.P))

/-- R125 to R133 (opcodes: D17, log 10): a branch fetches its offset whether or not it is taken; if its flag has its value PC
moves by the signed offset mod 65536 from K+2, else PC is K+2; no flag changes; an offset out of range records BusRange.
Which flag and value each tests is the spec's general knowledge (D18, log 11). -/
def Obligations.BranchesMoveByTheSignedOffset : Prop :=
  ∀ e ∈ [((⟨.beq, .relative, 0xF0⟩ : Row), Flag.Z, true), (⟨.bne, .relative, 0xD0⟩, .Z, false),
      (⟨.bmi, .relative, 0x30⟩, .N, true), (⟨.bpl, .relative, 0x10⟩, .N, false), (⟨.bcs, .relative, 0xB0⟩, .C, true),
      (⟨.bcc, .relative, 0x90⟩, .C, false), (⟨.bvc, .relative, 0x50⟩, .V, false), (⟨.bvs, .relative, 0x70⟩, .V, true)],
    e.1.Encoded ∧ ∀ s : State,
      (s.PC.toNat < s.cfg.memLen →
        exec e.1.i s = .next { afterFetch s with
          PC := if getFlag e.2.1 s.P = e.2.2 then
              BitVec.ofInt 16 (((s.PC.toNat + 1 : Nat) : Int) +
                (if (s.busByte s.PC).toNat < 128 then ((s.busByte s.PC).toNat : Int) else (s.busByte s.PC).toNat - 256))
            else BitVec.ofNat 16 (s.PC.toNat + 1) }) ∧
      (s.cfg.memLen ≤ s.PC.toNat → exec e.1.i s = .next { s with faultRecord := some (.busRange s.PC) })

/-- R134 (opcodes: D17, log 10): JMP moves PC to the effective address, Absolute or Indirect. -/
def Obligations.JumpGoesToTheAddress : Prop :=
  ∀ r ∈ jmpRows, r.Encoded ∧ ∀ s : State,
    (s.FullMemory → ∃ ea t, getAddr r.m s = .ok ea t ∧ exec r.i s = .next { t with PC := ea }) ∧
    (∀ ea t, getAddr r.m s = .ok ea t → exec r.i s = .next { t with PC := ea }) ∧
    (∀ f t, getAddr r.m s = .error f t → OutOfRange s f ∧ exec r.i s = .next { t with faultRecord := some f })

/-- R135, R56, R164, R191 (K+3: D24, log 20; opcode: D17, log 10): JSR pushes K+3 high then low, and then fetches its
target from what memory holds after the pushes. Out of range it records BusRange where it stopped: at the first or second
push, or at an operand byte, with the pushes before it made and S moved. -/
def Obligations.JsrPushesThenFetchesTheTarget : Prop :=
  decodeOpcode 0x20 = some .jsr ∧ ∀ (s t1 t2 t3 t4 : State) (ret : Nat),
    ret = (s.PC.toNat + 2) % 65536 → t1 = afterPush s (BitVec.ofNat 8 (ret / 256)) →
    t2 = afterPush t1 (BitVec.ofNat 8 (ret % 256)) → t3 = afterFetch t2 → t4 = afterFetch t3 →
    (s.FullMemory → exec .jsr s = .next { t4 with PC := word (t3.busByte t3.PC) (t2.busByte t2.PC) }) ∧
    (s.cfg.memLen ≤ (cell s.S).toNat → exec .jsr s = .next { s with faultRecord := some (.busRange (cell s.S)) }) ∧
    ((cell s.S).toNat < s.cfg.memLen →
      (s.cfg.memLen ≤ (cell t1.S).toNat → exec .jsr s = .next { t1 with faultRecord := some (.busRange (cell t1.S)) }) ∧
      ((cell t1.S).toNat < s.cfg.memLen →
        (s.cfg.memLen ≤ s.PC.toNat → exec .jsr s = .next { t2 with faultRecord := some (.busRange s.PC) }) ∧
        (s.PC.toNat < s.cfg.memLen →
          (s.cfg.memLen ≤ t3.PC.toNat → exec .jsr s = .next { t3 with faultRecord := some (.busRange t3.PC) }) ∧
          (t3.PC.toNat < s.cfg.memLen →
            exec .jsr s = .next { t4 with PC := word (t3.busByte t3.PC) (t2.busByte t2.PC) }))))

/-- R136 (no increment: D24, log 20; opcode: D17, log 10): RTS pops low then high and goes there. Out of range it records
BusRange where it stopped. -/
def Obligations.RtsPopsThePc : Prop :=
  decodeOpcode 0x60 = some .rts ∧ ∀ (s t u : State), t = afterPop s → u = afterPop t →
    ((cell (poppedS s)).toNat < s.cfg.memLen → (cell (poppedS t)).toNat < s.cfg.memLen →
      exec .rts s = .next { u with PC := word (popByte t) (popByte s) }) ∧
    (s.cfg.memLen ≤ (cell (poppedS s)).toNat →
      exec .rts s = .next { s with S := poppedS s, faultRecord := some (.busRange (cell (poppedS s))) }) ∧
    ((cell (poppedS s)).toNat < s.cfg.memLen → s.cfg.memLen ≤ (cell (poppedS t)).toNat →
      exec .rts s = .next { t with S := poppedS t, faultRecord := some (.busRange (cell (poppedS t))) })

/-- R137, R138 (opcodes: D17, log 10): PHA pushes A with no flag effect; PLA pulls A and sets Z and N from it. Out of range
they record BusRange. -/
def Obligations.PhaAndPla : Prop :=
  decodeOpcode 0x48 = some .pha ∧ decodeOpcode 0x68 = some .pla ∧ ∀ s : State,
    ((cell s.S).toNat < s.cfg.memLen → exec .pha s = .next (afterPush s s.A)) ∧
    (s.cfg.memLen ≤ (cell s.S).toNat → exec .pha s = .next { s with faultRecord := some (.busRange (cell s.S)) }) ∧
    ((cell (poppedS s)).toNat < s.cfg.memLen →
      exec .pla s = .next { afterPop s with A := popByte s, P := znP (popByte s) s.P }) ∧
    (s.cfg.memLen ≤ (cell (poppedS s)).toNat →
      exec .pla s = .next { s with S := poppedS s, faultRecord := some (.busRange (cell (poppedS s))) })

/-- R139, R140, R28, R29 (opcodes: D17, log 10; the mask 0x18 is kept by D23, bit 5 as stored by D25, log 8, log 20): PHP
pushes P with bits 3 and 4 set and leaves the live P; PLP restores P with bits 3 and 4 cleared. Out of range they record
BusRange. -/
def Obligations.PhpAndPlp : Prop :=
  decodeOpcode 0x08 = some .php ∧ decodeOpcode 0x28 = some .plp ∧ ∀ s : State,
    ((cell s.S).toNat < s.cfg.memLen → exec .php s = .next (afterPush s (pushByte s.P))) ∧
    (s.cfg.memLen ≤ (cell s.S).toNat → exec .php s = .next { s with faultRecord := some (.busRange (cell s.S)) }) ∧
    ((cell (poppedS s)).toNat < s.cfg.memLen →
      exec .plp s = .next { afterPop s with P := restoreByte (popByte s) }) ∧
    (s.cfg.memLen ≤ (cell (poppedS s)).toNat →
      exec .plp s = .next { s with S := poppedS s, faultRecord := some (.busRange (cell (poppedS s))) })

/-- R141 (opcodes: D17, log 10; one read of the operand: D12, log 14): BIT sets N and V from bits 7 and 6 of the operand and Z
from A & M; A, C, D and I are unchanged. -/
def Obligations.BitTestsTheOperand : Prop :=
  ∀ r ∈ bitRows, ReadClass r fun v t =>
    { t with P := packP fun f => match f with
        | .N => v.getLsbD 7
        | .V => v.getLsbD 6
        | .Z => decide ((t.A &&& v).toNat = 0)
        | f => getFlag f t.P }

/-- R142, R144 (opcodes: D17, log 10; the decimal V is D16, log 15; the decimal sum is the parameter BCD_ADC, D14, log 3): ADC
in every mode. A and C are the binary sum, or BCD_ADC's when D is 1; V is the signed overflow of the binary sum in both
modes; Z and N follow the result. -/
def Obligations.AdcAddsWithCarry : Prop :=
  ∀ r ∈ adcRows, ReadClass r fun v t =>
    afterArith t
      (if getFlag .D t.P then bcdAdc t.cfg.bcdAdc t.A v (getFlag .C t.P) else binarySum t.A v (getFlag .C t.P))
      (signedAddOverflow t.A v (getFlag .C t.P))

/-- R145, R144 (opcodes: D17, log 10; V from ~M is D13, the decimal V D16, log 15; BCD_SBC is D15, log 3): SBC in every mode.
A and C are the binary difference, or BCD_SBC's when D is 1; V is the signed overflow of the binary difference in both
modes; Z and N follow the result. -/
def Obligations.SbcSubtractsWithBorrow : Prop :=
  ∀ r ∈ sbcRows, ReadClass r fun v t =>
    afterArith t
      (if getFlag .D t.P then bcdSbc t.cfg.bcdSbc t.A v (getFlag .C t.P) else binaryDifference t.A v (getFlag .C t.P))
      (signedSubOverflow t.A v (getFlag .C t.P))

/-- R143, R146 (the defaults are the spec's choice, D14, D15, log 3): on valid decimal digits the default BCD_ADC is the
decimal sum mod 100 with its carry, and the default BCD_SBC the decimal difference mod 100 with C = 1 iff it is not
negative. -/
def Obligations.DefaultDecimalIsExactOnValidDigits : Prop :=
  ∀ (a m : Byte) (c : Bool), ValidBcd a → ValidBcd m →
    (ValidBcd (bcdAdc [] a m c).1 ∧
      bcdValue (bcdAdc [] a m c).1 = (bcdValue a + bcdValue m + c.toNat) % 100 ∧
      ((bcdAdc [] a m c).2 = true ↔ 100 ≤ bcdValue a + bcdValue m + c.toNat)) ∧
    (ValidBcd (bcdSbc [] a m c).1 ∧
      ((bcdValue (bcdSbc [] a m c).1 : Nat) : Int) = ((bcdValue a : Int) - bcdValue m - (1 - (c.toNat : Int))) % 100 ∧
      ((bcdSbc [] a m c).2 = true ↔ 0 ≤ (bcdValue a : Int) - bcdValue m - (1 - (c.toNat : Int))))

/-- R147 (how the parameters are carried: log 3): with D = 0 no instruction depends on BCD_ADC or BCD_SBC. -/
def Obligations.BinaryModeIgnoresTheDecimalParameters : Prop :=
  ∀ (i : Instr) (s t : State) (ta ts : List BcdEntry), getFlag .D s.P = false → exec i s = .next t →
    exec i (withBcd ta ts s) = .next (withBcd ta ts t)

/-- R150, R166, R164 (opcode: D17, log 10; I unchanged: D7, log 13; the mask: D23, log 20): BRK pushes K+2 high then low, then
P with bits 3 and 4 set, and goes to the word at 0xFFFE/0xFFFF, low byte first; the live P is unchanged. Out of range it
records BusRange where it stopped: at a push, with S below the pushes made, or at a vector byte; PC is K+1 then. -/
def Obligations.BrkEntersThroughTheVector : Prop :=
  decodeOpcode 0x00 = some .brk ∧ ∀ (s t1 t2 t3 t4 : State) (ret : Nat),
    ret = (s.PC.toNat + 1) % 65536 → t1 = afterPush s (BitVec.ofNat 8 (ret / 256)) →
    t2 = afterPush t1 (BitVec.ofNat 8 (ret % 256)) → t3 = afterPush t2 (pushByte s.P) → t4 = afterRead t3 0xFFFE →
    (s.FullMemory → exec .brk s = .next { afterRead t4 0xFFFF with PC := word (t4.busByte 0xFFFF) (t3.busByte 0xFFFE) }) ∧
    (s.cfg.memLen ≤ (cell s.S).toNat → exec .brk s = .next { s with faultRecord := some (.busRange (cell s.S)) }) ∧
    ((cell s.S).toNat < s.cfg.memLen →
      (s.cfg.memLen ≤ (cell t1.S).toNat → exec .brk s = .next { t1 with faultRecord := some (.busRange (cell t1.S)) }) ∧
      ((cell t1.S).toNat < s.cfg.memLen →
        (s.cfg.memLen ≤ (cell t2.S).toNat → exec .brk s = .next { t2 with faultRecord := some (.busRange (cell t2.S)) }) ∧
        ((cell t2.S).toNat < s.cfg.memLen →
          (s.cfg.memLen ≤ 0xFFFE → exec .brk s = .next { t3 with faultRecord := some (.busRange 0xFFFE) }) ∧
          (s.cfg.memLen = 0xFFFF → exec .brk s = .next { t4 with faultRecord := some (.busRange 0xFFFF) }))))

/-- R151, R167 (the mask: D23, bit 5: D25, log 8, log 20; opcode: D17, log 10): RTI restores P with bits 3 and 4 cleared,
then PC low byte first, with no increment. Out of range it records BusRange where it stopped: P is already restored if only
the PC bytes fault. -/
def Obligations.RtiRestoresStatusAndPc : Prop :=
  decodeOpcode 0x40 = some .rti ∧ ∀ (s t u w : State), t = afterPop s → u = afterPop t → w = afterPop u →
    ((cell (poppedS s)).toNat < s.cfg.memLen → (cell (poppedS t)).toNat < s.cfg.memLen →
      (cell (poppedS u)).toNat < s.cfg.memLen →
      exec .rti s = .next { w with P := restoreByte (popByte s), PC := word (popByte u) (popByte t) }) ∧
    (s.cfg.memLen ≤ (cell (poppedS s)).toNat →
      exec .rti s = .next { s with S := poppedS s, faultRecord := some (.busRange (cell (poppedS s))) }) ∧
    ((cell (poppedS s)).toNat < s.cfg.memLen → s.cfg.memLen ≤ (cell (poppedS t)).toNat →
      exec .rti s = .next { t with P := restoreByte (popByte s), S := poppedS t,
                                   faultRecord := some (.busRange (cell (poppedS t))) }) ∧
    ((cell (poppedS s)).toNat < s.cfg.memLen → (cell (poppedS t)).toNat < s.cfg.memLen →
      s.cfg.memLen ≤ (cell (poppedS u)).toNat →
      exec .rti s = .next { u with P := restoreByte (popByte s), S := poppedS u,
                                   faultRecord := some (.busRange (cell (poppedS u))) })

/-- R152 (opcode: D17, log 10): NOP has no effect beyond the opcode fetch. -/
def Obligations.NopChangesNothing : Prop := RegisterOnly ⟨.nop, .implied, 0xEA⟩ fun s => s

/-! ### What an instruction leaves unchanged -/

/-- R22, R23, R21: a register keeps its value across every instruction that R22 and R23 do not name as its writer; the
parameters never change. -/
def Obligations.OnlyNamedInstructionsWriteARegister : Prop :=
  ∀ (i : Instr) (s t : State), exec i s = .next t →
    (∀ r, writesReg r i = false → t.getReg r = s.getReg r) ∧ t.cfg = s.cfg

/-- R31: a flag keeps its value across every instruction that R31 does not name as its writer, and PLP and RTI are the only
others that write P. -/
def Obligations.OnlyNamedInstructionsWriteAFlag : Prop :=
  ∀ (i : Instr) (s t : State), exec i s = .next t → restoresP i = false →
    ∀ f, writesFlag f i = false → getFlag f t.P = getFlag f s.P

/-- R86, R52: an instruction that issues no Bus write leaves every byte of memory as it was. -/
def Obligations.NonStoringInstructionsKeepMemory : Prop :=
  ∀ (i : Instr) (s t : State), exec i s = .next t → storesToMemory i = false →
    t.mem = s.mem ∧ ∀ a : Nat, t.memByte a = s.memByte a

/-- R47, R86, R93 to R95, R109, R110, R121 to R124, R135, R137, R139, R150: a storing instruction changes no byte of memory
but the one at its effective address, or the stack cells it pushes to; if its address faults it changes none. -/
def Obligations.StoringInstructionsKeepOtherBytes : Prop :=
  ∀ (i : Instr) (s t : State), exec i s = .next t → storesToMemory i = true →
    (i.mnemonic ∉ [.PHA, .PHP, .JSR, .BRK] →
      (∀ ea u, getAddr i.mode s = .ok ea u → ∀ a : Nat, a ≠ ea.toNat → t.memByte a = s.memByte a) ∧
      (∀ f u, getAddr i.mode s = .error f u → t.mem = s.mem)) ∧
    (i.mnemonic ∈ [.PHA, .PHP] →
      ∀ a : Nat, a ≠ (stackDown s 0).toNat → t.memByte a = s.memByte a) ∧
    (i.mnemonic = .JSR →
      ∀ a : Nat, a ≠ (stackDown s 0).toNat → a ≠ (stackDown s 1).toNat →
        t.memByte a = s.memByte a) ∧
    (i.mnemonic = .BRK →
      ∀ a : Nat, a ≠ (stackDown s 0).toNat → a ≠ (stackDown s 1).toNat → a ≠ (stackDown s 2).toNat →
        t.memByte a = s.memByte a)

/-- R24, R25: after an instruction that writes no PC, PC is the address of the byte after it: K+1 plus its operand bytes,
mod 65536. -/
def Obligations.PcAdvancesByTheLength : Prop :=
  ∀ (i : Instr) (s : State), s.FullMemory → writesPC i = false →
    ∃ t, exec i s = .next t ∧ t.PC = BitVec.ofNat 16 (s.PC.toNat + i.mode.operandBytes)

/-- R162, R82, R163: with MEM_LEN = 65536 every instruction of the table completes, from every state, and records no fault;
so no row asks the resolver for a mode it refuses. -/
def Obligations.EveryInstructionCompletesOnFullMemory : Prop :=
  ∀ (i : Instr) (s : State), s.FullMemory → ∃ t, exec i s = .next t ∧ t.faultRecord = s.faultRecord ∧ t.cfg = s.cfg

/-- R33, R29, R32 (I inert: D7, D8; bit 5: D25; log 8, log 13): I, B and bit 5 are read by no instruction except PHP and BRK,
which push the whole P: changing one changes no other part of the result. -/
def Obligations.InterruptBreakAndUnusedBitsAreInert : Prop :=
  ∀ (i : Instr) (f : Flag) (b : Bool) (s t : State), f ∈ [Flag.I, Flag.B, Flag.U] →
    i.mnemonic ∉ [.PHP, .BRK] → restoresP i = false → writesFlag f i = false → exec i s = .next t →
    exec i (withFlag f b s) = .next (withFlag f b t)

/-! ### The whole machine -/

/-- R180, R181, R182 (P = 0: D4, log 8; nothing else changes at reset: D5, log 9; which vector the launch memory holds:
log 22): the state after reset has every register 0, no fault, the default parameters for some launch (log 1), PC the word at
the reset vector, and meets the invariant. -/
def Obligations.ResetStateIsAsTheRulesSay : Prop :=
  State.reset.A = 0 ∧ State.reset.X = 0 ∧ State.reset.Y = 0 ∧ State.reset.S = 0 ∧ State.reset.P = 0 ∧
  State.reset.faultRecord = none ∧ (∃ n, State.reset.cfg = { launch := n }) ∧
  State.reset.PC = word (byteAt State.reset 0xFFFD) (byteAt State.reset 0xFFFC) ∧
  State.reset.bus.reverse.map BusEvent.access = [(false, 0xFFFC), (false, 0xFFFD)] ∧ State.reset.Inv

/-- R28, R31, R43: every step keeps the invariant: a legal configuration, memory in canonical form with no cell at or above
MEM_LEN, and the live B bit 0. -/
def Obligations.EveryStepKeepsTheInvariant : Prop :=
  ∀ s t : State, s.Inv → step s = .next t → t.Inv

/-- R53, R56, R59 (what is recorded: log 6; the draw: log 4): the Bus events a step adds, replayed in order on the memory
before it, give the memory after it; every read returned what memory held at that moment, or in IO_REGION the draw. -/
def Obligations.BusRecordReplaysToTheMemory : Prop :=
  ∀ s t : State, step s = .next t →
    t.cfg = s.cfg ∧ ∃ new : List BusEvent, t.bus = new.reverse ++ s.bus ∧
      replay s.cfg s.bus new s.mem = some t.mem

/-- R86, R47, R76 (the order is D9 to D11, log 14): with a full memory and no device, the Bus operations of every
instruction are those of the table of R86, in its order and no other. -/
def Obligations.BusOperationsFollowTheTable : Prop :=
  ∀ (i : Instr) (s : State), s.FullMemory → s.NoDevices →
    ∃ (t : State) (new : List BusEvent), exec i s = .next t ∧ t.bus = new.reverse ++ s.bus ∧ new.map BusEvent.access = busOps i s

/-- R169, R162, R164, R13 (D2, log 2): with a smaller memory an instruction issues the Bus operations it would issue with a
full one up to its first at or above MEM_LEN, which is not made and raises BusRange; if it has none the result is the
same. -/
def Obligations.FirstAccessOutOfRangeRaisesBusRange : Prop :=
  ∀ (i : Instr) (s full u : State), full = { s with cfg := { s.cfg with memLen := 65536 } } → exec i full = .next u →
    ∃ (t : State) (before : List BusEvent), exec i s = .next t ∧ t.bus = before ++ s.bus ∧
      (∀ e ∈ before, (BusEvent.access e).2.toNat < s.cfg.memLen) ∧
      ((t = { u with cfg := s.cfg }) ∨
        ∃ (e : BusEvent) (later : List BusEvent), t.faultRecord = some (.busRange (BusEvent.access e).2) ∧
          s.cfg.memLen ≤ (BusEvent.access e).2.toNat ∧ u.bus = later ++ e :: t.bus)

/-! ### Round trips through the stack -/

/-- R135, R136: after a JSR at K, an RTS that finds S and the two pushed cells as JSR left them goes to K+3 and restores S. -/
def Obligations.JsrThenRtsReturnsToTheNextInstruction : Prop :=
  ∀ s t t' : State, s.FullMemory → s.NoDevices → exec .jsr s = .next t → t'.cfg = t.cfg → t'.S = t.S →
    (∀ a ∈ [stackDown s 0, stackDown s 1], byteAt t' a = byteAt t a) →
    ∃ u, exec .rts t' = .next u ∧ u.PC = BitVec.ofNat 16 (s.PC.toNat + 2) ∧ u.S = s.S

/-- R150, R151, R28: after a BRK at K, an RTI that finds S and the three pushed cells as BRK left them goes to K+2 and
restores S and P, with D and B 0. -/
def Obligations.BrkThenRtiReturnsAndClearsDecimal : Prop :=
  ∀ s t t' : State, s.FullMemory → s.NoDevices → exec .brk s = .next t → t'.cfg = t.cfg → t'.S = t.S →
    (∀ a ∈ [stackDown s 0, stackDown s 1, stackDown s 2], byteAt t' a = byteAt t a) →
    ∃ u, exec .rti t' = .next u ∧ u.PC = BitVec.ofNat 16 (s.PC.toNat + 1) ∧ u.S = s.S ∧ u.P = restoreByte s.P

/-- R138, R140, R28: a PLA after a PHA restores the pushed byte, and a PLP after a PHP restores P with D and B 0, when S and
the pushed cell are as the push left them. -/
def Obligations.PullsRestoreWhatPushesSaved : Prop :=
  ∀ s t t' : State, s.FullMemory → s.NoDevices → t'.cfg = t.cfg → t'.S = t.S →
    byteAt t' (stackDown s 0) = byteAt t (stackDown s 0) →
    (exec .pha s = .next t → ∃ u, exec .pla t' = .next u ∧ u.A = s.A ∧ u.S = s.S) ∧
    (exec .php s = .next t → ∃ u, exec .plp t' = .next u ∧ u.P = restoreByte s.P ∧ u.S = s.S)

/-! ### The host -/

/-- R184, R187, R193 (the form of the operations: log 5, log 17): `step()` answers ok exactly where the step records no
fault; a host write of A, X, Y, S, P, PC or memory stores the value, reduced to the width, and changes nothing else, the
fault record included; one of a cell that does not exist or of IO_REGION changes nothing. -/
def Obligations.HostStepsAndWritesBetweenSteps : Prop :=
  (∀ s t : State, hostStep s = .ok t ↔ step s = .next t ∧ t.faultRecord = none) ∧
  (∀ (s t : State) (f : Fault),
    hostStep s = .fault f t ↔ (step s = .next t ∧ t.faultRecord = some f) ∨ (step s = .fault f ∧ t = s)) ∧
  (∀ (r q : Reg) (v : Nat) (s : State), ((hostWriteReg r v s).getReg q).toNat = if q = r then v % 256 else (s.getReg q).toNat) ∧
  (∀ (r : Reg) (v : Nat) (s : State), { hostWriteReg r v s with A := s.A, X := s.X, Y := s.Y, S := s.S } = s) ∧
  (∀ (v : Nat) (s : State), (hostWriteP v s).P.toNat = v % 256 ∧ { hostWriteP v s with P := s.P } = s) ∧
  (∀ (v : Nat) (s : State), (hostWritePC v s).PC.toNat = v % 65536 ∧ { hostWritePC v s with PC := s.PC } = s) ∧
  (∀ (a : Addr) (v : Byte) (s : State),
    (a.toNat < s.cfg.memLen → a ∉ s.cfg.ioRegion →
      { hostWriteMem a v s with mem := s.mem } = s ∧
      ∀ b : Addr, byteAt (hostWriteMem a v s) b = if b = a then v else byteAt s b) ∧
    (s.cfg.memLen ≤ a.toNat ∨ a ∈ s.cfg.ioRegion → hostWriteMem a v s = s))

/-- R180, R182 (P = 0: D4, log 8; M0: D28, log 1): a newly built core has every register 0, no fault, no Bus event, and the
launch memory in canonical form, where a cell the launch sets last reads as set and one it does not set (R58) holds the free
value of its launch. -/
def Obligations.ConstructionZeroesTheRegisters : Prop :=
  ∀ (cfg : Config) (m0 : List Host.Cell), 1 ≤ cfg.memLen → cfg.memLen ≤ 65536 →
    ∃ s, construct cfg m0 = .next s ∧ s.A = 0 ∧ s.X = 0 ∧ s.Y = 0 ∧ s.S = 0 ∧ s.PC = 0 ∧ s.P = 0 ∧ s.faultRecord = none ∧
      s.bus = [] ∧ s.cfg = cfg ∧ s.Inv ∧
      (∀ a : Nat, (∀ c ∈ m0, c.1 ≠ a) → s.memByte a = Config.unsetByte cfg.launch a) ∧
      ∀ (a : Nat) (v : Byte), a < cfg.memLen → ∀ s', construct cfg (m0 ++ [(a, v)]) = .next s' →
        s'.memByte a = v ∧ ∀ b, b ≠ a → s'.memByte b = s.memByte b

/-- R181 (that nothing else changes, the wrap and the cleared record are D5, log 9): reset clears the fault record, reads
the vector low byte first and loads PC; A, X, Y, S, P and memory keep their values; out of range it records BusRange and
leaves PC. -/
def Obligations.ResetLoadsOnlyPc : Prop :=
  ∀ (s s0 t : State) (v w : Addr), 1 ≤ s.cfg.memLen → s.cfg.memLen ≤ 65536 → s0 = { s with faultRecord := none } →
    v = s.cfg.resetVector → w = BitVec.ofNat 16 (v.toNat + 1) → t = afterRead s0 v →
    (v.toNat < s.cfg.memLen → w.toNat < s.cfg.memLen →
      hostReset s = .ok { afterRead t w with PC := word (t.busByte w) (s0.busByte v) }) ∧
    (s.cfg.memLen ≤ v.toNat → hostReset s = .fault (.busRange v) { s with faultRecord := some (.busRange v) }) ∧
    (v.toNat < s.cfg.memLen → s.cfg.memLen ≤ w.toNat →
      hostReset s = .fault (.busRange w) { t with faultRecord := some (.busRange w) })

/-- R185 (D19; the step bound and `outOfFuel` are the model's, log 18): `run` halts exactly where PC is at or above MEM_LEN
before a fetch; below it, it takes a step, goes on from the state a step leaves and ends at the first fault. With MEM_LEN =
65536 it never halts. -/
def Obligations.RunHaltsOnlyPastTheMemory : Prop :=
  (∀ (n : Nat) (s : State), s.cfg.memLen ≤ s.PC.toNat → run n s = .halted s) ∧
  (∀ s : State, s.PC.toNat < s.cfg.memLen → run 0 s = .outOfFuel s) ∧
  (∀ (n : Nat) (s : State), s.PC.toNat < s.cfg.memLen →
    (∀ t, hostStep s = .ok t → run (n + 1) s = run n t) ∧
    (∀ f t, hostStep s = .fault f t → run (n + 1) s = .fault f t) ∧
    (∀ r, hostStep s = .refused r → run (n + 1) s = .refused r)) ∧
  (∀ (n : Nat) (s t : State), run n s = .halted t → t.cfg = s.cfg ∧ t.cfg.memLen ≤ t.PC.toNat) ∧
  (∀ (n : Nat) (s t : State), s.FullMemory → run n s ≠ .halted t)
end

