-- ==== Sys2Proof/Laws/Flags.lean ====
section
/-! SUPPORT. The laws of P: what each flag reads after each way of writing P, and that a byte is its eight flags. -/

namespace Sys2Proof.Machine

open Sys2Proof.Spec

theorem getLsbD_seven (v : Byte) : v.getLsbD 7 = decide (128 ≤ v.toNat) := by
  have h := v.isLt
  rw [Bool.eq_iff_iff, decide_eq_true_eq, BitVec.getLsbD, Nat.testBit_eq_decide_div_mod_eq, decide_eq_true_eq]
  omega

theorem beq_zero_byte (v : Byte) : (v == 0) = decide (v.toNat = 0) := by
  rw [Bool.eq_iff_iff]
  simp [BitVec.toNat_eq]

/-- R27: writing one flag changes only its bit. -/
@[simp] theorem getFlag_putFlag (f g : Flag) (b : Bool) (p : Byte) :
    getFlag f (putFlag g b p) = if f = g then b else getFlag f p := by
  cases f <;> cases g <;> cases b <;> simp [getFlag, putFlag, Flag.bit]

/-- R30. -/
@[simp] theorem getFlag_setZN (f : Flag) (v p : Byte) :
    getFlag f (setZN v p) = match f with
      | .Z => decide (v.toNat = 0)
      | .N => decide (128 ≤ v.toNat)
      | .C => getFlag .C p
      | .I => getFlag .I p
      | .D => getFlag .D p
      | .B => getFlag .B p
      | .U => getFlag .U p
      | .V => getFlag .V p := by
  cases f <;> simp only [setZN, beq_zero_byte, getLsbD_seven] <;> simp

@[simp] theorem getFlag_pushedP (f : Flag) (p : Byte) :
    getFlag f (pushedP p) = match f with
      | .D => true
      | .B => true
      | f => getFlag f p := by
  cases f <;> simp [getFlag, pushedP, Flag.bit]

@[simp] theorem getFlag_restoredP (f : Flag) (v : Byte) :
    getFlag f (restoredP v) = match f with
      | .D => false
      | .B => false
      | f => getFlag f v := by
  cases f <;> simp [getFlag, restoredP, Flag.bit]

/-- A byte is determined by its eight flags. -/
theorem flags_ext {p q : Byte} (h : ∀ f, getFlag f p = getFlag f q) : p = q := by
  apply BitVec.eq_of_getLsbD_eq
  intro i hi
  match i, hi with
  | 0, _ => exact h .C
  | 1, _ => exact h .Z
  | 2, _ => exact h .I
  | 3, _ => exact h .D
  | 4, _ => exact h .B
  | 5, _ => exact h .U
  | 6, _ => exact h .V
  | 7, _ => exact h .N

theorem getFlag_ofNat (f : Flag) (n : Nat) : getFlag f (BitVec.ofNat 8 n) = decide (n / 2 ^ f.bit % 2 = 1) := by
  have hf : f.bit < 8 := by cases f <;> decide
  rw [getFlag, BitVec.getLsbD_ofNat, Nat.testBit_eq_decide_div_mod_eq]
  simp [hf]

@[simp] theorem getFlag_packP (f : Flag) (g : Flag → Bool) : getFlag f (packP g) = g f := by
  have bits : ∀ f, (g f).toNat ≤ 1 := fun f => Bool.toNat_le (g f)
  have hC := bits .C
  have hZ := bits .Z
  have hI := bits .I
  have hD := bits .D
  have hB := bits .B
  have hU := bits .U
  have hV := bits .V
  have hN := bits .N
  have back : ∀ b : Bool, b = decide (b.toNat = 1) := by decide
  rw [packP, getFlag_ofNat, back (g f), decide_eq_decide]
  cases f <;> simp only [Flag.bit] <;> omega

/-- A byte is `packP g` when each of its flags is `g`'s. -/
theorem eq_packP {p : Byte} {g : Flag → Bool} (h : ∀ f, getFlag f p = g f) : p = packP g :=
  flags_ext fun f => by rw [h f, getFlag_packP]

theorem setZN_eq_znP (v p : Byte) : setZN v p = znP v p :=
  eq_packP fun f => by cases f <;> simp

theorem shiftP_eq_cznP (r : Byte) (c : Bool) (p : Byte) : shiftP r c p = cznP c r p :=
  eq_packP fun f => by cases f <;> simp [shiftP]

theorem compareP_eq_cznP (r m p : Byte) : compareP r m p = cznP (decide (m.toNat ≤ r.toNat)) (r - m) p :=
  eq_packP fun f => by cases f <;> simp [compareP]

theorem aluP_eq_cvznP (o : AluOut) (p : Byte) : aluP o p = cvznP o.c o.v o.r p :=
  eq_packP fun f => by cases f <;> simp [aluP]

theorem pushedP_eq (p : Byte) : pushedP p = pushByte p := eq_packP fun f => by cases f <;> simp

theorem restoredP_eq (v : Byte) : restoredP v = restoreByte v := eq_packP fun f => by cases f <;> simp

end Sys2Proof.Machine
end

