-- ==== Sys2Proof/Laws/State.lean ====
section
/-! SUPPORT. One lemma per field per update of State, each true by rfl, so that no proof unfolds a record update. -/

namespace Sys2Proof.Machine

variable (s : State) (r : Reg) (v : Byte) (g : Byte → Byte) (e : BusEvent) (f : Fault)

@[simp] theorem setReg_PC : (s.setReg r v).PC = s.PC := by cases r <;> rfl
@[simp] theorem setReg_P : (s.setReg r v).P = s.P := by cases r <;> rfl
@[simp] theorem setReg_faultRecord : (s.setReg r v).faultRecord = s.faultRecord := by cases r <;> rfl
@[simp] theorem setReg_mem : (s.setReg r v).mem = s.mem := by cases r <;> rfl
@[simp] theorem setReg_bus : (s.setReg r v).bus = s.bus := by cases r <;> rfl
@[simp] theorem setReg_cfg : (s.setReg r v).cfg = s.cfg := by cases r <;> rfl
@[simp] theorem getReg_setReg_same : (s.setReg r v).getReg r = v := by cases r <;> rfl
theorem getReg_setReg_other {q : Reg} (h : q ≠ r) : (s.setReg r v).getReg q = s.getReg q := by
  cases r <;> cases q <;> first | rfl | exact absurd rfl h

@[simp] theorem mapP_A : (s.mapP g).A = s.A := rfl
@[simp] theorem mapP_X : (s.mapP g).X = s.X := rfl
@[simp] theorem mapP_Y : (s.mapP g).Y = s.Y := rfl
@[simp] theorem mapP_S : (s.mapP g).S = s.S := rfl
@[simp] theorem mapP_PC : (s.mapP g).PC = s.PC := rfl
@[simp] theorem mapP_P : (s.mapP g).P = g s.P := rfl
@[simp] theorem mapP_faultRecord : (s.mapP g).faultRecord = s.faultRecord := rfl
@[simp] theorem mapP_mem : (s.mapP g).mem = s.mem := rfl
@[simp] theorem mapP_bus : (s.mapP g).bus = s.bus := rfl
@[simp] theorem mapP_cfg : (s.mapP g).cfg = s.cfg := rfl
@[simp] theorem mapP_getReg : (s.mapP g).getReg r = s.getReg r := by cases r <;> rfl

@[simp] theorem recordEvent_PC : (s.recordEvent e).PC = s.PC := rfl
@[simp] theorem recordEvent_P : (s.recordEvent e).P = s.P := rfl
@[simp] theorem recordEvent_faultRecord : (s.recordEvent e).faultRecord = s.faultRecord := rfl
@[simp] theorem recordEvent_mem : (s.recordEvent e).mem = s.mem := rfl
@[simp] theorem recordEvent_bus : (s.recordEvent e).bus = e :: s.bus := rfl
@[simp] theorem recordEvent_cfg : (s.recordEvent e).cfg = s.cfg := rfl
@[simp] theorem recordEvent_getReg : (s.recordEvent e).getReg r = s.getReg r := by cases r <;> rfl

@[simp] theorem recordFault_PC : (s.recordFault f).PC = s.PC := rfl
@[simp] theorem recordFault_P : (s.recordFault f).P = s.P := rfl
@[simp] theorem recordFault_faultRecord : (s.recordFault f).faultRecord = some f := rfl
@[simp] theorem recordFault_mem : (s.recordFault f).mem = s.mem := rfl
@[simp] theorem recordFault_bus : (s.recordFault f).bus = s.bus := rfl
@[simp] theorem recordFault_cfg : (s.recordFault f).cfg = s.cfg := rfl
@[simp] theorem recordFault_getReg : (s.recordFault f).getReg r = s.getReg r := by cases r <;> rfl

@[simp] theorem getReg_A : s.getReg .A = s.A := rfl
@[simp] theorem getReg_X : s.getReg .X = s.X := rfl
@[simp] theorem getReg_Y : s.getReg .Y = s.Y := rfl
@[simp] theorem getReg_S : s.getReg .S = s.S := rfl
@[simp] theorem flag_eq (b : Flag) : s.flag b = getFlag b s.P := rfl

end Sys2Proof.Machine
end

