-- ==== Sys2Proof/Laws/Ops.lean ====
section
/-! SUPPORT. One lemma for each shared operation that says all it can answer, in the vocabulary of Safety.lean: provers
cite these and do not unfold the operations. -/

namespace Sys2Proof.Machine

open Sys2Proof.Spec

/-! ### Running operations one after another -/

section Running

variable {α β : Type} {x : Op α} {f : α → Op β} {a : α} {e : Fault} {s t : State}

theorem bind_ok (h : x s = .ok a t) : (x >>= f) s = f a t := by
  simp only [bind, EStateM.bind, h]

theorem bind_error (h : x s = .error e t) : (x >>= f) s = .error e t := by
  simp only [bind, EStateM.bind, h]

/-- All that a sequence of two operations can do. -/
theorem bind_run (x : Op α) (f : α → Op β) (s : State) :
    (x >>= f) s = match x s with
      | .ok a t => f a t
      | .error e t => .error e t := by
  simp only [bind, EStateM.bind]
  cases x s <;> rfl

@[simp] theorem pure_run (a : α) (s : State) : (pure a : Op α) s = .ok a s := rfl
@[simp] theorem get_run (g : State → α) (s : State) : Op.get g s = .ok (g s) s := rfl
@[simp] theorem update_run (g : State → State) (s : State) : Op.update g s = .ok () (g s) := rfl
@[simp] theorem fail_run (e : Fault) (s : State) : (Op.fail e : Op α) s = .error e s := rfl
@[simp] theorem setPC_run (p : Addr) (s : State) : setPC p s = .ok () { s with PC := p } := rfl

/-- Reading the state first. -/
@[simp] theorem get_bind_run (g : State → α) (k : α → Op β) (s : State) : (Op.get g >>= k) s = k (g s) s := rfl

/-- Changing the state first. -/
@[simp] theorem update_bind_run (g : State → State) (k : Unit → Op β) (s : State) :
    (Op.update g >>= k) s = k () (g s) := rfl

@[simp] theorem setPC_bind_run (p : Addr) (k : Unit → Op β) (s : State) :
    (setPC p >>= k) s = k () { s with PC := p } := rfl

theorem finish_ok {o : Op Unit} {s t : State} (h : o s = .ok () t) : finish o s = .next t := by
  simp only [finish, h]

theorem finish_error {o : Op Unit} {s t : State} {f : Fault} (h : o s = .error f t) :
    finish o s = .next { t with faultRecord := some f } := by
  simp only [finish, h]
  rfl

end Running

/-! ### Byte order, cells and wraps by ordinary arithmetic -/

theorem hiLo_eq_word (hi lo : Byte) : hiLo hi lo = word hi lo := by
  apply BitVec.eq_of_toNat_eq
  have h1 := hi.isLt
  have h2 := lo.isLt
  simp only [hiLo, word, BitVec.toNat_append, BitVec.toNat_ofNat]
  rw [← Nat.shiftLeft_add_eq_or_of_lt h2, Nat.shiftLeft_eq]
  omega

theorem stackCell_eq_cell (sp : Byte) : stackCell sp = cell sp := by
  apply BitVec.eq_of_toNat_eq
  have := sp.isLt
  simp only [stackCell, cell, zext, BitVec.ofNat_eq_ofNat, BitVec.toNat_add, BitVec.toNat_setWidth, BitVec.toNat_ofNat]
  omega

@[simp] theorem toNat_zext (b : Byte) : (zext b).toNat = b.toNat := by
  have := b.isLt
  simp only [zext, BitVec.toNat_setWidth]
  omega

theorem zext_add (b x : Byte) : zext (b + x) = zeroPage (b.toNat + x.toNat) := by
  apply BitVec.eq_of_toNat_eq
  rw [toNat_zext]
  simp only [zeroPage, BitVec.toNat_add, BitVec.toNat_ofNat]
  omega

theorem zext_add_one (b : Byte) (n : Nat) (h : zext b = zeroPage n) : zext (b + 1) = zeroPage (n + 1) := by
  apply BitVec.eq_of_toNat_eq
  have h' := congrArg BitVec.toNat h
  have := b.isLt
  rw [toNat_zext] at h' ⊢
  simp only [zeroPage, BitVec.ofNat_eq_ofNat, BitVec.toNat_add, BitVec.toNat_ofNat] at h' ⊢
  omega

theorem zext_eq_zeroPage (b : Byte) : zext b = zeroPage b.toNat := by
  apply BitVec.eq_of_toNat_eq
  have := b.isLt
  rw [toNat_zext]
  simp only [zeroPage, BitVec.toNat_ofNat]
  omega

theorem add_zext (w : Addr) (x : Byte) : w + zext x = BitVec.ofNat 16 (w.toNat + x.toNat) := by
  apply BitVec.eq_of_toNat_eq
  simp only [BitVec.toNat_add, toNat_zext, BitVec.toNat_ofNat]

theorem addr_add_ofNat (w : Addr) (k : Nat) : w + BitVec.ofNat 16 k = BitVec.ofNat 16 (w.toNat + k) := by
  apply BitVec.eq_of_toNat_eq
  simp [BitVec.toNat_add]

theorem addr_add_one (w : Addr) : w + 1 = BitVec.ofNat 16 (w.toNat + 1) := addr_add_ofNat w 1

theorem byte_add_one (b : Byte) : b + 1 = BitVec.ofNat 8 (b.toNat + 1) := by
  apply BitVec.eq_of_toNat_eq
  simp [BitVec.toNat_add]

theorem byte_sub_one (b : Byte) : b - 1 = BitVec.ofInt 8 ((b.toNat : Int) - 1) := by
  apply BitVec.eq_of_toNat_eq
  have := b.isLt
  simp only [BitVec.ofNat_eq_ofNat, BitVec.toNat_sub, BitVec.toNat_ofInt, BitVec.toNat_ofNat, Nat.reducePow, Nat.reduceMod]
  omega

theorem byte_sub (r m : Byte) : r - m = BitVec.ofInt 8 ((r.toNat : Int) - m.toNat) := by
  apply BitVec.eq_of_toNat_eq
  have := r.isLt
  have := m.isLt
  simp only [BitVec.toNat_sub, BitVec.toNat_ofInt]
  omega

theorem toNat_sext_add (w : Addr) (b : Byte) : w + sext b = BitVec.ofInt 16 ((w.toNat : Int) + b.toInt) := by
  apply BitVec.eq_of_toNat_eq
  have := w.isLt
  simp only [sext, BitVec.signExtend, BitVec.toNat_add, BitVec.toNat_ofInt, Nat.reducePow]
  omega

/-! ### The Bus -/

variable {s t : State} {a : Addr} {v : Byte}

/-- R41 in range. -/
theorem memRead_ok (h : a.toNat < s.cfg.memLen) : memRead a s = .ok (s.busByte a) (afterRead s a) := by
  simp only [memRead, Nat.not_le.mpr h, if_false]
  rfl

/-- R41 out of range. -/
theorem memRead_error (h : s.cfg.memLen ≤ a.toNat) : memRead a s = .error (.busRange a) s := by
  simp only [memRead, h, if_true]

/-- R42 in range. -/
theorem memWrite_ok (h : a.toNat < s.cfg.memLen) : memWrite a v s = .ok () (afterWrite s a v) := by
  simp only [memWrite, Nat.not_le.mpr h, if_false, afterWrite]
  split <;> simp_all [State.recordEvent]

/-- R42 out of range. -/
theorem memWrite_error (h : s.cfg.memLen ≤ a.toNat) : memWrite a v s = .error (.busRange a) s := by
  simp only [memWrite, h, if_true]

/-- R60 in range. -/
theorem fetch_ok (h : s.PC.toNat < s.cfg.memLen) : fetch s = .ok (s.busByte s.PC) (afterFetch s) := by
  rw [fetch, get_bind_run, bind_ok (memRead_ok h), setPC_bind_run]
  simp only [pure_run, addr_add_one]
  rfl

/-- R60 out of range: PC is not advanced. -/
theorem fetch_error (h : s.cfg.memLen ≤ s.PC.toNat) : fetch s = .error (.busRange s.PC) s := by
  rw [fetch, get_bind_run, bind_error (memRead_error h)]

/-- R49 in range. -/
theorem push_ok (h : (cell s.S).toNat < s.cfg.memLen) : push v s = .ok () (afterPush s v) := by
  rw [push, get_bind_run, stackCell_eq_cell, bind_ok (memWrite_ok h), update_run, byte_sub_one]
  rfl

/-- R49 out of range: S is not decremented. -/
theorem push_error (h : s.cfg.memLen ≤ (cell s.S).toNat) : push v s = .error (.busRange (cell s.S)) s := by
  rw [push, get_bind_run, stackCell_eq_cell, bind_error (memWrite_error h)]

/-- R50 in range. -/
theorem pop_ok (h : (cell (poppedS s)).toNat < s.cfg.memLen) : pop s = .ok (popByte s) (afterPop s) := by
  rw [pop, get_bind_run, update_bind_run, stackCell_eq_cell, byte_add_one, memRead_ok (by simpa [poppedS] using h)]
  rfl

/-- R50 out of range: S stays incremented. -/
theorem pop_error (h : s.cfg.memLen ≤ (cell (poppedS s)).toNat) :
    pop s = .error (.busRange (cell (poppedS s))) { s with S := poppedS s } := by
  rw [pop, get_bind_run, update_bind_run, stackCell_eq_cell, byte_add_one, memRead_error (by simpa [poppedS] using h)]
  rfl

/-- With a full memory every address is in range (R162). -/
theorem inRange (h : s.FullMemory) (a : Addr) : a.toNat < s.cfg.memLen := by
  have := a.isLt
  rw [h]
  omega

@[simp] theorem afterRead_cfg : (afterRead s a).cfg = s.cfg := rfl
@[simp] theorem afterRead_mem : (afterRead s a).mem = s.mem := rfl
@[simp] theorem afterRead_faultRecord : (afterRead s a).faultRecord = s.faultRecord := rfl
@[simp] theorem afterRead_P : (afterRead s a).P = s.P := rfl
@[simp] theorem afterRead_PC : (afterRead s a).PC = s.PC := rfl
@[simp] theorem afterRead_A : (afterRead s a).A = s.A := rfl
@[simp] theorem afterRead_X : (afterRead s a).X = s.X := rfl
@[simp] theorem afterRead_Y : (afterRead s a).Y = s.Y := rfl
@[simp] theorem afterRead_S : (afterRead s a).S = s.S := rfl
@[simp] theorem afterWrite_cfg : (afterWrite s a v).cfg = s.cfg := rfl
@[simp] theorem afterWrite_faultRecord : (afterWrite s a v).faultRecord = s.faultRecord := rfl
@[simp] theorem afterWrite_P : (afterWrite s a v).P = s.P := rfl
@[simp] theorem afterWrite_PC : (afterWrite s a v).PC = s.PC := rfl
@[simp] theorem afterWrite_A : (afterWrite s a v).A = s.A := rfl
@[simp] theorem afterWrite_X : (afterWrite s a v).X = s.X := rfl
@[simp] theorem afterWrite_Y : (afterWrite s a v).Y = s.Y := rfl
@[simp] theorem afterWrite_S : (afterWrite s a v).S = s.S := rfl
@[simp] theorem afterFetch_cfg : (afterFetch s).cfg = s.cfg := rfl
@[simp] theorem afterFetch_mem : (afterFetch s).mem = s.mem := rfl
@[simp] theorem afterFetch_faultRecord : (afterFetch s).faultRecord = s.faultRecord := rfl
@[simp] theorem afterFetch_P : (afterFetch s).P = s.P := rfl
@[simp] theorem afterFetch_A : (afterFetch s).A = s.A := rfl
@[simp] theorem afterFetch_X : (afterFetch s).X = s.X := rfl
@[simp] theorem afterFetch_Y : (afterFetch s).Y = s.Y := rfl
@[simp] theorem afterFetch_S : (afterFetch s).S = s.S := rfl
@[simp] theorem afterFetch_PC : (afterFetch s).PC = BitVec.ofNat 16 (s.PC.toNat + 1) := rfl
@[simp] theorem afterPush_cfg : (afterPush s v).cfg = s.cfg := rfl
@[simp] theorem afterPush_faultRecord : (afterPush s v).faultRecord = s.faultRecord := rfl
@[simp] theorem afterPush_P : (afterPush s v).P = s.P := rfl
@[simp] theorem afterPush_PC : (afterPush s v).PC = s.PC := rfl
@[simp] theorem afterPush_A : (afterPush s v).A = s.A := rfl
@[simp] theorem afterPush_X : (afterPush s v).X = s.X := rfl
@[simp] theorem afterPush_Y : (afterPush s v).Y = s.Y := rfl
@[simp] theorem afterPush_S : (afterPush s v).S = BitVec.ofInt 8 ((s.S.toNat : Int) - 1) := rfl
@[simp] theorem afterPop_cfg : (afterPop s).cfg = s.cfg := rfl
@[simp] theorem afterPop_mem : (afterPop s).mem = s.mem := rfl
@[simp] theorem afterPop_faultRecord : (afterPop s).faultRecord = s.faultRecord := rfl
@[simp] theorem afterPop_P : (afterPop s).P = s.P := rfl
@[simp] theorem afterPop_PC : (afterPop s).PC = s.PC := rfl
@[simp] theorem afterPop_A : (afterPop s).A = s.A := rfl
@[simp] theorem afterPop_X : (afterPop s).X = s.X := rfl
@[simp] theorem afterPop_Y : (afterPop s).Y = s.Y := rfl
@[simp] theorem afterPop_S : (afterPop s).S = poppedS s := rfl

/-- Two fetches in range. -/
theorem fetchWord_ok (h1 : s.PC.toNat < s.cfg.memLen) (h2 : (afterFetch s).PC.toNat < s.cfg.memLen) :
    fetchWord s = .ok (word ((afterFetch s).busByte (afterFetch s).PC) (s.busByte s.PC)) (afterFetch (afterFetch s)) := by
  rw [fetchWord, bind_ok (fetch_ok h1), bind_ok (fetch_ok (s := afterFetch s) h2), pure_run, hiLo_eq_word]

/-- Two reads in range, low byte first. -/
theorem readWordAt_ok {p q : Addr} (hp : p.toNat < s.cfg.memLen) (hq : q.toNat < s.cfg.memLen) :
    readWordAt p q s = .ok (word ((afterRead s p).busByte q) (s.busByte p)) (afterRead (afterRead s p) q) := by
  rw [readWordAt, bind_ok (memRead_ok hp), bind_ok (memRead_ok (s := afterRead s p) hq), pure_run, hiLo_eq_word]

/-- Two pops in range. -/
theorem popWord_ok (h1 : (cell (poppedS s)).toNat < s.cfg.memLen)
    (h2 : (cell (poppedS (afterPop s))).toNat < s.cfg.memLen) :
    popWord s = .ok (word (popByte (afterPop s)) (popByte s)) (afterPop (afterPop s)) := by
  rw [popWord, bind_ok (pop_ok h1), bind_ok (pop_ok (s := afterPop s) h2), pure_run, hiLo_eq_word]

/-- Two pops, the first out of range. -/
theorem popWord_error_first (h : s.cfg.memLen ≤ (cell (poppedS s)).toNat) :
    popWord s = .error (.busRange (cell (poppedS s))) { s with S := poppedS s } := by
  rw [popWord, bind_error (pop_error h)]

/-- Two pops, the second out of range. -/
theorem popWord_error_second (h1 : (cell (poppedS s)).toNat < s.cfg.memLen)
    (h2 : s.cfg.memLen ≤ (cell (poppedS (afterPop s))).toNat) :
    popWord s = .error (.busRange (cell (poppedS (afterPop s)))) { afterPop s with S := poppedS (afterPop s) } := by
  rw [popWord, bind_ok (pop_ok h1), bind_error (pop_error (s := afterPop s) h2)]

/-- Two fetches, the second out of range. -/
theorem fetchWord_error_second (h1 : s.PC.toNat < s.cfg.memLen) (h2 : s.cfg.memLen ≤ (afterFetch s).PC.toNat) :
    fetchWord s = .error (.busRange (afterFetch s).PC) (afterFetch s) := by
  rw [fetchWord, bind_ok (fetch_ok h1), bind_error (fetch_error (s := afterFetch s) h2)]

/-- Two fetches, the first out of range. -/
theorem fetchWord_error_first (h : s.cfg.memLen ≤ s.PC.toNat) : fetchWord s = .error (.busRange s.PC) s := by
  rw [fetchWord, bind_error (fetch_error h)]

/-- Two reads, the first out of range. -/
theorem readWordAt_error_first {p q : Addr} (h : s.cfg.memLen ≤ p.toNat) :
    readWordAt p q s = .error (.busRange p) s := by
  rw [readWordAt, bind_error (memRead_error h)]

/-- Two reads, the second out of range. -/
theorem readWordAt_error_second {p q : Addr} (hp : p.toNat < s.cfg.memLen) (hq : s.cfg.memLen ≤ q.toNat) :
    readWordAt p q s = .error (.busRange q) (afterRead s p) := by
  rw [readWordAt, bind_ok (memRead_ok hp), bind_error (memRead_error (s := afterRead s p) hq)]

/-- Two pushes in range. -/
theorem pushWord_ok {w : Addr} (h1 : (cell s.S).toNat < s.cfg.memLen)
    (h2 : (cell (afterPush s (hiByte w)).S).toNat < s.cfg.memLen) :
    pushWord w s = .ok () (afterPush (afterPush s (hiByte w)) (loByte w)) := by
  rw [pushWord, bind_ok (push_ok h1), push_ok (s := afterPush s (hiByte w)) h2]

/-- Two pushes, the first out of range. -/
theorem pushWord_error_first {w : Addr} (h : s.cfg.memLen ≤ (cell s.S).toNat) :
    pushWord w s = .error (.busRange (cell s.S)) s := by
  rw [pushWord, bind_error (push_error h)]

/-- Two pushes, the second out of range. -/
theorem pushWord_error_second {w : Addr} (h1 : (cell s.S).toNat < s.cfg.memLen)
    (h2 : s.cfg.memLen ≤ (cell (afterPush s (hiByte w)).S).toNat) :
    pushWord w s = .error (.busRange (cell (afterPush s (hiByte w)).S)) (afterPush s (hiByte w)) := by
  rw [pushWord, bind_ok (push_ok h1), push_error (s := afterPush s (hiByte w)) h2]

/-- Two fetches with a full memory. -/
theorem fetchWord_full (h : s.FullMemory) :
    fetchWord s = .ok (word ((afterFetch s).busByte (afterFetch s).PC) (s.busByte s.PC)) (afterFetch (afterFetch s)) :=
  fetchWord_ok (inRange h _) (inRange h _)

/-- Two reads with a full memory. -/
theorem readWordAt_full (h : s.FullMemory) (p q : Addr) :
    readWordAt p q s = .ok (word ((afterRead s p).busByte q) (s.busByte p)) (afterRead (afterRead s p) q) :=
  readWordAt_ok (inRange h _) (inRange h _)

/-- Two pops with a full memory. -/
theorem popWord_full (h : s.FullMemory) :
    popWord s = .ok (word (popByte (afterPop s)) (popByte s)) (afterPop (afterPop s)) :=
  popWord_ok (inRange h _) (inRange h _)

/-- Two pushes with a full memory. -/
theorem pushWord_full (h : s.FullMemory) (w : Addr) :
    pushWord w s = .ok () (afterPush (afterPush s (hiByte w)) (loByte w)) := pushWord_ok (inRange h _) (inRange h _)

theorem hiByte_eq (w : Addr) : hiByte w = BitVec.ofNat 8 (w.toNat / 256) := by
  apply BitVec.eq_of_toNat_eq
  simp [hiByte, BitVec.extractLsb'_toNat, Nat.shiftRight_eq_div_pow]

theorem loByte_eq (w : Addr) : loByte w = BitVec.ofNat 8 w.toNat := by
  apply BitVec.eq_of_toNat_eq
  simp [loByte, BitVec.extractLsb'_toNat]

end Sys2Proof.Machine
end

