-- ==== Sys2Proof/Laws/Arith.lean ====
section
/-! SUPPORT. The result computations of Flags.lean by ordinary arithmetic: shifts and rotates (R121 to R124), the sums,
carries and overflows of ADC and SBC (R142, R145), and the digits of the default decimal functions (R143, R146). -/

namespace Sys2Proof.Machine

open Sys2Proof.Spec

/-! ### Shifts and rotates -/

theorem getLsbD_zero (v : Byte) : v.getLsbD 0 = decide (v.toNat % 2 = 1) := by
  rw [BitVec.getLsbD, Nat.testBit_eq_decide_div_mod_eq]
  simp

theorem aslF_value (v : Byte) (c : Bool) : (aslF v c).1 = BitVec.ofNat 8 (v.toNat * 2) := by
  apply BitVec.eq_of_toNat_eq
  simp [aslF, Nat.shiftLeft_eq]

theorem aslF_carry (v : Byte) (c : Bool) : (aslF v c).2 = decide (128 ≤ v.toNat) := getLsbD_seven v

theorem lsrF_value (v : Byte) (c : Bool) : (lsrF v c).1 = BitVec.ofNat 8 (v.toNat / 2) := by
  apply BitVec.eq_of_toNat_eq
  have := v.isLt
  simp [lsrF, Nat.shiftRight_eq_div_pow]
  omega

theorem lsrF_carry (v : Byte) (c : Bool) : (lsrF v c).2 = decide (v.toNat % 2 = 1) := getLsbD_zero v

theorem rolF_value (v : Byte) (c : Bool) : (rolF v c).1 = BitVec.ofNat 8 (v.toNat * 2 + c.toNat) := by
  apply BitVec.eq_of_toNat_eq
  have := v.isLt
  cases c
  · simp [rolF, Nat.shiftLeft_eq]
  · have low : (v.toNat * 2 % 256) ||| 1 = v.toNat * 2 % 256 + 1 := by
      have h := Nat.two_pow_add_eq_or_of_lt (i := 1) (b := 1) (by decide) (v.toNat * 2 % 256 / 2)
      have e : 2 ^ 1 * (v.toNat * 2 % 256 / 2) = v.toNat * 2 % 256 := by omega
      rw [e] at h
      exact h.symm
    simp [rolF, Nat.shiftLeft_eq, low]
    omega

theorem rolF_carry (v : Byte) (c : Bool) : (rolF v c).2 = decide (128 ≤ v.toNat) := getLsbD_seven v

theorem rorF_value (v : Byte) (c : Bool) : (rorF v c).1 = BitVec.ofNat 8 (v.toNat / 2 + 128 * c.toNat) := by
  apply BitVec.eq_of_toNat_eq
  have := v.isLt
  cases c
  · simp [rorF, Nat.shiftRight_eq_div_pow]
    omega
  · have high : v.toNat / 2 ||| 128 = v.toNat / 2 + 128 := by
      have h := Nat.two_pow_add_eq_or_of_lt (i := 7) (b := v.toNat / 2) (by omega) 1
      rw [Nat.or_comm] at h
      simp at h
      omega
    simp [rorF, Nat.shiftRight_eq_div_pow, high]
    omega

theorem rorF_carry (v : Byte) (c : Bool) : (rorF v c).2 = decide (v.toNat % 2 = 1) := getLsbD_zero v

/-! ### Sums, differences and overflow -/

/-- R125: the signed value of an offset byte. -/
theorem signedByte_eq_toInt (b : Byte) : (if b.toNat < 128 then (b.toNat : Int) else b.toNat - 256) = b.toInt := by
  rw [BitVec.toInt_eq_toNat_cond]
  split <;> split <;> omega

theorem toNat_not (m : Byte) : (~~~m).toNat = 255 - m.toNat := by simp [BitVec.toNat_not]

/-- The overflow expression of R142 is about bit 7 alone. -/
theorem overflow_bit7 (a m sum : Nat) :
    (((a ^^^ sum) &&& (m ^^^ sum) &&& 0x80) != 0) =
      decide (a / 128 % 2 ≠ sum / 128 % 2 ∧ m / 128 % 2 ≠ sum / 128 % 2) := by
  have bit7 : ∀ n, (n &&& 0x80 != 0) = n.testBit 7 := by
    intro n
    rw [Nat.testBit_eq_decide_div_mod_eq]
    have h := Nat.and_two_pow n 7
    simp [Nat.testBit_eq_decide_div_mod_eq] at h
    rw [h]
    rcases Nat.mod_two_eq_zero_or_one (n / 128) with h | h <;> simp [h]
  rw [bit7, Nat.testBit_and, Nat.testBit_xor, Nat.testBit_xor, Nat.testBit_eq_decide_div_mod_eq,
    Nat.testBit_eq_decide_div_mod_eq, Nat.testBit_eq_decide_div_mod_eq]
  rcases Nat.mod_two_eq_zero_or_one (a / 2 ^ 7) with h1 | h1 <;>
    rcases Nat.mod_two_eq_zero_or_one (m / 2 ^ 7) with h2 | h2 <;>
    rcases Nat.mod_two_eq_zero_or_one (sum / 2 ^ 7) with h3 | h3 <;> simp_all

/-- R142: V of ADC is the signed overflow. -/
theorem addOverflow_add (a m : Byte) (c : Bool) :
    addOverflow a m (a.toNat + m.toNat + c.toNat) = signedAddOverflow a m c := by
  rw [addOverflow, overflow_bit7, signedAddOverflow, decide_eq_decide, BitVec.toInt_eq_toNat_cond,
    BitVec.toInt_eq_toNat_cond]
  have := a.isLt
  have := m.isLt
  have := Bool.toNat_le c
  split <;> split <;> omega

/-- R145: V of SBC is the signed overflow of the difference. -/
theorem addOverflow_sub (a m : Byte) (c : Bool) :
    addOverflow a (~~~m) (a.toNat + (~~~m).toNat + c.toNat) = signedSubOverflow a m c := by
  rw [addOverflow, overflow_bit7, signedSubOverflow, decide_eq_decide, BitVec.toInt_eq_toNat_cond,
    BitVec.toInt_eq_toNat_cond, toNat_not]
  have := a.isLt
  have := m.isLt
  have := Bool.toNat_le c
  split <;> split <;> omega

/-- R145: adding `~M` subtracts. -/
theorem add_not_value (a m : Byte) (c : Bool) :
    BitVec.ofNat 8 (a.toNat + (~~~m).toNat + c.toNat) =
      BitVec.ofInt 8 ((a.toNat : Int) - m.toNat - (1 - (c.toNat : Int))) := by
  apply BitVec.eq_of_toNat_eq
  have := a.isLt
  have := m.isLt
  have := Bool.toNat_le c
  simp only [toNat_not, BitVec.toNat_ofNat, BitVec.toNat_ofInt, Nat.reducePow]
  omega

/-- R145: the carry of adding `~M` is 1 exactly when the difference is not negative. -/
theorem add_not_carry (a m : Byte) (c : Bool) :
    decide (a.toNat + (~~~m).toNat + c.toNat > 0xFF) =
      decide (0 ≤ (a.toNat : Int) - m.toNat - (1 - (c.toNat : Int))) := by
  have := a.isLt
  have := m.isLt
  have := Bool.toNat_le c
  simp only [toNat_not, decide_eq_decide]
  omega

/-! ### Decimal digits -/

/-- The two nibbles of a byte made of two nibbles. -/
theorem nibbles (h l : Nat) (hh : h < 16) (hl : l < 16) :
    (h * 16 + l) % 256 / 16 = h ∧ (h * 16 + l) % 256 % 16 = l := by omega

/-- The same, from integers. -/
theorem nibbles_ofInt (h l : Int) (h0 : 0 ≤ h) (l0 : 0 ≤ l) (hh : h < 16) (hl : l < 16) :
    (((BitVec.ofInt 8 (h * 16 + l)).toNat / 16 : Nat) : Int) = h ∧
      (((BitVec.ofInt 8 (h * 16 + l)).toNat % 16 : Nat) : Int) = l := by
  simp [BitVec.toNat_ofInt]
  omega

/-- R143 on valid digits: the adjusted digits are those of the decimal sum, and the carry is its overflow of 99. -/
theorem decimal_add_digits {ah al mh ml n : Nat} (h1 : ah ≤ 9) (h2 : al ≤ 9) (h3 : mh ≤ 9) (h4 : ml ≤ 9) (h5 : n ≤ 1)
    (lo hi : Nat) (hlo : lo = (if al + ml + n > 9 then al + ml + n + 6 else al + ml + n))
    (hhi : hi = (if ah + mh + (if lo > 15 then 1 else 0) > 9 then ah + mh + (if lo > 15 then 1 else 0) + 6
      else ah + mh + (if lo > 15 then 1 else 0))) :
    lo % 16 ≤ 9 ∧ hi % 16 ≤ 9 ∧ hi % 16 * 10 + lo % 16 = (ah * 10 + al + (mh * 10 + ml) + n) % 100 ∧
      (15 < hi ↔ 100 ≤ ah * 10 + al + (mh * 10 + ml) + n) := by
  have low : lo % 16 = (al + ml + n) % 10 := by split_ifs at hlo <;> omega
  have carry : (if lo > 15 then 1 else 0) = (al + ml + n) / 10 := by split_ifs at hlo ⊢ <;> omega
  rw [carry] at hhi
  have high : hi % 16 = (ah + mh + (al + ml + n) / 10) % 10 := by split_ifs at hhi <;> omega
  have out : 15 < hi ↔ 10 ≤ ah + mh + (al + ml + n) / 10 := by split_ifs at hhi <;> omega
  omega

/-- R146 on valid digits: the adjusted digits are those of the decimal difference mod 100, and C says whether it is
not negative. -/
theorem decimal_sub_digits {ah al mh ml n : Int} (h0 : 0 ≤ ah ∧ 0 ≤ al ∧ 0 ≤ mh ∧ 0 ≤ ml ∧ 0 ≤ n) (h1 : ah ≤ 9)
    (h2 : al ≤ 9) (h3 : mh ≤ 9) (h4 : ml ≤ 9) (h5 : n ≤ 1) (lo hi : Int)
    (hlo : lo = (if al - ml - (1 - n) < 0 then al - ml - (1 - n) - 6 else al - ml - (1 - n)))
    (hhi : hi = (if ah - mh - (if al - ml - (1 - n) < 0 then 1 else 0) < 0
      then ah - mh - (if al - ml - (1 - n) < 0 then 1 else 0) - 6
      else ah - mh - (if al - ml - (1 - n) < 0 then 1 else 0))) :
    0 ≤ lo % 16 ∧ 0 ≤ hi % 16 ∧ lo % 16 ≤ 9 ∧ hi % 16 ≤ 9 ∧
      hi % 16 * 10 + lo % 16 = (ah * 10 + al - (mh * 10 + ml) - (1 - n)) % 100 ∧
      (0 ≤ hi ↔ 0 ≤ ah * 10 + al - (mh * 10 + ml) - (1 - n)) := by
  have low : lo % 16 = (al - ml - (1 - n)) % 10 := by split_ifs at hlo <;> omega
  have borrow : (if al - ml - (1 - n) < 0 then (1 : Int) else 0) = -((al - ml - (1 - n)) / 10) := by
    split_ifs <;> omega
  rw [borrow] at hhi
  have high : hi % 16 = (ah - mh + (al - ml - (1 - n)) / 10) % 10 := by split_ifs at hhi <;> omega
  have out : 0 ≤ hi ↔ 0 ≤ ah - mh + (al - ml - (1 - n)) / 10 := by split_ifs at hhi <;> omega
  omega

end Sys2Proof.Machine
end

