-- ==== Sys2Proof/Laws/Resolver.lean ====
section
/-! SUPPORT. The addressing resolver, mode by mode, in range and with a full memory: what GetAddr and GetData answer and the
state they leave (R68 to R80). -/

namespace Sys2Proof.Machine

open Sys2Proof.Spec

variable {s : State}

theorem getAddr_zeroPage_ok (h : s.PC.toNat < s.cfg.memLen) :
    getAddr .zeroPage s = .ok (zeroPage (s.busByte s.PC).toNat) (afterFetch s) := by
  rw [getAddr, bind_ok (fetch_ok h), pure_run, zext_eq_zeroPage]

theorem getAddr_zeroPageX_ok (h : s.PC.toNat < s.cfg.memLen) :
    getAddr .zeroPageX s = .ok (zeroPage ((s.busByte s.PC).toNat + s.X.toNat)) (afterFetch s) := by
  rw [getAddr, bind_ok (fetch_ok h), get_bind_run, pure_run, zext_add]
  rfl

theorem getAddr_zeroPageY_ok (h : s.PC.toNat < s.cfg.memLen) :
    getAddr .zeroPageY s = .ok (zeroPage ((s.busByte s.PC).toNat + s.Y.toNat)) (afterFetch s) := by
  rw [getAddr, bind_ok (fetch_ok h), get_bind_run, pure_run, zext_add]
  rfl

theorem getAddr_absolute_ok (h1 : s.PC.toNat < s.cfg.memLen) (h2 : (afterFetch s).PC.toNat < s.cfg.memLen) :
    getAddr .absolute s =
      .ok (word ((afterFetch s).busByte (afterFetch s).PC) (s.busByte s.PC)) (afterFetch (afterFetch s)) :=
  fetchWord_ok h1 h2

theorem getAddr_absoluteX_ok (h1 : s.PC.toNat < s.cfg.memLen) (h2 : (afterFetch s).PC.toNat < s.cfg.memLen) :
    getAddr .absoluteX s =
      .ok (BitVec.ofNat 16 ((word ((afterFetch s).busByte (afterFetch s).PC) (s.busByte s.PC)).toNat + s.X.toNat))
        (afterFetch (afterFetch s)) := by
  rw [getAddr, bind_ok (fetchWord_ok h1 h2), get_bind_run, pure_run, add_zext]
  rfl

theorem getAddr_absoluteY_ok (h1 : s.PC.toNat < s.cfg.memLen) (h2 : (afterFetch s).PC.toNat < s.cfg.memLen) :
    getAddr .absoluteY s =
      .ok (BitVec.ofNat 16 ((word ((afterFetch s).busByte (afterFetch s).PC) (s.busByte s.PC)).toNat + s.Y.toNat))
        (afterFetch (afterFetch s)) := by
  rw [getAddr, bind_ok (fetchWord_ok h1 h2), get_bind_run, pure_run, add_zext]
  rfl

theorem getAddr_indirect_ok (plo phi : Byte) (t : State) (h1 : s.PC.toNat < s.cfg.memLen)
    (h2 : (afterFetch s).PC.toNat < s.cfg.memLen) (hlo : plo = s.busByte s.PC)
    (hhi : phi = (afterFetch s).busByte (afterFetch s).PC) (ht : t = afterFetch (afterFetch s))
    (hp : (word phi plo).toNat < s.cfg.memLen) (hq : (word phi (plo + 1)).toNat < s.cfg.memLen) :
    getAddr .indirect s =
      .ok (word ((afterRead t (word phi plo)).busByte (word phi (plo + 1))) (t.busByte (word phi plo)))
        (afterRead (afterRead t (word phi plo)) (word phi (plo + 1))) := by
  subst hlo hhi ht
  rw [getAddr, bind_ok (fetch_ok h1), bind_ok (fetch_ok (s := afterFetch s) h2), hiLo_eq_word, hiLo_eq_word,
    readWordAt_ok (s := afterFetch (afterFetch s)) hp hq]

theorem getAddr_indexedIndirect_ok (n : Nat) (h : s.PC.toNat < s.cfg.memLen)
    (hn : n = (s.busByte s.PC).toNat + s.X.toNat) (hp : (zeroPage n).toNat < s.cfg.memLen)
    (hq : (zeroPage (n + 1)).toNat < s.cfg.memLen) :
    getAddr .indexedIndirect s =
      .ok (word ((afterRead (afterFetch s) (zeroPage n)).busByte (zeroPage (n + 1))) ((afterFetch s).busByte (zeroPage n)))
        (afterRead (afterRead (afterFetch s) (zeroPage n)) (zeroPage (n + 1))) := by
  subst hn
  rw [getAddr, bind_ok (fetch_ok h), get_bind_run, zext_add_one _ _ (zext_add _ _), zext_add]
  exact readWordAt_ok (s := afterFetch s) hp hq

theorem getAddr_indirectIndexed_ok (n : Nat) (h : s.PC.toNat < s.cfg.memLen) (hn : n = (s.busByte s.PC).toNat)
    (hp : (zeroPage n).toNat < s.cfg.memLen) (hq : (zeroPage (n + 1)).toNat < s.cfg.memLen) :
    getAddr .indirectIndexed s =
      .ok (BitVec.ofNat 16 ((word ((afterRead (afterFetch s) (zeroPage n)).busByte (zeroPage (n + 1)))
          ((afterFetch s).busByte (zeroPage n))).toNat + s.Y.toNat))
        (afterRead (afterRead (afterFetch s) (zeroPage n)) (zeroPage (n + 1))) := by
  subst hn
  rw [getAddr, bind_ok (fetch_ok h), zext_add_one _ _ (zext_eq_zeroPage _), zext_eq_zeroPage,
    bind_ok (readWordAt_ok (s := afterFetch s) hp hq), get_bind_run, pure_run, add_zext]
  rfl

/-! ### The same with a full memory -/

theorem getAddr_zeroPage (h : s.FullMemory) :
    getAddr .zeroPage s = .ok (zeroPage (s.busByte s.PC).toNat) (afterFetch s) := getAddr_zeroPage_ok (inRange h _)

theorem getAddr_zeroPageX (h : s.FullMemory) :
    getAddr .zeroPageX s = .ok (zeroPage ((s.busByte s.PC).toNat + s.X.toNat)) (afterFetch s) :=
  getAddr_zeroPageX_ok (inRange h _)

theorem getAddr_zeroPageY (h : s.FullMemory) :
    getAddr .zeroPageY s = .ok (zeroPage ((s.busByte s.PC).toNat + s.Y.toNat)) (afterFetch s) :=
  getAddr_zeroPageY_ok (inRange h _)

theorem getAddr_absolute (h : s.FullMemory) :
    getAddr .absolute s =
      .ok (word ((afterFetch s).busByte (afterFetch s).PC) (s.busByte s.PC)) (afterFetch (afterFetch s)) :=
  fetchWord_full h

theorem getAddr_absoluteX (h : s.FullMemory) :
    getAddr .absoluteX s =
      .ok (BitVec.ofNat 16 ((word ((afterFetch s).busByte (afterFetch s).PC) (s.busByte s.PC)).toNat + s.X.toNat))
        (afterFetch (afterFetch s)) := getAddr_absoluteX_ok (inRange h _) (inRange h _)

theorem getAddr_absoluteY (h : s.FullMemory) :
    getAddr .absoluteY s =
      .ok (BitVec.ofNat 16 ((word ((afterFetch s).busByte (afterFetch s).PC) (s.busByte s.PC)).toNat + s.Y.toNat))
        (afterFetch (afterFetch s)) := getAddr_absoluteY_ok (inRange h _) (inRange h _)

theorem getAddr_indirect (h : s.FullMemory) (plo phi : Byte) (t : State) (hlo : plo = s.busByte s.PC)
    (hhi : phi = (afterFetch s).busByte (afterFetch s).PC) (ht : t = afterFetch (afterFetch s)) :
    getAddr .indirect s =
      .ok (word ((afterRead t (word phi plo)).busByte (word phi (plo + 1))) (t.busByte (word phi plo)))
        (afterRead (afterRead t (word phi plo)) (word phi (plo + 1))) :=
  getAddr_indirect_ok plo phi t (inRange h _) (inRange h _) hlo hhi ht (inRange h _) (inRange h _)

theorem getAddr_indexedIndirect (h : s.FullMemory) (p : Nat) (hp : p = (s.busByte s.PC).toNat + s.X.toNat) :
    getAddr .indexedIndirect s =
      .ok (word ((afterRead (afterFetch s) (zeroPage p)).busByte (zeroPage (p + 1))) ((afterFetch s).busByte (zeroPage p)))
        (afterRead (afterRead (afterFetch s) (zeroPage p)) (zeroPage (p + 1))) :=
  getAddr_indexedIndirect_ok p (inRange h _) hp (inRange h _) (inRange h _)

theorem getAddr_indirectIndexed (h : s.FullMemory) (b : Nat) (hb : b = (s.busByte s.PC).toNat) :
    getAddr .indirectIndexed s =
      .ok (BitVec.ofNat 16 ((word ((afterRead (afterFetch s) (zeroPage b)).busByte (zeroPage (b + 1)))
          ((afterFetch s).busByte (zeroPage b))).toNat + s.Y.toNat))
        (afterRead (afterRead (afterFetch s) (zeroPage b)) (zeroPage (b + 1))) :=
  getAddr_indirectIndexed_ok b (inRange h _) hb (inRange h _) (inRange h _)

/-- The nine modes that name a memory address (R69). -/
def Mode.hasAddr : Mode → Bool
  | .implied | .accumulator | .immediate | .relative => false
  | .zeroPage | .zeroPageX | .zeroPageY | .absolute | .absoluteX | .absoluteY | .indirect | .indexedIndirect
  | .indirectIndexed => true

/-- R68: for the modes that name an address, GetData reads at GetAddr's address. -/
theorem getData_eq {m : Mode} (hm : Mode.hasAddr m = true) : getData m = (getAddr m >>= memRead) := by
  cases m <;> first | rfl | cases hm

/-- R69, D27: the resolver serves a mode with an operand: the nine above, Immediate and Relative. -/
def Mode.hasData (m : Mode) : Bool := Mode.hasAddr m || m == .immediate || m == .relative

/-! ### What the resolver leaves -/

/-- `t` is `s` with `n` more bytes fetched and some reads recorded, all in range, and nothing else changed. -/
def Fetched (n : Nat) (s t : State) : Prop :=
  ∃ reads : List (Addr × Byte),
    t = { s with PC := BitVec.ofNat 16 (s.PC.toNat + n),
                 bus := (reads.map fun e => BusEvent.read e.1 e.2) ++ s.bus } ∧
    n ≤ reads.length ∧ ∀ e ∈ reads, e.1.toNat < s.cfg.memLen

theorem Fetched.trans {m n : Nat} {s t u : State} (h : Fetched m s t) (k : Fetched n t u) : Fetched (m + n) s u := by
  obtain ⟨r1, rfl, l1, b1⟩ := h
  obtain ⟨r2, rfl, l2, b2⟩ := k
  refine ⟨r2 ++ r1, ?_, by simp; omega, fun e he => (List.mem_append.mp he).elim (b2 e) (b1 e)⟩
  have e : BitVec.ofNat 16 ((BitVec.ofNat 16 (s.PC.toNat + m)).toNat + n) = BitVec.ofNat 16 (s.PC.toNat + (m + n)) := by
    apply BitVec.eq_of_toNat_eq
    simp [Nat.add_assoc]
  simp only [e, List.map_append, List.append_assoc]

theorem Fetched.refl (s : State) : Fetched 0 s s := ⟨[], by simp⟩
theorem Fetched.read {s : State} {a : Addr} (h : a.toNat < s.cfg.memLen) : Fetched 0 s (afterRead s a) :=
  ⟨[(a, s.busByte a)], by simp [afterRead, h]⟩
theorem Fetched.fetch {s : State} (h : s.PC.toNat < s.cfg.memLen) : Fetched 1 s (afterFetch s) :=
  ⟨[(s.PC, s.busByte s.PC)], by simp [afterFetch, h]⟩
theorem Fetched.cfg {n : Nat} {s t : State} (h : Fetched n s t) : t.cfg = s.cfg := by
  obtain ⟨r, rfl, -⟩ := h
  rfl

/-- Where `o` succeeds it fetches `n` bytes and reads, and changes nothing else. -/
def Fetches {α : Type} (n : Nat) (o : Op α) : Prop := ∀ s a t, o s = .ok a t → Fetched n s t

section

variable {α β : Type} {m n : Nat}

theorem Fetches.bind {o : Op α} {k : α → Op β} (h : Fetches m o) (hk : ∀ a, Fetches n (k a)) :
    Fetches (m + n) (o >>= k) := by
  intro s b u hb
  rw [bind_run] at hb
  cases ho : o s with
  | ok a t =>
    rw [ho] at hb
    exact (h _ _ _ ho).trans (hk _ _ _ _ hb)
  | error e t =>
    rw [ho] at hb
    cases hb

theorem fetches_pure (a : α) : Fetches 0 (pure a : Op α) := by
  intro s b t h
  cases h
  exact .refl s

theorem fetches_get (g : State → α) : Fetches 0 (Op.get g) := by
  intro s b t h
  cases h
  exact .refl s

theorem fetches_fail (e : Fault) (n : Nat) : Fetches n (Op.fail e : Op α) := by
  intro s b t h
  cases h

end

theorem fetches_memRead (a : Addr) : Fetches 0 (memRead a) := by
  intro s b t h
  by_cases hr : a.toNat < s.cfg.memLen
  · rw [memRead_ok hr] at h
    cases h
    exact .read hr
  · rw [memRead_error (Nat.not_lt.mp hr)] at h
    cases h

theorem fetches_fetch : Fetches 1 fetch := by
  intro s b t h
  by_cases hr : s.PC.toNat < s.cfg.memLen
  · rw [fetch_ok hr] at h
    cases h
    exact .fetch hr
  · rw [fetch_error (Nat.not_lt.mp hr)] at h
    cases h

theorem fetches_fetchWord : Fetches 2 fetchWord :=
  fetches_fetch.bind (n := 1) fun _ => fetches_fetch.bind (n := 0) fun _ => fetches_pure _

theorem fetches_readWordAt (p q : Addr) : Fetches 0 (readWordAt p q) :=
  (fetches_memRead p).bind (n := 0) fun _ => (fetches_memRead q).bind (n := 0) fun _ => fetches_pure _

/-- R69: GetAddr fetches the mode's operand bytes. -/
theorem fetches_getAddr (m : Mode) : Fetches m.operandBytes (getAddr m) := by
  cases m with
  | implied | accumulator | immediate | relative => exact fetches_fail _ _
  | zeroPage => exact fetches_fetch.bind (n := 0) fun _ => fetches_pure _
  | zeroPageX | zeroPageY =>
    exact fetches_fetch.bind (n := 0) fun _ => (fetches_get _).bind (n := 0) fun _ => fetches_pure _
  | absolute => exact fetches_fetchWord
  | absoluteX | absoluteY =>
    exact fetches_fetchWord.bind (n := 0) fun _ => (fetches_get _).bind (n := 0) fun _ => fetches_pure _
  | indirect => exact fetches_fetch.bind (n := 1) fun _ => fetches_fetch.bind (n := 0) fun _ => fetches_readWordAt _ _
  | indexedIndirect =>
    exact fetches_fetch.bind (n := 0) fun _ => (fetches_get _).bind (n := 0) fun _ => fetches_readWordAt _ _
  | indirectIndexed =>
    exact fetches_fetch.bind (n := 0) fun _ => (fetches_readWordAt _ _).bind (n := 0) fun _ =>
      (fetches_get _).bind (n := 0) fun _ => fetches_pure _

theorem fetches_getData (m : Mode) : Fetches m.operandBytes (getData m) := by
  by_cases hm : Mode.hasAddr m = true
  · rw [getData_eq hm]
    exact (fetches_getAddr m).bind (n := 0) fun _ => fetches_memRead _
  · cases m <;> first | exact fetches_fetch | exact fetches_fail _ _ | exact absurd rfl hm

/-! ### When the resolver succeeds, and how it fails -/

/-- With a full memory GetAddr succeeds in every mode that names an address (R69). -/
theorem getAddr_full {s : State} {m : Mode} (h : s.FullMemory) (hm : Mode.hasAddr m = true) :
    ∃ ea t, getAddr m s = .ok ea t := by
  cases m with
  | implied | accumulator | immediate | relative => cases hm
  | zeroPage => exact ⟨_, _, getAddr_zeroPage h⟩
  | zeroPageX => exact ⟨_, _, getAddr_zeroPageX h⟩
  | zeroPageY => exact ⟨_, _, getAddr_zeroPageY h⟩
  | absolute => exact ⟨_, _, getAddr_absolute h⟩
  | absoluteX => exact ⟨_, _, getAddr_absoluteX h⟩
  | absoluteY => exact ⟨_, _, getAddr_absoluteY h⟩
  | indirect => exact ⟨_, _, getAddr_indirect h _ _ _ rfl rfl rfl⟩
  | indexedIndirect => exact ⟨_, _, getAddr_indexedIndirect h _ rfl⟩
  | indirectIndexed => exact ⟨_, _, getAddr_indirectIndexed h _ rfl⟩

/-- And GetData in every mode that has an operand. -/
theorem getData_full {s : State} {m : Mode} (h : s.FullMemory) (hm : Mode.hasData m = true) :
    ∃ v t, getData m s = .ok v t := by
  by_cases ha : Mode.hasAddr m = true
  · obtain ⟨ea, t, ht⟩ := getAddr_full h ha
    have hc := (fetches_getAddr _ _ _ _ ht).cfg
    have hr : ea.toNat < t.cfg.memLen := inRange (by rw [State.FullMemory, hc]; exact h) _
    exact ⟨t.busByte ea, afterRead t ea, by rw [getData_eq ha, bind_ok ht, memRead_ok hr]⟩
  · cases m <;> first | exact ⟨_, _, fetch_ok (inRange h _)⟩ | exact absurd rfl ha | cases hm

/-- Where `o` faults, it is out of range (R162). -/
def FaultsOutOfRange {α : Type} (o : Op α) : Prop := ∀ s f t, o s = .error f t → OutOfRange s f

section

variable {α β : Type} {n : Nat}

theorem FaultsOutOfRange.bind {o : Op α} {k : α → Op β} (hr : Fetches n o) (h : FaultsOutOfRange o)
    (hk : ∀ a, FaultsOutOfRange (k a)) : FaultsOutOfRange (o >>= k) := by
  intro s f u hb
  rw [bind_run] at hb
  cases ho : o s with
  | ok a t =>
    rw [ho] at hb
    obtain ⟨x, hx, hle⟩ := hk _ _ _ _ hb
    exact ⟨x, hx, by rw [← (hr _ _ _ ho).cfg]; exact hle⟩
  | error e t =>
    rw [ho] at hb
    cases hb
    exact h _ _ _ ho

theorem range_pure (a : α) : FaultsOutOfRange (pure a : Op α) := by
  intro s f t h
  cases h

theorem range_get (g : State → α) : FaultsOutOfRange (Op.get g) := by
  intro s f t h
  cases h

end

theorem range_memRead (a : Addr) : FaultsOutOfRange (memRead a) := by
  intro s f t h
  by_cases hr : a.toNat < s.cfg.memLen
  · rw [memRead_ok hr] at h
    cases h
  · rw [memRead_error (Nat.not_lt.mp hr)] at h
    cases h
    exact ⟨a, rfl, Nat.not_lt.mp hr⟩

theorem range_fetch : FaultsOutOfRange fetch := by
  intro s f t h
  by_cases hr : s.PC.toNat < s.cfg.memLen
  · rw [fetch_ok hr] at h
    cases h
  · rw [fetch_error (Nat.not_lt.mp hr)] at h
    cases h
    exact ⟨_, rfl, Nat.not_lt.mp hr⟩

theorem range_fetchWord : FaultsOutOfRange fetchWord :=
  .bind fetches_fetch range_fetch fun _ => .bind fetches_fetch range_fetch fun _ => range_pure _

theorem range_readWordAt (p q : Addr) : FaultsOutOfRange (readWordAt p q) :=
  .bind (fetches_memRead p) (range_memRead p) fun _ => .bind (fetches_memRead q) (range_memRead q) fun _ => range_pure _

theorem range_getAddr (m : Mode) (hm : Mode.hasAddr m = true) : FaultsOutOfRange (getAddr m) := by
  cases m with
  | implied | accumulator | immediate | relative => cases hm
  | zeroPage => exact .bind fetches_fetch range_fetch fun _ => range_pure _
  | zeroPageX | zeroPageY =>
    exact .bind fetches_fetch range_fetch fun _ => .bind (fetches_get _) (range_get _) fun _ => range_pure _
  | absolute => exact range_fetchWord
  | absoluteX | absoluteY =>
    exact .bind fetches_fetchWord range_fetchWord fun _ => .bind (fetches_get _) (range_get _) fun _ => range_pure _
  | indirect =>
    exact .bind fetches_fetch range_fetch fun _ => .bind fetches_fetch range_fetch fun _ => range_readWordAt _ _
  | indexedIndirect =>
    exact .bind fetches_fetch range_fetch fun _ => .bind (fetches_get _) (range_get _) fun _ => range_readWordAt _ _
  | indirectIndexed =>
    exact .bind fetches_fetch range_fetch fun _ => .bind (fetches_readWordAt _ _) (range_readWordAt _ _) fun _ =>
      .bind (fetches_get _) (range_get _) fun _ => range_pure _

theorem range_getData (m : Mode) (hm : Mode.hasData m = true) : FaultsOutOfRange (getData m) := by
  by_cases h : Mode.hasAddr m = true
  · rw [getData_eq h]
    exact .bind (fetches_getAddr m) (range_getAddr m h) fun _ => range_memRead _
  · cases m <;> first | exact range_fetch | exact absurd rfl h | cases hm

/-! ### What a faulting resolver leaves -/

/-- Where `o` faults it stops as an operand of `n` bytes does. -/
def Stops {α : Type} (n : Nat) (o : Op α) : Prop := ∀ s f t, o s = .error f t → StopsAt n s f t

section

variable {α β : Type} {n : Nat}

/-- A read in range first, then an operation that stops. -/
theorem stopsAt_after_read {s t : State} {a : Addr} {f : Fault} (hr : a.toNat < s.cfg.memLen)
    (h : StopsAt 0 (afterRead s a) f t) : StopsAt 0 s f t := by
  obtain ⟨x, k, reads, hf, hx, hk, rfl, hl, hb, -⟩ := h
  obtain rfl : k = 0 := by omega
  exact ⟨x, 0, reads ++ [(a, s.busByte a)], hf, hx, le_rfl, by simp [afterRead], Nat.zero_le _, by
    intro e he
    rcases List.mem_append.mp he with he | he
    · exact hb e he
    · rw [List.mem_singleton.mp he]
      exact hr, fun h => absurd h (lt_irrefl 0)⟩

/-- A fetch in range first, then an operation that stops. -/
theorem stopsAt_after_fetch {s t : State} {f : Fault} (hr : s.PC.toNat < s.cfg.memLen)
    (h : StopsAt n (afterFetch s) f t) : StopsAt (n + 1) s f t := by
  obtain ⟨x, k, reads, hf, hx, hk, rfl, hl, hb, hlast⟩ := h
  have e : BitVec.ofNat 16 ((BitVec.ofNat 16 (s.PC.toNat + 1)).toNat + k) = BitVec.ofNat 16 (s.PC.toNat + (k + 1)) := by
    apply BitVec.eq_of_toNat_eq
    simp
    omega
  refine ⟨x, k + 1, reads ++ [(s.PC, s.busByte s.PC)], hf, hx, by omega, ?_, by simp; omega, ?_, fun hlt => ?_⟩
  · simp only [afterFetch_PC, e]
    simp [afterFetch]
  · intro e he
    rcases List.mem_append.mp he with he | he
    · exact hb e he
    · rw [List.mem_singleton.mp he]
      exact hr
  · obtain ⟨h1, h2⟩ := hlast (by omega)
    exact ⟨by simp [h1], by rw [h2]⟩

theorem stops_of_no_error {o : Op α} (h : ∀ s f t, o s ≠ .error f t) : Stops n o := fun s f t ho => absurd ho (h s f t)
theorem stops_pure (a : α) : Stops n (pure a : Op α) := stops_of_no_error fun _ _ _ h => by cases h
theorem stops_get_bind (g : State → α) {k : α → Op β} (h : ∀ a, Stops n (k a)) : Stops n (Op.get g >>= k) :=
  fun s f t ht => h (g s) s f t ht

theorem stops_memRead_bind (a : Addr) {k : Byte → Op β} (h : ∀ b, Stops 0 (k b)) : Stops 0 (memRead a >>= k) := by
  intro s f t ht
  by_cases hr : a.toNat < s.cfg.memLen
  · rw [bind_ok (memRead_ok hr)] at ht
    exact stopsAt_after_read hr (h _ _ _ _ ht)
  · rw [bind_error (memRead_error (Nat.not_lt.mp hr))] at ht
    cases ht
    exact ⟨a, 0, [], rfl, Nat.not_lt.mp hr, le_rfl, by simp, le_rfl, by simp, fun h => absurd h (lt_irrefl 0)⟩

theorem stops_fetch_bind {k : Byte → Op β} (h : ∀ b, Stops n (k b)) : Stops (n + 1) (fetch >>= k) := by
  intro s f t ht
  by_cases hr : s.PC.toNat < s.cfg.memLen
  · rw [bind_ok (fetch_ok hr)] at ht
    exact stopsAt_after_fetch hr (h _ _ _ _ ht)
  · rw [bind_error (fetch_error (Nat.not_lt.mp hr))] at ht
    cases ht
    exact ⟨s.PC, 0, [], rfl, Nat.not_lt.mp hr, Nat.zero_le _, by simp, le_rfl, by simp, fun _ => ⟨rfl, by simp⟩⟩

/-- An operation that makes no fetch after the fetches of `o`. -/
theorem Stops.bind_reads {o : Op α} {k : α → Op β} (hf : Fetches n o) (h : Stops n o) (hk : ∀ a, Stops 0 (k a)) :
    Stops n (o >>= k) := by
  intro s f u hu
  rw [bind_run] at hu
  cases ho : o s with
  | ok a t =>
    rw [ho] at hu
    obtain ⟨r, rfl, hl, hb⟩ := hf _ _ _ ho
    obtain ⟨x, k', r', hx, hx', hk', rfl, -, hb', -⟩ := hk _ _ _ _ hu
    obtain rfl : k' = 0 := by omega
    have e : BitVec.ofNat 16 ((BitVec.ofNat 16 (s.PC.toNat + n)).toNat + 0) = BitVec.ofNat 16 (s.PC.toNat + n) := by
      apply BitVec.eq_of_toNat_eq
      simp
    refine ⟨x, n, r' ++ r, hx, hx', le_rfl, by simp only [e, List.map_append, List.append_assoc], by simp; omega, fun e he => ?_, fun h => absurd h (lt_irrefl n)⟩
    rcases List.mem_append.mp he with he | he
    · exact hb' e he
    · exact hb e he
  | error e t =>
    rw [ho] at hu
    cases hu
    exact h _ _ _ ho

end

theorem stops_memRead (a : Addr) : Stops 0 (memRead a) := by
  have h := stops_memRead_bind a (k := fun b => (pure b : Op Byte)) fun b => stops_pure b
  rwa [bind_pure] at h

theorem stops_fetch : Stops 1 fetch := by
  have h := stops_fetch_bind (n := 0) (k := fun b => (pure b : Op Byte)) fun b => stops_pure b
  rwa [bind_pure] at h

theorem stops_fetchWord : Stops 2 fetchWord := stops_fetch_bind fun _ => stops_fetch_bind fun _ => stops_pure _

theorem stops_readWordAt (p q : Addr) : Stops 0 (readWordAt p q) :=
  stops_memRead_bind p fun _ => stops_memRead_bind q fun _ => stops_pure _

/-- R69, R13: where GetAddr faults in a mode that names an address. -/
theorem stops_getAddr (m : Mode) (hm : Mode.hasAddr m = true) : Stops m.operandBytes (getAddr m) := by
  cases m with
  | implied | accumulator | immediate | relative => cases hm
  | zeroPage => exact stops_fetch_bind fun _ => stops_pure _
  | zeroPageX | zeroPageY => exact stops_fetch_bind fun _ => stops_get_bind _ fun _ => stops_pure _
  | absolute => exact stops_fetchWord
  | absoluteX | absoluteY =>
    exact .bind_reads fetches_fetchWord stops_fetchWord fun _ => stops_get_bind _ fun _ => stops_pure _
  | indirect => exact stops_fetch_bind fun _ => stops_fetch_bind fun _ => stops_readWordAt _ _
  | indexedIndirect => exact stops_fetch_bind fun _ => stops_get_bind _ fun _ => stops_readWordAt _ _
  | indirectIndexed =>
    exact stops_fetch_bind fun _ => .bind_reads (fetches_readWordAt _ _) (stops_readWordAt _ _) fun _ =>
      stops_get_bind _ fun _ => stops_pure _

/-- And where GetData faults in a mode that has an operand. -/
theorem stops_getData (m : Mode) (hm : Mode.hasData m = true) : Stops m.operandBytes (getData m) := by
  by_cases h : Mode.hasAddr m = true
  · rw [getData_eq h]
    exact .bind_reads (fetches_getAddr m) (stops_getAddr m h) stops_memRead
  · cases m <;> first | exact stops_fetch | exact absurd rfl h | cases hm

end Sys2Proof.Machine
end

