-- ==== Sys2Proof/Laws/Memory.lean ====
section
/-! SUPPORT. The laws of memory: what a read answers after a write, and that every memory operation keeps the canonical
form (Memory.wf) and the bound (Memory.below). The read law needs no premise on the list. -/

namespace Sys2Proof.Machine

theorem find_erase_ne (m : List Host.Cell) {a b : Nat} (h : b ≠ a) :
    Memory.find (Memory.erase m a) b = Memory.find m b := by
  induction m with
  | nil => rfl
  | cons c rest ih =>
    obtain ⟨k, v⟩ := c
    by_cases hk : k = a
    · subst hk
      simp [Memory.erase, Memory.find, ih, Ne.symm h]
    · simp [Memory.erase, Memory.find, hk, ih]

theorem find_insert_ne (m : List Host.Cell) {a b : Nat} (v : Byte) (h : b ≠ a) :
    Memory.find (Memory.insert m a v) b = Memory.find m b := by
  induction m with
  | nil => simp [Memory.insert, Memory.find, Ne.symm h]
  | cons c rest ih =>
    obtain ⟨k, w⟩ := c
    unfold Memory.insert
    split <;> simp [Memory.find, ih, Ne.symm h]

theorem find_insert_erased (m : List Host.Cell) (a : Nat) (v : Byte) :
    Memory.find (Memory.insert (Memory.erase m a) a v) a = some v := by
  induction m with
  | nil => simp [Memory.erase, Memory.insert, Memory.find]
  | cons c rest ih =>
    obtain ⟨k, w⟩ := c
    by_cases hk : k = a
    · simp [Memory.erase, hk, ih]
    · simp only [Memory.erase, hk, if_false, Memory.insert]
      split <;> simp [Memory.find, hk, ih]

/-- R42: after a write the cell is set to the byte, and every other cell is as it was. -/
@[simp] theorem find_write (m : List Host.Cell) (a b : Nat) (v : Byte) :
    Memory.find (Memory.write m a v) b = if b = a then some v else Memory.find m b := by
  unfold Memory.write
  split
  · subst b
    exact find_insert_erased m a v
  · rw [find_insert_ne _ _ (by assumption), find_erase_ne _ (by assumption)]

/-- R42, R53: a read returns the byte last written to its address, and a write leaves every other address alone. -/
@[simp] theorem read_write (n : Nat) (m : List Host.Cell) (a b : Nat) (v : Byte) :
    Memory.read n (Memory.write m a v) b = if b = a then v else Memory.read n m b := by
  simp only [Memory.read, find_write]
  split <;> rfl

theorem wfFrom_mono {m : List Host.Cell} {lo lo' : Nat} (hle : lo' ≤ lo) (h : Memory.wfFrom lo m = true) :
    Memory.wfFrom lo' m = true := by
  cases m with
  | nil => rfl
  | cons c rest =>
    simp only [Memory.wfFrom, Bool.and_eq_true, decide_eq_true_eq] at h ⊢
    exact ⟨by omega, h.2⟩

theorem wfFrom_erase (m : List Host.Cell) (lo a : Nat) (h : Memory.wfFrom lo m = true) :
    Memory.wfFrom lo (Memory.erase m a) = true := by
  induction m generalizing lo with
  | nil => rfl
  | cons c rest ih =>
    simp only [Memory.wfFrom, Bool.and_eq_true, decide_eq_true_eq] at h
    unfold Memory.erase
    split
    · exact wfFrom_mono (by omega) (ih _ h.2)
    · simp only [Memory.wfFrom, Bool.and_eq_true, decide_eq_true_eq]
      exact ⟨h.1, ih _ h.2⟩

theorem wfFrom_insert_erased (m : List Host.Cell) (lo a : Nat) (v : Byte) (hlo : lo ≤ a)
    (h : Memory.wfFrom lo m = true) : Memory.wfFrom lo (Memory.insert (Memory.erase m a) a v) = true := by
  induction m generalizing lo with
  | nil => simp [Memory.erase, Memory.insert, Memory.wfFrom, hlo]
  | cons c rest ih =>
    obtain ⟨k, w⟩ := c
    simp only [Memory.wfFrom, Bool.and_eq_true, decide_eq_true_eq] at h
    by_cases hk : k = a
    · simp only [Memory.erase, hk, if_true]
      exact ih lo hlo (wfFrom_mono (by omega) h.2)
    · simp only [Memory.erase, hk, if_false, Memory.insert]
      split
      · simp only [Memory.wfFrom, Bool.and_eq_true, decide_eq_true_eq]
        exact ⟨hlo, by omega, wfFrom_erase rest (k + 1) a h.2⟩
      · simp only [Memory.wfFrom, Bool.and_eq_true, decide_eq_true_eq]
        exact ⟨h.1, ih (k + 1) (by omega) h.2⟩

/-- Every write keeps the canonical form. -/
theorem wf_write (m : List Host.Cell) (a : Nat) (v : Byte) (h : Memory.wf m = true) :
    Memory.wf (Memory.write m a v) = true := wfFrom_insert_erased m 0 a v (Nat.zero_le a) h

/-- In canonical form no cell below the bound is set. -/
theorem find_below {m : List Host.Cell} {lo a : Nat} (h : Memory.wfFrom lo m = true) (ha : a < lo) :
    Memory.find m a = none := by
  induction m generalizing lo with
  | nil => rfl
  | cons c rest ih =>
    simp only [Memory.wfFrom, Bool.and_eq_true, decide_eq_true_eq] at h
    simp only [Memory.find]
    rw [if_neg (by omega), ih h.2 (by omega)]

/-- Two memories in canonical form that set the same cells to the same bytes are the same list. -/
theorem wfFrom_ext {m n : List Host.Cell} {lo lo' : Nat} (hm : Memory.wfFrom lo m = true)
    (hn : Memory.wfFrom lo' n = true) (h : ∀ a, Memory.find m a = Memory.find n a) : m = n := by
  induction m generalizing n lo lo' with
  | nil =>
    cases n with
    | nil => rfl
    | cons d _ =>
      have := h d.1
      simp [Memory.find] at this
  | cons c rest ih =>
    obtain ⟨k, v⟩ := c
    cases n with
    | nil =>
      have := h k
      simp [Memory.find] at this
    | cons d rest' =>
      obtain ⟨l, w⟩ := d
      simp only [Memory.wfFrom, Bool.and_eq_true, decide_eq_true_eq] at hm hn
      simp only [Memory.find] at h
      have hkl : k = l := by
        by_contra hne
        rcases Nat.lt_or_gt_of_ne hne with hlt | hgt
        · have := h k
          rw [if_pos rfl, if_neg (by omega), find_below hn.2 (by omega)] at this
          cases this
        · have := h l
          rw [if_neg (by omega), if_pos rfl, find_below hm.2 (by omega)] at this
          cases this
      subst hkl
      have hv := h k
      rw [if_pos rfl, if_pos rfl] at hv
      cases hv
      rw [ih hm.2 hn.2 fun a => ?_]
      by_cases ha : k = a
      · subst ha
        rw [find_below hm.2 (by omega), find_below hn.2 (by omega)]
      · have := h a
        rwa [if_neg ha, if_neg ha] at this

theorem below_erase (m : List Host.Cell) (n a : Nat) (h : Memory.below n m = true) :
    Memory.below n (Memory.erase m a) = true := by
  induction m with
  | nil => rfl
  | cons c rest ih =>
    obtain ⟨k, v⟩ := c
    simp only [Memory.below, List.all_cons, Bool.and_eq_true] at h
    unfold Memory.erase
    split
    · exact ih h.2
    · simp only [Memory.below, List.all_cons, Bool.and_eq_true]
      exact ⟨h.1, ih h.2⟩

theorem below_insert (m : List Host.Cell) (n a : Nat) (v : Byte) (ha : a < n) (h : Memory.below n m = true) :
    Memory.below n (Memory.insert m a v) = true := by
  induction m with
  | nil => simp [Memory.insert, Memory.below, ha]
  | cons c rest ih =>
    obtain ⟨k, w⟩ := c
    simp only [Memory.below, List.all_cons, Bool.and_eq_true] at h
    unfold Memory.insert
    split
    · simp only [Memory.below, List.all_cons, Bool.and_eq_true]
      exact ⟨by simpa using ha, h⟩
    · simp only [Memory.below, List.all_cons, Bool.and_eq_true]
      exact ⟨h.1, ih h.2⟩

/-- A write below MEM_LEN keeps every listed cell below it. -/
theorem below_write (m : List Host.Cell) (n a : Nat) (v : Byte) (ha : a < n) (h : Memory.below n m = true) :
    Memory.below n (Memory.write m a v) = true := below_insert _ n a v ha (below_erase m n a h)

end Sys2Proof.Machine
end

