-- ==== Sys2Proof/Laws/Stack.lean ====
section
/-! SUPPORT. The stack cells above and below S (R48 to R50), what pushed cells read as, and pushed words taken apart and
put together (R45). -/

namespace Sys2Proof.Machine

open Sys2Proof.Spec

theorem cell_injective {a b : Byte} (h : a ≠ b) : cell a ≠ cell b := by
  intro e
  apply h
  apply BitVec.eq_of_toNat_eq
  have := congrArg BitVec.toNat e
  have := a.isLt
  have := b.isLt
  simp only [cell, BitVec.toNat_ofNat] at *
  omega

theorem cell_eq_stackDown (s : State) : cell s.S = stackDown s 0 := by
  unfold stackDown
  congr 1
  apply BitVec.eq_of_toNat_eq
  have := s.S.isLt
  simp only [BitVec.toNat_ofNat]
  omega

/-- After a push, S points one cell lower. -/
theorem stackDown_afterPush (s : State) (v : Byte) (k : Nat) (hk : k < 255) :
    stackDown (afterPush s v) k = stackDown s (k + 1) := by
  unfold stackDown
  congr 1
  apply BitVec.eq_of_toNat_eq
  have := s.S.isLt
  simp only [afterPush_S, BitVec.toNat_ofInt, BitVec.toNat_ofNat]
  push_cast
  omega

/-- After a pop, S points one cell higher. -/
theorem stackUp_afterPop (s : State) (k : Nat) : stackUp (afterPop s) k = stackUp s (k + 1) := by
  unfold stackUp
  congr 1
  apply BitVec.eq_of_toNat_eq
  simp [poppedS]
  omega

/-- Two cells at different depths differ. -/
theorem stackDown_ne (s : State) {j k : Nat} (hj : j < 256) (hk : k < 256) (h : j ≠ k) :
    stackDown s j ≠ stackDown s k := by
  unfold stackDown
  apply cell_injective
  intro e
  apply h
  have := congrArg BitVec.toNat e
  have := s.S.isLt
  simp only [BitVec.toNat_ofNat] at *
  omega

/-- Where S has gone down by `j`, the cell `k` above it is the cell `j - k` below the old S. -/
theorem stackUp_eq_stackDown (s t : State) (j k : Nat) (hj : j < 256)
    (h : t.S = BitVec.ofNat 8 (s.S.toNat + 256 - j)) (hkj : k ≤ j) : stackUp t k = stackDown s (j - k) := by
  unfold stackUp stackDown
  congr 1
  apply BitVec.eq_of_toNat_eq
  rw [h]
  have := s.S.isLt
  simp
  omega

/-- R49: the pushed cell holds the byte, every other address what it held. -/
theorem byteAt_afterPush (s : State) (hd : s.NoDevices) (v : Byte) (a : Addr) :
    byteAt (afterPush s v) a = if a = cell s.S then v else byteAt s a := by
  simp only [byteAt, State.memByte, afterPush, afterWrite, show s.cfg.ioRegion = [] from hd, List.not_mem_nil, if_false, read_write,
    BitVec.toNat_eq]

/-- With no device every read returns the memory's byte. -/
theorem busByte_noDevices {s : State} (hd : s.NoDevices) (a : Addr) : s.busByte a = byteAt s a := by
  simp [State.busByte, show s.cfg.ioRegion = [] from hd, byteAt]

theorem popByte_noDevices {s : State} (hd : s.NoDevices) : popByte s = byteAt s (stackUp s 1) :=
  busByte_noDevices hd _

/-- R45: a word pushed high byte first comes back. -/
theorem word_hiByte_loByte (w : Addr) : word (hiByte w) (loByte w) = w := by
  apply BitVec.eq_of_toNat_eq
  rw [hiByte_eq, loByte_eq]
  have := w.isLt
  simp [word]
  omega

/-- The two bytes that JSR and BRK push. -/
theorem bytes_of_add (w : Addr) (k : Nat) :
    hiByte (w + BitVec.ofNat 16 k) = BitVec.ofNat 8 ((w.toNat + k) % 65536 / 256) ∧
      loByte (w + BitVec.ofNat 16 k) = BitVec.ofNat 8 ((w.toNat + k) % 65536 % 256) := by
  rw [hiByte_eq, loByte_eq, addr_add_ofNat]
  refine ⟨by simp, ?_⟩
  apply BitVec.eq_of_toNat_eq
  simp

/-- R28: the two bits forced to 1 by a push are forced to 0 by a pull. -/
theorem restoreByte_pushByte (p : Byte) : restoreByte (pushByte p) = restoreByte p := by
  apply flags_ext
  intro f
  simp only [restoreByte, pushByte, getFlag_packP]
  cases f <;> simp

/-- A push that succeeds leaves `afterPush`. -/
theorem push_inv {v : Byte} {s u : State} (h : push v s = .ok () u) : u = afterPush s v := by
  by_cases hr : (cell s.S).toNat < s.cfg.memLen
  · rw [push_ok hr] at h
    cases h
    rfl
  · rw [push_error (Nat.not_lt.mp hr)] at h
    cases h

theorem pushWord_inv {w : Addr} {s u : State} (h : pushWord w s = .ok () u) :
    u = afterPush (afterPush s (hiByte w)) (loByte w) := by
  unfold pushWord at h
  rw [bind_run] at h
  split at h
  · rename_i a t hp
    rw [push_inv hp] at h
    exact push_inv h
  · cases h

end Sys2Proof.Machine
end

