-- ==== Sys2Proof/Laws/Bus.lean ====
section
/-! SUPPORT. The Bus events of an operation (R59): replaying them, and which accesses they are, in order (R86). -/

namespace Sys2Proof.Machine

open Sys2Proof.Spec

/-- Replaying two records one after the other. -/
theorem replay_append (c : Config) (n1 n2 h : List BusEvent) (m : List Host.Cell) :
    replay c h (n1 ++ n2) m = (replay c h n1 m).bind (replay c (n1.reverse ++ h) n2) := by
  induction n1 generalizing h m with
  | nil => rfl
  | cons e rest ih =>
    cases e with
    | read a v =>
      simp only [List.cons_append, replay]
      by_cases hv : v = (if a ∈ c.ioRegion then Config.drawIo h a else Memory.read c.launch m a.toNat)
      · rw [if_pos hv, if_pos hv, ih]
        simp
      · rw [if_neg hv, if_neg hv]
        rfl
    | write a v =>
      simp only [List.cons_append, replay]
      rw [ih]
      simp

/-- From `s` to `t` the Bus events are the accesses `ops`, in order. -/
def Logged (s t : State) (ops : List (Bool × Addr)) : Prop :=
  ∃ new : List BusEvent, t.bus = new.reverse ++ s.bus ∧ new.map BusEvent.access = ops

theorem Logged.trans {s t u : State} {a b : List (Bool × Addr)} (h : Logged s t a) (k : Logged t u b) :
    Logged s u (a ++ b) := by
  obtain ⟨n1, h1, h2⟩ := h
  obtain ⟨n2, k1, k2⟩ := k
  exact ⟨n1 ++ n2, by rw [k1, h1]; simp, by simp [h2, k2]⟩

/-- Only the record counts. -/
theorem Logged.of_bus {s t u : State} {a : List (Bool × Addr)} (h : Logged s t a) (hu : u.bus = t.bus) : Logged s u a := by
  obtain ⟨n, h1, h2⟩ := h
  exact ⟨n, hu.trans h1, h2⟩

theorem logged_none {s t : State} (h : t.bus = s.bus) : Logged s t [] := ⟨[], by simp [h], rfl⟩
theorem logged_read (s : State) (a : Addr) : Logged s (afterRead s a) [(false, a)] := ⟨[.read a (s.busByte a)], rfl, rfl⟩
theorem logged_write (s : State) (a : Addr) (v : Byte) : Logged s (afterWrite s a v) [(true, a)] :=
  ⟨[.write a v], rfl, rfl⟩
theorem logged_fetch (s : State) : Logged s (afterFetch s) [fetchAt s 0] :=
  ⟨[.read s.PC (s.busByte s.PC)], rfl, by simp [BusEvent.access, fetchAt]⟩

theorem fetchAt_afterFetch (s : State) (k : Nat) : fetchAt (afterFetch s) k = fetchAt s (k + 1) := by
  unfold fetchAt
  congr 1
  apply BitVec.eq_of_toNat_eq
  simp
  omega

theorem logged_fetch2 (s : State) : Logged s (afterFetch (afterFetch s)) [fetchAt s 0, fetchAt s 1] := by
  have h := (logged_fetch s).trans (logged_fetch (afterFetch s))
  rw [fetchAt_afterFetch] at h
  exact h

theorem logged_read2 (s : State) (p q : Addr) : Logged s (afterRead (afterRead s p) q) [(false, p), (false, q)] :=
  (logged_read s p).trans (logged_read _ q)

theorem logged_push (s : State) (v : Byte) : Logged s (afterPush s v) [(true, stackDown s 0)] := by
  rw [← cell_eq_stackDown]
  exact ⟨[.write (cell s.S) v], rfl, rfl⟩

theorem logged_push2 (s : State) (v w : Byte) :
    Logged s (afterPush (afterPush s v) w) [(true, stackDown s 0), (true, stackDown s 1)] := by
  have h := (logged_push s v).trans (logged_push _ w)
  rw [stackDown_afterPush _ _ _ (by decide)] at h
  exact h

theorem logged_push3 (s : State) (v w x : Byte) :
    Logged s (afterPush (afterPush (afterPush s v) w) x)
      [(true, stackDown s 0), (true, stackDown s 1), (true, stackDown s 2)] := by
  have h := (logged_push s v).trans (logged_push2 _ w x)
  rw [stackDown_afterPush _ _ _ (by decide), stackDown_afterPush _ _ _ (by decide)] at h
  exact h

theorem logged_pop (s : State) : Logged s (afterPop s) [(false, stackUp s 1)] :=
  ⟨[.read (cell (poppedS s)) (popByte s)], rfl, rfl⟩

theorem logged_pop2 (s : State) : Logged s (afterPop (afterPop s)) [(false, stackUp s 1), (false, stackUp s 2)] := by
  have h := (logged_pop s).trans (logged_pop _)
  rw [stackUp_afterPop] at h
  exact h

theorem logged_pop3 (s : State) :
    Logged s (afterPop (afterPop (afterPop s))) [(false, stackUp s 1), (false, stackUp s 2), (false, stackUp s 3)] := by
  have h := (logged_pop s).trans (logged_pop2 _)
  rw [stackUp_afterPop, stackUp_afterPop] at h
  exact h

/-- The first operand byte, as the fetch reads it. -/
theorem operand_zero {s : State} (h : s.NoDevices) : s.busByte s.PC = operand s 0 := by
  rw [busByte_noDevices h]
  simp [operand]

/-- And the second. -/
theorem operand_one {s : State} (h : s.NoDevices) : (afterFetch s).busByte (afterFetch s).PC = operand s 1 := by
  rw [busByte_noDevices (s := afterFetch s) h]
  rfl

/-- R86: res(mode): GetAddr answers the effective address by the mode's Bus operations. -/
theorem getAddr_logged {s : State} (hf : s.FullMemory) (hd : s.NoDevices) (m : Mode) (hm : Mode.hasAddr m = true) :
    ∃ t, getAddr m s = .ok (effAddr m s) t ∧ Logged s t (resolverOps m s) := by
  have rd : ∀ t : State, t.cfg = s.cfg → t.mem = s.mem → ∀ a, t.busByte a = byteAt s a := fun t h1 h2 a => by
    rw [busByte_noDevices (by rw [State.NoDevices, h1]; exact hd), byteAt, State.memByte, h1, h2]
    rfl
  cases m with
  | implied | accumulator | immediate | relative => cases hm
  | zeroPage =>
    rw [getAddr_zeroPage hf, operand_zero hd]
    exact ⟨_, rfl, logged_fetch s⟩
  | zeroPageX =>
    rw [getAddr_zeroPageX hf, operand_zero hd]
    exact ⟨_, rfl, logged_fetch s⟩
  | zeroPageY =>
    rw [getAddr_zeroPageY hf, operand_zero hd]
    exact ⟨_, rfl, logged_fetch s⟩
  | absolute =>
    rw [getAddr_absolute hf, operand_zero hd, operand_one hd]
    exact ⟨_, rfl, logged_fetch2 s⟩
  | absoluteX =>
    rw [getAddr_absoluteX hf, operand_zero hd, operand_one hd]
    exact ⟨_, rfl, logged_fetch2 s⟩
  | absoluteY =>
    rw [getAddr_absoluteY hf, operand_zero hd, operand_one hd]
    exact ⟨_, rfl, logged_fetch2 s⟩
  | indirect =>
    rw [getAddr_indirect hf _ _ _ rfl rfl rfl, operand_zero hd, operand_one hd,
      rd (afterRead (afterFetch (afterFetch s)) _) rfl rfl, rd (afterFetch (afterFetch s)) rfl rfl]
    exact ⟨_, rfl, (logged_fetch2 s).trans (logged_read2 _ _ _)⟩
  | indexedIndirect =>
    rw [getAddr_indexedIndirect hf _ rfl, operand_zero hd, rd (afterRead (afterFetch s) _) rfl rfl,
      rd (afterFetch s) rfl rfl]
    exact ⟨_, rfl, (logged_fetch s).trans (logged_read2 _ _ _)⟩
  | indirectIndexed =>
    rw [getAddr_indirectIndexed hf _ rfl, operand_zero hd, rd (afterRead (afterFetch s) _) rfl rfl,
      rd (afterFetch s) rfl rfl]
    exact ⟨_, rfl, (logged_fetch s).trans (logged_read2 _ _ _)⟩

/-- GetData adds one read at the effective address. -/
theorem getData_logged {s : State} (hf : s.FullMemory) (hd : s.NoDevices) (m : Mode) (hm : Mode.hasAddr m = true) :
    ∃ v t, getData m s = .ok v t ∧ Logged s t (resolverOps m s ++ [(false, effAddr m s)]) := by
  obtain ⟨t, ht, hl⟩ := getAddr_logged hf hd m hm
  have hc := (fetches_getAddr _ _ _ _ ht).cfg
  exact ⟨_, _, by rw [getData_eq hm, bind_ok ht, memRead_ok (inRange (by rw [State.FullMemory, hc]; exact hf) _)],
    hl.trans (logged_read _ _)⟩

end Sys2Proof.Machine
end

