-- ==== Sys2Proof/Laws/Classes.lean ====
section
/-! SUPPORT. When a row is of one of the instruction classes of R67: from the shape of its operation to `ReadClass`,
`WriteClass`, `ModifyClass` or `RegisterOnly`. -/

namespace Sys2Proof.Machine

open Sys2Proof.Spec

theorem readClass_of (r : Row) (o : Byte → Op Unit) (result : Byte → State → State) (he : r.Encoded)
    (hm : Mode.hasData r.m = true) (hx : ∀ s, exec r.i s = finish (getData r.m >>= o) s)
    (ho : ∀ v t, o v t = .ok () (result v t)) : ReadClass r result := by
  refine ⟨he, fun s => ?_⟩
  have mid : ∀ v t, getData r.m s = .ok v t → exec r.i s = .next (result v t) := fun v t h => by
    rw [hx, finish_ok]
    rw [bind_ok h, ho]
  refine ⟨fun hf => ?_, mid, fun f t h => ⟨range_getData _ hm _ _ _ h, ?_⟩⟩
  · obtain ⟨v, t, h⟩ := getData_full hf hm
    exact ⟨v, t, h, mid v t h⟩
  · rw [hx, finish_error (bind_error h)]

theorem writeClass_of (r : Row) (reg : Reg) (he : r.Encoded) (hm : Mode.hasAddr r.m = true)
    (hx : ∀ s, exec r.i s = finish (store reg r.m) s) : WriteClass r (fun s => s.getReg reg) := by
  refine ⟨he, fun s => ?_⟩
  have same : ∀ ea t, getAddr r.m s = .ok ea t → t.cfg = s.cfg ∧ t.getReg reg = s.getReg reg := fun ea t h => by
    obtain ⟨rd, rfl, -⟩ := fetches_getAddr _ _ _ _ h
    exact ⟨rfl, by cases reg <;> rfl⟩
  have mid : ∀ ea t, getAddr r.m s = .ok ea t → ea.toNat < s.cfg.memLen →
      exec r.i s = .next (afterWrite t ea (s.getReg reg)) := fun v t h hr => by
    rw [hx, finish_ok]
    rw [store, bind_ok h, get_bind_run, (same _ _ h).2, memWrite_ok (by rw [(same _ _ h).1]; exact hr)]
  refine ⟨fun hf => ?_, mid, fun ea t h hr => ?_, fun f t h => ⟨range_getAddr _ hm _ _ _ h, ?_⟩⟩
  · obtain ⟨v, t, h⟩ := getAddr_full hf hm
    exact ⟨v, t, h, mid v t h (inRange hf _)⟩
  · rw [hx, finish_error]
    rw [store, bind_ok h, get_bind_run, memWrite_error (by rw [(same _ _ h).1]; exact hr)]
  · rw [hx, finish_error]
    rw [store, bind_error h]

theorem modifyClass_of (r : Row) (o : Op Unit) (value status : State → Byte → Byte) (he : r.Encoded)
    (hm : Mode.hasAddr r.m = true) (hx : ∀ s, exec r.i s = finish o s) (k : Addr → Byte → Op Unit)
    (hk : o = (getAddr r.m >>= fun ea => memRead ea >>= k ea))
    (hv : ∀ s t : State, t.P = s.P → value t = value s) (hs : ∀ s t : State, t.P = s.P → status t = status s)
    (hok : ∀ ea v s, ea.toNat < s.cfg.memLen →
      k ea v s = .ok () { afterWrite s ea (value s v) with P := status s v }) : ModifyClass r value status := by
  refine ⟨he, fun s => ?_⟩
  have same : ∀ ea t, getAddr r.m s = .ok ea t → t.cfg = s.cfg ∧ t.P = s.P := fun ea t h => by
    obtain ⟨rd, rfl, -⟩ := fetches_getAddr _ _ _ _ h
    exact ⟨rfl, rfl⟩
  have mid : ∀ ea t, getAddr r.m s = .ok ea t → ea.toNat < s.cfg.memLen →
      exec r.i s =
        .next { afterWrite (afterRead t ea) ea (value s (t.busByte ea)) with P := status s (t.busByte ea) } :=
    fun ea t h hr => by
      have hr' : ea.toNat < t.cfg.memLen := by rw [(same _ _ h).1]; exact hr
      rw [hx, finish_ok]
      rw [hk, bind_ok h, bind_ok (memRead_ok hr'), hok _ _ (afterRead t ea) hr',
        hv s (afterRead t ea) (same _ _ h).2, hs s (afterRead t ea) (same _ _ h).2]
  refine ⟨fun hf => ?_, mid, fun ea t h hr => ?_, fun f t h => ⟨range_getAddr _ hm _ _ _ h, ?_⟩⟩
  · obtain ⟨v, t, h⟩ := getAddr_full hf hm
    exact ⟨v, t, h, mid v t h (inRange hf _)⟩
  · rw [hx, finish_error]
    rw [hk, bind_ok h, bind_error (memRead_error (by rw [(same _ _ h).1]; exact hr))]
  · rw [hx, finish_error]
    rw [hk, bind_error h]

theorem registerOnly_of {r : Row} {o : Op Unit} {g : State → State} (he : r.Encoded)
    (hx : ∀ s, exec r.i s = finish o s) (ho : ∀ s, o s = .ok () (g s)) : RegisterOnly r g :=
  ⟨he, fun s => by rw [hx, finish_ok (ho s)]⟩

/-- The end of an increment or decrement: write, then the flags. -/
theorem write_then_flags (ea : Addr) (r : Byte) (g : Byte → Byte) (s : State) (hr : ea.toNat < s.cfg.memLen) :
    (memWrite ea r >>= fun _ => Op.update fun s => s.mapP g) s = .ok () { afterWrite s ea r with P := g s.P } := by
  rw [bind_ok (memWrite_ok hr)]
  rfl

/-- The end of a shift in memory: read C, write, then the flags. -/
theorem shift_end (f : Byte → Bool → Byte × Bool) (ea : Addr) (v : Byte) (s : State) (hr : ea.toNat < s.cfg.memLen) :
    ((Op.get fun s => s.flag .C) >>= fun c => memWrite ea (f v c).1 >>= fun _ =>
        Op.update fun s => s.mapP (shiftP (f v c).1 (f v c).2)) s =
      .ok () { afterWrite s ea (f v (getFlag .C s.P)).1 with
        P := shiftP (f v (getFlag .C s.P)).1 (f v (getFlag .C s.P)).2 s.P } := by
  rw [get_bind_run, bind_ok (memWrite_ok hr)]
  rfl

/-- R125: a branch in range. -/
theorem branch_ok (f : Flag) (b : Bool) (s : State) (hr : s.PC.toNat < s.cfg.memLen) :
    branch f b s = .ok () { afterFetch s with
      PC := (if getFlag f s.P = b then BitVec.ofInt 16 (((s.PC.toNat + 1 : Nat) : Int) + (s.busByte s.PC).toInt)
        else BitVec.ofNat 16 (s.PC.toNat + 1)) } := by
  rw [branch, getData, bind_ok (fetch_ok hr), update_run]
  simp only [flag_eq, afterFetch_P, toNat_sext_add]
  split
  · have : BitVec.ofInt 16 (((afterFetch s).PC.toNat : Int) + (s.busByte s.PC).toInt) =
        BitVec.ofInt 16 (((s.PC.toNat + 1 : Nat) : Int) + (s.busByte s.PC).toInt) := by
      apply BitVec.eq_of_toNat_eq
      simp [BitVec.toNat_ofInt]
    rw [this]
  · rfl

end Sys2Proof.Machine
end

