-- ==== Sys2Proof/Laws/Frame.lean ====
section
/-! SUPPORT. What one instruction can do, said once: every state it leaves is reached from the state before it by reads,
fetches, and the register, flag and memory writes that R22, R23, R31 and R86 allow it. A relation between states that is
reflexive, transitive and kept by those changes holds across every instruction (`exec_respects`); frames and invariants
are instances of it. -/

namespace Sys2Proof.Machine

open Sys2Proof.Spec

/-- The state an operation leaves, whether or not it ends in a fault. -/
def Op.endState {α : Type} (o : Op α) (s : State) : State :=
  match o s with
  | .ok _ t => t
  | .error _ t => t

/-- Every state an operation leaves is related to the state before it. -/
def Op.Keeps {α : Type} (R : State → State → Prop) (o : Op α) : Prop := ∀ s, R s (o.endState s)

/-- What an instruction may write. -/
structure Footprint where
  reg : Reg → Bool
  flag : Flag → Bool
  restore : Bool
  mem : Bool

/-- The footprint of an instruction, from R22, R23, R31 and R86. -/
def footprint (i : Instr) : Footprint :=
  { reg := fun r => writesReg r i, flag := fun f => writesFlag f i, restore := restoresP i, mem := storesToMemory i }

/-- `g` writes at most the flags in `fs`. -/
def OnlyFlags (fs : Flag → Bool) (g : Byte → Byte) : Prop := ∀ p f, fs f = false → getFlag f (g p) = getFlag f p

/-- A relation that holds across every change the footprint allows. -/
structure Respects (R : State → State → Prop) (F : Footprint) : Prop where
  refl : ∀ s, R s s
  trans : ∀ {s t u}, R s t → R t u → R s u
  read : ∀ s a, R s (afterRead s a)
  pc : ∀ s p, R s { s with PC := p }
  reg : ∀ r, F.reg r = true → ∀ s v, R s (s.setReg r v)
  flags : ∀ g, OnlyFlags F.flag g → ∀ s, R s (s.mapP g)
  restore : F.restore = true → ∀ s v, R s (s.mapP fun _ => restoredP v)
  write : F.mem = true → ∀ s a v, a.toNat < s.cfg.memLen → R s (afterWrite s a v)

variable {R : State → State → Prop} {F : Footprint} {α β : Type}

theorem endState_bind (o : Op α) (k : α → Op β) (s : State) :
    (o >>= k).endState s = match o s with
      | .ok a t => (k a).endState t
      | .error _ t => t := by
  simp only [Op.endState, bind_run]
  cases o s <;> rfl

theorem Op.Keeps.bind (h : Respects R F) {o : Op α} {k : α → Op β} (ho : o.Keeps R) (hk : ∀ a, (k a).Keeps R) :
    (o >>= k).Keeps R := by
  intro s
  rw [endState_bind]
  have hs := ho s
  simp only [Op.endState] at hs
  cases hrun : o s with
  | ok a t => rw [hrun] at hs; exact h.trans hs (hk a t)
  | error e t => rw [hrun] at hs; exact hs

theorem pure_keeps (h : Respects R F) (a : α) : (Pure.pure a : Op α).Keeps R := fun s => h.refl s
theorem get_keeps (h : Respects R F) (g : State → α) : (Op.get g).Keeps R := fun s => h.refl s
theorem fail_keeps (h : Respects R F) (e : Fault) : (Op.fail e : Op α).Keeps R := fun s => h.refl s
theorem setPC_keeps (h : Respects R F) (p : Addr) : (setPC p).Keeps R := fun s => h.pc s p

theorem memRead_keeps (h : Respects R F) (a : Addr) : (memRead a).Keeps R := by
  intro s
  by_cases hr : a.toNat < s.cfg.memLen
  · simpa only [Op.endState, memRead_ok hr] using h.read s a
  · simpa only [Op.endState, memRead_error (Nat.not_lt.mp hr)] using h.refl s

theorem memWrite_keeps (h : Respects R F) (hm : F.mem = true) (a : Addr) (v : Byte) : (memWrite a v).Keeps R := by
  intro s
  by_cases hr : a.toNat < s.cfg.memLen
  · simpa only [Op.endState, memWrite_ok hr] using h.write hm s a v hr
  · simpa only [Op.endState, memWrite_error (Nat.not_lt.mp hr)] using h.refl s

theorem setReg_keeps (h : Respects R F) {r : Reg} (hr : F.reg r = true) (v : Byte) :
    (Op.update fun s => s.setReg r v).Keeps R := fun s => h.reg r hr s v

theorem fetch_keeps (h : Respects R F) : fetch.Keeps R :=
  (get_keeps h _).bind h fun _ => (memRead_keeps h _).bind h fun _ => (setPC_keeps h _).bind h fun _ => pure_keeps h _

theorem fetchWord_keeps (h : Respects R F) : fetchWord.Keeps R :=
  (fetch_keeps h).bind h fun _ => (fetch_keeps h).bind h fun _ => pure_keeps h _

theorem readWordAt_keeps (h : Respects R F) (p q : Addr) : (readWordAt p q).Keeps R :=
  (memRead_keeps h _).bind h fun _ => (memRead_keeps h _).bind h fun _ => pure_keeps h _

theorem push_keeps (h : Respects R F) (hm : F.mem = true) (hs : F.reg .S = true) (v : Byte) : (push v).Keeps R :=
  (get_keeps h _).bind h fun _ => (memWrite_keeps h hm _ _).bind h fun _ => setReg_keeps h hs _

theorem pop_keeps (h : Respects R F) (hs : F.reg .S = true) : pop.Keeps R :=
  (get_keeps h _).bind h fun _ => (setReg_keeps h hs _).bind h fun _ => memRead_keeps h _

theorem pushWord_keeps (h : Respects R F) (hm : F.mem = true) (hs : F.reg .S = true) (w : Addr) :
    (pushWord w).Keeps R := (push_keeps h hm hs _).bind h fun _ => push_keeps h hm hs _

theorem popWord_keeps (h : Respects R F) (hs : F.reg .S = true) : popWord.Keeps R :=
  (pop_keeps h hs).bind h fun _ => (pop_keeps h hs).bind h fun _ => pure_keeps h _

theorem getAddr_keeps (h : Respects R F) (m : Mode) : (getAddr m).Keeps R := by
  cases m with
  | implied => exact fail_keeps h _
  | accumulator => exact fail_keeps h _
  | immediate => exact fail_keeps h _
  | relative => exact fail_keeps h _
  | zeroPage => exact (fetch_keeps h).bind h fun _ => pure_keeps h _
  | zeroPageX => exact (fetch_keeps h).bind h fun _ => (get_keeps h _).bind h fun _ => pure_keeps h _
  | zeroPageY => exact (fetch_keeps h).bind h fun _ => (get_keeps h _).bind h fun _ => pure_keeps h _
  | absolute => exact fetchWord_keeps h
  | absoluteX => exact (fetchWord_keeps h).bind h fun _ => (get_keeps h _).bind h fun _ => pure_keeps h _
  | absoluteY => exact (fetchWord_keeps h).bind h fun _ => (get_keeps h _).bind h fun _ => pure_keeps h _
  | indirect => exact (fetch_keeps h).bind h fun _ => (fetch_keeps h).bind h fun _ => readWordAt_keeps h _ _
  | indexedIndirect => exact (fetch_keeps h).bind h fun _ => (get_keeps h _).bind h fun _ => readWordAt_keeps h _ _
  | indirectIndexed =>
    exact (fetch_keeps h).bind h fun _ => (readWordAt_keeps h _ _).bind h fun _ =>
      (get_keeps h _).bind h fun _ => pure_keeps h _

theorem getData_keeps (h : Respects R F) (m : Mode) : (getData m).Keeps R := by
  by_cases hm : Mode.hasAddr m = true
  · rw [getData_eq hm]
    exact (getAddr_keeps h m).bind h fun _ => memRead_keeps h _
  · cases m <;> first | exact fetch_keeps h | exact fail_keeps h _ | exact absurd rfl hm

/-- An update of one register and of some flags. -/
theorem updateRegP_keeps (h : Respects R F) {r : Reg} (hr : F.reg r = true) {v : State → Byte} {g : State → Byte → Byte}
    (hg : ∀ s, OnlyFlags F.flag (g s)) : (Op.update fun s => (s.setReg r (v s)).mapP (g s)).Keeps R :=
  fun s => h.trans (h.reg r hr s (v s)) (h.flags (g s) (hg s) _)

/-- An update of some flags. -/
theorem updateP_keeps (h : Respects R F) {g : State → Byte → Byte} (hg : ∀ s, OnlyFlags F.flag (g s)) :
    (Op.update fun s => s.mapP (g s)).Keeps R := fun s => h.flags (g s) (hg s) s

theorem setZN_onlyFlags {fs : Flag → Bool} (hz : fs .Z = true) (hn : fs .N = true) (v : Byte) : OnlyFlags fs (setZN v) := by
  intro p f hf
  cases f <;> simp_all

theorem putFlag_onlyFlags {fs : Flag → Bool} {f : Flag} (hf : fs f = true) (b : Bool) : OnlyFlags fs (putFlag f b) := by
  intro p f' hf'
  have : f' ≠ f := fun e => by rw [e, hf] at hf'; cases hf'
  simp [this]

theorem shiftP_onlyFlags {fs : Flag → Bool} (hc : fs .C = true) (hz : fs .Z = true) (hn : fs .N = true) (r : Byte)
    (c : Bool) : OnlyFlags fs (shiftP r c) := by
  intro p f hf
  cases f <;> simp_all [shiftP]

theorem compareP_onlyFlags {fs : Flag → Bool} (hc : fs .C = true) (hz : fs .Z = true) (hn : fs .N = true) (r m : Byte) :
    OnlyFlags fs (compareP r m) := by
  intro p f hf
  cases f <;> simp_all [compareP]

theorem bitP_onlyFlags {fs : Flag → Bool} (hv : fs .V = true) (hz : fs .Z = true) (hn : fs .N = true) (a m : Byte) :
    OnlyFlags fs (bitP a m) := by
  intro p f hf
  cases f <;> simp_all [bitP]

theorem aluP_onlyFlags {fs : Flag → Bool} (hc : fs .C = true) (hv : fs .V = true) (hz : fs .Z = true) (hn : fs .N = true)
    (o : AluOut) : OnlyFlags fs (aluP o) := by
  intro p f hf
  cases f <;> simp_all [aluP]

/-! ### The shared operations of the families -/

theorem load_keeps (h : Respects R F) (r : Reg) (m : Mode) (hr : F.reg r = true) (hz : F.flag .Z = true)
    (hn : F.flag .N = true) : (load r m).Keeps R :=
  (getData_keeps h m).bind h fun v => updateRegP_keeps h hr fun _ => setZN_onlyFlags hz hn v

theorem store_keeps (h : Respects R F) (r : Reg) (m : Mode) (hm : F.mem = true) : (store r m).Keeps R :=
  (getAddr_keeps h m).bind h fun _ => (get_keeps h _).bind h fun _ => memWrite_keeps h hm _ _

theorem transfer_keeps (h : Respects R F) (a b : Reg) (hb : F.reg b = true) (hz : F.flag .Z = true)
    (hn : F.flag .N = true) : (transfer a b).Keeps R :=
  updateRegP_keeps h hb fun _ => setZN_onlyFlags hz hn _

theorem transferToS_keeps (h : Respects R F) (hs : F.reg .S = true) : transferToS.Keeps R := fun s => h.reg .S hs s s.X

theorem writeFlag_keeps (h : Respects R F) (f : Flag) (b : Bool) (hf : F.flag f = true) : (writeFlag f b).Keeps R :=
  updateP_keeps h fun _ => putFlag_onlyFlags hf b

theorem modifyMem_keeps (h : Respects R F) (m : Mode) (g : Byte → Byte) (hm : F.mem = true) (hz : F.flag .Z = true)
    (hn : F.flag .N = true) : (modifyMem m g).Keeps R :=
  (getAddr_keeps h m).bind h fun _ => (memRead_keeps h _).bind h fun _ => (memWrite_keeps h hm _ _).bind h fun _ =>
    updateP_keeps h fun _ => setZN_onlyFlags hz hn _

theorem modifyReg_keeps (h : Respects R F) (r : Reg) (g : Byte → Byte) (hr : F.reg r = true) (hz : F.flag .Z = true)
    (hn : F.flag .N = true) : (modifyReg r g).Keeps R :=
  updateRegP_keeps h hr fun _ => setZN_onlyFlags hz hn _

theorem compare_keeps (h : Respects R F) (r : Reg) (m : Mode) (hc : F.flag .C = true) (hz : F.flag .Z = true)
    (hn : F.flag .N = true) : (compare r m).Keeps R :=
  (getData_keeps h m).bind h fun _ => updateP_keeps h fun _ => compareP_onlyFlags hc hz hn _ _

theorem logical_keeps (h : Respects R F) (g : Byte → Byte → Byte) (m : Mode) (hr : F.reg .A = true)
    (hz : F.flag .Z = true) (hn : F.flag .N = true) : (logical g m).Keeps R :=
  (getData_keeps h m).bind h fun _ => updateRegP_keeps h hr fun _ => setZN_onlyFlags hz hn _

theorem shiftAcc_keeps (h : Respects R F) (g : Byte → Bool → Byte × Bool) (hr : F.reg .A = true) (hc : F.flag .C = true)
    (hz : F.flag .Z = true) (hn : F.flag .N = true) : (shiftAcc g).Keeps R :=
  updateRegP_keeps h hr fun _ => shiftP_onlyFlags hc hz hn _ _

theorem shiftMem_keeps (h : Respects R F) (m : Mode) (g : Byte → Bool → Byte × Bool) (hm : F.mem = true)
    (hc : F.flag .C = true) (hz : F.flag .Z = true) (hn : F.flag .N = true) : (shiftMem m g).Keeps R :=
  (getAddr_keeps h m).bind h fun _ => (memRead_keeps h _).bind h fun _ => (get_keeps h _).bind h fun _ =>
    (memWrite_keeps h hm _ _).bind h fun _ => updateP_keeps h fun _ => shiftP_onlyFlags hc hz hn _ _

theorem branch_keeps (h : Respects R F) (f : Flag) (b : Bool) : (branch f b).Keeps R :=
  (getData_keeps h .relative).bind h fun off s => by
    show R s (if s.flag f = b then _ else s)
    split
    · exact h.pc s _
    · exact h.refl s

theorem jump_keeps (h : Respects R F) (m : Mode) : (jump m).Keeps R :=
  (getAddr_keeps h m).bind h fun _ => setPC_keeps h _

theorem jumpSubroutine_keeps (h : Respects R F) (hm : F.mem = true) (hs : F.reg .S = true) : jumpSubroutine.Keeps R :=
  (get_keeps h _).bind h fun _ => (pushWord_keeps h hm hs _).bind h fun _ => (getAddr_keeps h _).bind h fun _ =>
    setPC_keeps h _

theorem returnSubroutine_keeps (h : Respects R F) (hs : F.reg .S = true) : returnSubroutine.Keeps R :=
  (popWord_keeps h hs).bind h fun _ => setPC_keeps h _

theorem pushA_keeps (h : Respects R F) (hm : F.mem = true) (hs : F.reg .S = true) : pushA.Keeps R :=
  (get_keeps h _).bind h fun _ => push_keeps h hm hs _

theorem pullA_keeps (h : Respects R F) (hs : F.reg .S = true) (ha : F.reg .A = true) (hz : F.flag .Z = true)
    (hn : F.flag .N = true) : pullA.Keeps R :=
  (pop_keeps h hs).bind h fun _ => updateRegP_keeps h ha fun _ => setZN_onlyFlags hz hn _

theorem pushStatus_keeps (h : Respects R F) (hm : F.mem = true) (hs : F.reg .S = true) : pushStatus.Keeps R :=
  (get_keeps h _).bind h fun _ => push_keeps h hm hs _

theorem restoreStatus_keeps (h : Respects R F) (hp : F.restore = true) (v : Byte) :
    (Op.update fun s => s.mapP fun _ => restoredP v).Keeps R := fun s => h.restore hp s v

theorem pullStatus_keeps (h : Respects R F) (hs : F.reg .S = true) (hp : F.restore = true) : pullStatus.Keeps R :=
  (pop_keeps h hs).bind h fun _ => restoreStatus_keeps h hp _

theorem bitTest_keeps (h : Respects R F) (m : Mode) (hv : F.flag .V = true) (hz : F.flag .Z = true)
    (hn : F.flag .N = true) : (bitTest m).Keeps R :=
  (getData_keeps h m).bind h fun _ => updateP_keeps h fun _ => bitP_onlyFlags hv hz hn _ _

theorem addCarry_keeps (h : Respects R F) (m : Mode) (ha : F.reg .A = true) (hc : F.flag .C = true) (hv : F.flag .V = true)
    (hz : F.flag .Z = true) (hn : F.flag .N = true) : (addCarry m).Keeps R :=
  (getData_keeps h m).bind h fun _ => updateRegP_keeps h ha fun _ => aluP_onlyFlags hc hv hz hn _

theorem subBorrow_keeps (h : Respects R F) (m : Mode) (ha : F.reg .A = true) (hc : F.flag .C = true)
    (hv : F.flag .V = true) (hz : F.flag .Z = true) (hn : F.flag .N = true) : (subBorrow m).Keeps R :=
  (getData_keeps h m).bind h fun _ => updateRegP_keeps h ha fun _ => aluP_onlyFlags hc hv hz hn _

theorem trapEntry_keeps (h : Respects R F) (hm : F.mem = true) (hs : F.reg .S = true) : trapEntry.Keeps R :=
  (get_keeps h _).bind h fun _ => (pushWord_keeps h hm hs _).bind h fun _ => (get_keeps h _).bind h fun _ =>
    (push_keeps h hm hs _).bind h fun _ => (readWordAt_keeps h _ _).bind h fun _ => setPC_keeps h _

theorem trapReturn_keeps (h : Respects R F) (hs : F.reg .S = true) (hp : F.restore = true) : trapReturn.Keeps R :=
  (pop_keeps h hs).bind h fun _ => (restoreStatus_keeps h hp _).bind h fun _ => (popWord_keeps h hs).bind h fun _ =>
    setPC_keeps h _

theorem noOperation_keeps (h : Respects R F) : noOperation.Keeps R := fun s => h.refl s

/-! ### The whole machine -/

/-- The operation of an instruction: what its meaning finishes. -/
def opOf : Instr → Op Unit
  | .ldaImm => load .A .immediate
  | .ldaZp => load .A .zeroPage
  | .ldaZpX => load .A .zeroPageX
  | .ldaAbs => load .A .absolute
  | .ldaAbsX => load .A .absoluteX
  | .ldaAbsY => load .A .absoluteY
  | .ldaIndX => load .A .indexedIndirect
  | .ldaIndY => load .A .indirectIndexed
  | .ldxImm => load .X .immediate
  | .ldxZp => load .X .zeroPage
  | .ldxZpY => load .X .zeroPageY
  | .ldxAbs => load .X .absolute
  | .ldxAbsY => load .X .absoluteY
  | .ldyImm => load .Y .immediate
  | .ldyZp => load .Y .zeroPage
  | .ldyZpX => load .Y .zeroPageX
  | .ldyAbs => load .Y .absolute
  | .ldyAbsX => load .Y .absoluteX
  | .staZp => store .A .zeroPage
  | .staZpX => store .A .zeroPageX
  | .staAbs => store .A .absolute
  | .staAbsX => store .A .absoluteX
  | .staAbsY => store .A .absoluteY
  | .staIndX => store .A .indexedIndirect
  | .staIndY => store .A .indirectIndexed
  | .stxZp => store .X .zeroPage
  | .stxZpY => store .X .zeroPageY
  | .stxAbs => store .X .absolute
  | .styZp => store .Y .zeroPage
  | .styZpX => store .Y .zeroPageX
  | .styAbs => store .Y .absolute
  | .tax => transfer .A .X
  | .tay => transfer .A .Y
  | .txa => transfer .X .A
  | .tya => transfer .Y .A
  | .tsx => transfer .S .X
  | .txs => transferToS
  | .clc => writeFlag .C false
  | .cld => writeFlag .D false
  | .cli => writeFlag .I false
  | .clv => writeFlag .V false
  | .sec => writeFlag .C true
  | .sed => writeFlag .D true
  | .sei => writeFlag .I true
  | .incZp => modifyMem .zeroPage incByte
  | .incZpX => modifyMem .zeroPageX incByte
  | .incAbs => modifyMem .absolute incByte
  | .incAbsX => modifyMem .absoluteX incByte
  | .decZp => modifyMem .zeroPage decByte
  | .decZpX => modifyMem .zeroPageX decByte
  | .decAbs => modifyMem .absolute decByte
  | .decAbsX => modifyMem .absoluteX decByte
  | .inx => modifyReg .X incByte
  | .iny => modifyReg .Y incByte
  | .dex => modifyReg .X decByte
  | .dey => modifyReg .Y decByte
  | .cmpImm => compare .A .immediate
  | .cmpZp => compare .A .zeroPage
  | .cmpZpX => compare .A .zeroPageX
  | .cmpAbs => compare .A .absolute
  | .cmpAbsX => compare .A .absoluteX
  | .cmpAbsY => compare .A .absoluteY
  | .cmpIndX => compare .A .indexedIndirect
  | .cmpIndY => compare .A .indirectIndexed
  | .cpxImm => compare .X .immediate
  | .cpxZp => compare .X .zeroPage
  | .cpxAbs => compare .X .absolute
  | .cpyImm => compare .Y .immediate
  | .cpyZp => compare .Y .zeroPage
  | .cpyAbs => compare .Y .absolute
  | .andImm => logical andByte .immediate
  | .andZp => logical andByte .zeroPage
  | .andZpX => logical andByte .zeroPageX
  | .andAbs => logical andByte .absolute
  | .andAbsX => logical andByte .absoluteX
  | .andAbsY => logical andByte .absoluteY
  | .andIndX => logical andByte .indexedIndirect
  | .andIndY => logical andByte .indirectIndexed
  | .oraImm => logical oraByte .immediate
  | .oraZp => logical oraByte .zeroPage
  | .oraZpX => logical oraByte .zeroPageX
  | .oraAbs => logical oraByte .absolute
  | .oraAbsX => logical oraByte .absoluteX
  | .oraAbsY => logical oraByte .absoluteY
  | .oraIndX => logical oraByte .indexedIndirect
  | .oraIndY => logical oraByte .indirectIndexed
  | .eorImm => logical eorByte .immediate
  | .eorZp => logical eorByte .zeroPage
  | .eorZpX => logical eorByte .zeroPageX
  | .eorAbs => logical eorByte .absolute
  | .eorAbsX => logical eorByte .absoluteX
  | .eorAbsY => logical eorByte .absoluteY
  | .eorIndX => logical eorByte .indexedIndirect
  | .eorIndY => logical eorByte .indirectIndexed
  | .aslAcc => shiftAcc aslF
  | .aslZp => shiftMem .zeroPage aslF
  | .aslZpX => shiftMem .zeroPageX aslF
  | .aslAbs => shiftMem .absolute aslF
  | .aslAbsX => shiftMem .absoluteX aslF
  | .lsrAcc => shiftAcc lsrF
  | .lsrZp => shiftMem .zeroPage lsrF
  | .lsrZpX => shiftMem .zeroPageX lsrF
  | .lsrAbs => shiftMem .absolute lsrF
  | .lsrAbsX => shiftMem .absoluteX lsrF
  | .rolAcc => shiftAcc rolF
  | .rolZp => shiftMem .zeroPage rolF
  | .rolZpX => shiftMem .zeroPageX rolF
  | .rolAbs => shiftMem .absolute rolF
  | .rolAbsX => shiftMem .absoluteX rolF
  | .rorAcc => shiftAcc rorF
  | .rorZp => shiftMem .zeroPage rorF
  | .rorZpX => shiftMem .zeroPageX rorF
  | .rorAbs => shiftMem .absolute rorF
  | .rorAbsX => shiftMem .absoluteX rorF
  | .beq => branch .Z true
  | .bne => branch .Z false
  | .bmi => branch .N true
  | .bpl => branch .N false
  | .bcs => branch .C true
  | .bcc => branch .C false
  | .bvc => branch .V false
  | .bvs => branch .V true
  | .jmpAbs => jump .absolute
  | .jmpInd => jump .indirect
  | .jsr => jumpSubroutine
  | .rts => returnSubroutine
  | .pha => pushA
  | .pla => pullA
  | .php => pushStatus
  | .plp => pullStatus
  | .bitZp => bitTest .zeroPage
  | .bitAbs => bitTest .absolute
  | .adcImm => addCarry .immediate
  | .adcZp => addCarry .zeroPage
  | .adcZpX => addCarry .zeroPageX
  | .adcAbs => addCarry .absolute
  | .adcAbsX => addCarry .absoluteX
  | .adcAbsY => addCarry .absoluteY
  | .adcIndX => addCarry .indexedIndirect
  | .adcIndY => addCarry .indirectIndexed
  | .sbcImm => subBorrow .immediate
  | .sbcZp => subBorrow .zeroPage
  | .sbcZpX => subBorrow .zeroPageX
  | .sbcAbs => subBorrow .absolute
  | .sbcAbsX => subBorrow .absoluteX
  | .sbcAbsY => subBorrow .absoluteY
  | .sbcIndX => subBorrow .indexedIndirect
  | .sbcIndY => subBorrow .indirectIndexed
  | .brk => trapEntry
  | .rti => trapReturn
  | .nop => noOperation

theorem exec_eq_finish (i : Instr) (s : State) : exec i s = finish (opOf i) s := by cases i <;> rfl

/-- What one instruction can do: a relation its footprint respects holds of every operation's end. -/
theorem opOf_keeps (i : Instr) (h : Respects R (footprint i)) : (opOf i).Keeps R := by
  cases i
  case ldaImm => exact load_keeps h .A .immediate rfl rfl rfl
  case ldaZp => exact load_keeps h .A .zeroPage rfl rfl rfl
  case ldaZpX => exact load_keeps h .A .zeroPageX rfl rfl rfl
  case ldaAbs => exact load_keeps h .A .absolute rfl rfl rfl
  case ldaAbsX => exact load_keeps h .A .absoluteX rfl rfl rfl
  case ldaAbsY => exact load_keeps h .A .absoluteY rfl rfl rfl
  case ldaIndX => exact load_keeps h .A .indexedIndirect rfl rfl rfl
  case ldaIndY => exact load_keeps h .A .indirectIndexed rfl rfl rfl
  case ldxImm => exact load_keeps h .X .immediate rfl rfl rfl
  case ldxZp => exact load_keeps h .X .zeroPage rfl rfl rfl
  case ldxZpY => exact load_keeps h .X .zeroPageY rfl rfl rfl
  case ldxAbs => exact load_keeps h .X .absolute rfl rfl rfl
  case ldxAbsY => exact load_keeps h .X .absoluteY rfl rfl rfl
  case ldyImm => exact load_keeps h .Y .immediate rfl rfl rfl
  case ldyZp => exact load_keeps h .Y .zeroPage rfl rfl rfl
  case ldyZpX => exact load_keeps h .Y .zeroPageX rfl rfl rfl
  case ldyAbs => exact load_keeps h .Y .absolute rfl rfl rfl
  case ldyAbsX => exact load_keeps h .Y .absoluteX rfl rfl rfl
  case staZp => exact store_keeps h .A .zeroPage rfl
  case staZpX => exact store_keeps h .A .zeroPageX rfl
  case staAbs => exact store_keeps h .A .absolute rfl
  case staAbsX => exact store_keeps h .A .absoluteX rfl
  case staAbsY => exact store_keeps h .A .absoluteY rfl
  case staIndX => exact store_keeps h .A .indexedIndirect rfl
  case staIndY => exact store_keeps h .A .indirectIndexed rfl
  case stxZp => exact store_keeps h .X .zeroPage rfl
  case stxZpY => exact store_keeps h .X .zeroPageY rfl
  case stxAbs => exact store_keeps h .X .absolute rfl
  case styZp => exact store_keeps h .Y .zeroPage rfl
  case styZpX => exact store_keeps h .Y .zeroPageX rfl
  case styAbs => exact store_keeps h .Y .absolute rfl
  case tax => exact transfer_keeps h .A .X rfl rfl rfl
  case tay => exact transfer_keeps h .A .Y rfl rfl rfl
  case txa => exact transfer_keeps h .X .A rfl rfl rfl
  case tya => exact transfer_keeps h .Y .A rfl rfl rfl
  case tsx => exact transfer_keeps h .S .X rfl rfl rfl
  case txs => exact transferToS_keeps h  rfl
  case clc => exact writeFlag_keeps h .C false rfl
  case cld => exact writeFlag_keeps h .D false rfl
  case cli => exact writeFlag_keeps h .I false rfl
  case clv => exact writeFlag_keeps h .V false rfl
  case sec => exact writeFlag_keeps h .C true rfl
  case sed => exact writeFlag_keeps h .D true rfl
  case sei => exact writeFlag_keeps h .I true rfl
  case incZp => exact modifyMem_keeps h .zeroPage incByte rfl rfl rfl
  case incZpX => exact modifyMem_keeps h .zeroPageX incByte rfl rfl rfl
  case incAbs => exact modifyMem_keeps h .absolute incByte rfl rfl rfl
  case incAbsX => exact modifyMem_keeps h .absoluteX incByte rfl rfl rfl
  case decZp => exact modifyMem_keeps h .zeroPage decByte rfl rfl rfl
  case decZpX => exact modifyMem_keeps h .zeroPageX decByte rfl rfl rfl
  case decAbs => exact modifyMem_keeps h .absolute decByte rfl rfl rfl
  case decAbsX => exact modifyMem_keeps h .absoluteX decByte rfl rfl rfl
  case inx => exact modifyReg_keeps h .X incByte rfl rfl rfl
  case iny => exact modifyReg_keeps h .Y incByte rfl rfl rfl
  case dex => exact modifyReg_keeps h .X decByte rfl rfl rfl
  case dey => exact modifyReg_keeps h .Y decByte rfl rfl rfl
  case cmpImm => exact compare_keeps h .A .immediate rfl rfl rfl
  case cmpZp => exact compare_keeps h .A .zeroPage rfl rfl rfl
  case cmpZpX => exact compare_keeps h .A .zeroPageX rfl rfl rfl
  case cmpAbs => exact compare_keeps h .A .absolute rfl rfl rfl
  case cmpAbsX => exact compare_keeps h .A .absoluteX rfl rfl rfl
  case cmpAbsY => exact compare_keeps h .A .absoluteY rfl rfl rfl
  case cmpIndX => exact compare_keeps h .A .indexedIndirect rfl rfl rfl
  case cmpIndY => exact compare_keeps h .A .indirectIndexed rfl rfl rfl
  case cpxImm => exact compare_keeps h .X .immediate rfl rfl rfl
  case cpxZp => exact compare_keeps h .X .zeroPage rfl rfl rfl
  case cpxAbs => exact compare_keeps h .X .absolute rfl rfl rfl
  case cpyImm => exact compare_keeps h .Y .immediate rfl rfl rfl
  case cpyZp => exact compare_keeps h .Y .zeroPage rfl rfl rfl
  case cpyAbs => exact compare_keeps h .Y .absolute rfl rfl rfl
  case andImm => exact logical_keeps h andByte .immediate rfl rfl rfl
  case andZp => exact logical_keeps h andByte .zeroPage rfl rfl rfl
  case andZpX => exact logical_keeps h andByte .zeroPageX rfl rfl rfl
  case andAbs => exact logical_keeps h andByte .absolute rfl rfl rfl
  case andAbsX => exact logical_keeps h andByte .absoluteX rfl rfl rfl
  case andAbsY => exact logical_keeps h andByte .absoluteY rfl rfl rfl
  case andIndX => exact logical_keeps h andByte .indexedIndirect rfl rfl rfl
  case andIndY => exact logical_keeps h andByte .indirectIndexed rfl rfl rfl
  case oraImm => exact logical_keeps h oraByte .immediate rfl rfl rfl
  case oraZp => exact logical_keeps h oraByte .zeroPage rfl rfl rfl
  case oraZpX => exact logical_keeps h oraByte .zeroPageX rfl rfl rfl
  case oraAbs => exact logical_keeps h oraByte .absolute rfl rfl rfl
  case oraAbsX => exact logical_keeps h oraByte .absoluteX rfl rfl rfl
  case oraAbsY => exact logical_keeps h oraByte .absoluteY rfl rfl rfl
  case oraIndX => exact logical_keeps h oraByte .indexedIndirect rfl rfl rfl
  case oraIndY => exact logical_keeps h oraByte .indirectIndexed rfl rfl rfl
  case eorImm => exact logical_keeps h eorByte .immediate rfl rfl rfl
  case eorZp => exact logical_keeps h eorByte .zeroPage rfl rfl rfl
  case eorZpX => exact logical_keeps h eorByte .zeroPageX rfl rfl rfl
  case eorAbs => exact logical_keeps h eorByte .absolute rfl rfl rfl
  case eorAbsX => exact logical_keeps h eorByte .absoluteX rfl rfl rfl
  case eorAbsY => exact logical_keeps h eorByte .absoluteY rfl rfl rfl
  case eorIndX => exact logical_keeps h eorByte .indexedIndirect rfl rfl rfl
  case eorIndY => exact logical_keeps h eorByte .indirectIndexed rfl rfl rfl
  case aslAcc => exact shiftAcc_keeps h aslF rfl rfl rfl rfl
  case aslZp => exact shiftMem_keeps h .zeroPage aslF rfl rfl rfl rfl
  case aslZpX => exact shiftMem_keeps h .zeroPageX aslF rfl rfl rfl rfl
  case aslAbs => exact shiftMem_keeps h .absolute aslF rfl rfl rfl rfl
  case aslAbsX => exact shiftMem_keeps h .absoluteX aslF rfl rfl rfl rfl
  case lsrAcc => exact shiftAcc_keeps h lsrF rfl rfl rfl rfl
  case lsrZp => exact shiftMem_keeps h .zeroPage lsrF rfl rfl rfl rfl
  case lsrZpX => exact shiftMem_keeps h .zeroPageX lsrF rfl rfl rfl rfl
  case lsrAbs => exact shiftMem_keeps h .absolute lsrF rfl rfl rfl rfl
  case lsrAbsX => exact shiftMem_keeps h .absoluteX lsrF rfl rfl rfl rfl
  case rolAcc => exact shiftAcc_keeps h rolF rfl rfl rfl rfl
  case rolZp => exact shiftMem_keeps h .zeroPage rolF rfl rfl rfl rfl
  case rolZpX => exact shiftMem_keeps h .zeroPageX rolF rfl rfl rfl rfl
  case rolAbs => exact shiftMem_keeps h .absolute rolF rfl rfl rfl rfl
  case rolAbsX => exact shiftMem_keeps h .absoluteX rolF rfl rfl rfl rfl
  case rorAcc => exact shiftAcc_keeps h rorF rfl rfl rfl rfl
  case rorZp => exact shiftMem_keeps h .zeroPage rorF rfl rfl rfl rfl
  case rorZpX => exact shiftMem_keeps h .zeroPageX rorF rfl rfl rfl rfl
  case rorAbs => exact shiftMem_keeps h .absolute rorF rfl rfl rfl rfl
  case rorAbsX => exact shiftMem_keeps h .absoluteX rorF rfl rfl rfl rfl
  case beq => exact branch_keeps h .Z true
  case bne => exact branch_keeps h .Z false
  case bmi => exact branch_keeps h .N true
  case bpl => exact branch_keeps h .N false
  case bcs => exact branch_keeps h .C true
  case bcc => exact branch_keeps h .C false
  case bvc => exact branch_keeps h .V false
  case bvs => exact branch_keeps h .V true
  case jmpAbs => exact jump_keeps h .absolute
  case jmpInd => exact jump_keeps h .indirect
  case jsr => exact jumpSubroutine_keeps h  rfl rfl
  case rts => exact returnSubroutine_keeps h  rfl
  case pha => exact pushA_keeps h  rfl rfl
  case pla => exact pullA_keeps h  rfl rfl rfl rfl
  case php => exact pushStatus_keeps h  rfl rfl
  case plp => exact pullStatus_keeps h  rfl rfl
  case bitZp => exact bitTest_keeps h .zeroPage rfl rfl rfl
  case bitAbs => exact bitTest_keeps h .absolute rfl rfl rfl
  case adcImm => exact addCarry_keeps h .immediate rfl rfl rfl rfl rfl
  case adcZp => exact addCarry_keeps h .zeroPage rfl rfl rfl rfl rfl
  case adcZpX => exact addCarry_keeps h .zeroPageX rfl rfl rfl rfl rfl
  case adcAbs => exact addCarry_keeps h .absolute rfl rfl rfl rfl rfl
  case adcAbsX => exact addCarry_keeps h .absoluteX rfl rfl rfl rfl rfl
  case adcAbsY => exact addCarry_keeps h .absoluteY rfl rfl rfl rfl rfl
  case adcIndX => exact addCarry_keeps h .indexedIndirect rfl rfl rfl rfl rfl
  case adcIndY => exact addCarry_keeps h .indirectIndexed rfl rfl rfl rfl rfl
  case sbcImm => exact subBorrow_keeps h .immediate rfl rfl rfl rfl rfl
  case sbcZp => exact subBorrow_keeps h .zeroPage rfl rfl rfl rfl rfl
  case sbcZpX => exact subBorrow_keeps h .zeroPageX rfl rfl rfl rfl rfl
  case sbcAbs => exact subBorrow_keeps h .absolute rfl rfl rfl rfl rfl
  case sbcAbsX => exact subBorrow_keeps h .absoluteX rfl rfl rfl rfl rfl
  case sbcAbsY => exact subBorrow_keeps h .absoluteY rfl rfl rfl rfl rfl
  case sbcIndX => exact subBorrow_keeps h .indexedIndirect rfl rfl rfl rfl rfl
  case sbcIndY => exact subBorrow_keeps h .indirectIndexed rfl rfl rfl rfl rfl
  case brk => exact trapEntry_keeps h  rfl rfl
  case rti => exact trapReturn_keeps h  rfl rfl
  case nop => exact noOperation_keeps h

/-- An instruction always answers a next state: the state its operation leaves, with the fault recorded if there was one. -/
theorem exec_next (i : Instr) (s : State) :
    (∃ t, opOf i s = .ok () t ∧ exec i s = .next t) ∨
      (∃ f t, opOf i s = .error f t ∧ exec i s = .next (t.recordFault f)) := by
  rw [exec_eq_finish]
  unfold finish
  cases h : opOf i s with
  | ok a t => exact .inl ⟨t, rfl, rfl⟩
  | error f t => exact .inr ⟨f, t, rfl, rfl⟩

/-- A relation respected by an instruction's footprint, and kept by recording a fault, holds across the instruction. -/
theorem exec_respects (i : Instr) (h : Respects R (footprint i)) (hf : ∀ s f, R s (s.recordFault f)) {s t : State}
    (hx : exec i s = .next t) : R s t := by
  have hk := opOf_keeps i h s
  unfold Op.endState at hk
  rcases exec_next i s with ⟨u, hu, hn⟩ | ⟨f, u, hu, hn⟩
  · rw [hu] at hk
    rw [hn] at hx
    cases hx
    exact hk
  · rw [hu] at hk
    rw [hn] at hx
    cases hx
    exact h.trans hk (hf u f)

end Sys2Proof.Machine
end

