-- ==== Sys2Proof/Laws/Hidden.lean ====
section
/-! SUPPORT. State that an operation neither reads nor writes: if `φ` changes only P and the decimal parameters, an
operation that does not look at them does from `φ s` exactly what it does from `s`, with `φ` applied to what it leaves. -/

namespace Sys2Proof.Machine

open Sys2Proof.Spec

variable {α β : Type} {φ : State → State}

/-- `φ` applied to the state an operation leaves. -/
def mapResult (φ : State → State) : EStateM.Result Fault State α → EStateM.Result Fault State α
  | .ok a t => .ok a (φ t)
  | .error f t => .error f (φ t)

/-- `o` does not look at what `φ` changes. -/
def Blind (φ : State → State) (o : Op α) : Prop := ∀ s, o (φ s) = mapResult φ (o s)

theorem Blind.bind {o : Op α} {k : α → Op β} (h : Blind φ o) (hk : ∀ a, Blind φ (k a)) : Blind φ (o >>= k) := by
  intro s
  rw [bind_run, bind_run, h s]
  cases o s with
  | ok a t => exact hk a t
  | error f t => rfl

/-- `φ` changes nothing but P and the decimal parameters. -/
structure Hidden (φ : State → State) : Prop where
  pc : ∀ s, (φ s).PC = s.PC
  reg : ∀ s r, (φ s).getReg r = s.getReg r
  len : ∀ s, (φ s).cfg.memLen = s.cfg.memLen
  io : ∀ s, (φ s).cfg.ioRegion = s.cfg.ioRegion
  bus : ∀ s, (φ s).bus = s.bus
  mem : ∀ s, (φ s).mem = s.mem
  launch : ∀ s, (φ s).cfg.launch = s.cfg.launch
  setPC : ∀ s p, φ { s with PC := p } = { φ s with PC := p }
  setReg : ∀ s r v, φ (s.setReg r v) = (φ s).setReg r v
  event : ∀ s e m, φ { s.recordEvent e with mem := m } = { (φ s).recordEvent e with mem := m }

theorem Hidden.busByte (h : Hidden φ) (s : State) (a : Addr) : (φ s).busByte a = s.busByte a := by
  simp [State.busByte, State.memByte, h.io, h.bus, h.mem, h.launch]

theorem Hidden.recordEvent (h : Hidden φ) (s : State) (e : BusEvent) : φ (s.recordEvent e) = (φ s).recordEvent e := by
  have hm := h.event s e s.mem
  rw [← h.mem s] at hm
  have same : ({ s.recordEvent e with mem := (φ s).mem } : State) = s.recordEvent e := by
    rw [h.mem]
    rfl
  rw [same] at hm
  exact hm

theorem blind_pure (a : α) : Blind φ (pure a : Op α) := fun _ => rfl
theorem blind_fail (e : Fault) : Blind φ (Op.fail e : Op α) := fun _ => rfl
theorem blind_get (g : State → α) (h : ∀ s, g (φ s) = g s) : Blind φ (Op.get g) := fun s => by simp [mapResult, h]
theorem blind_update (g : State → State) (h : ∀ s, g (φ s) = φ (g s)) : Blind φ (Op.update g) :=
  fun s => by simp [mapResult, h]
theorem blind_setPC (h : Hidden φ) (p : Addr) : Blind φ (setPC p) := blind_update _ fun s => (h.setPC s p).symm
theorem blind_setReg (h : Hidden φ) (r : Reg) (v : Byte) : Blind φ (Op.update fun s => s.setReg r v) :=
  blind_update _ fun s => (h.setReg s r v).symm
theorem blind_getReg (h : Hidden φ) (r : Reg) : Blind φ (Op.get fun s => s.getReg r) := blind_get _ fun s => h.reg s r
theorem blind_getX (h : Hidden φ) : Blind φ (Op.get State.X) := blind_getReg h .X
theorem blind_getY (h : Hidden φ) : Blind φ (Op.get State.Y) := blind_getReg h .Y

theorem blind_memRead (h : Hidden φ) (a : Addr) : Blind φ (memRead a) := by
  intro s
  unfold memRead
  rw [h.len, h.busByte]
  split
  · rfl
  · simp [mapResult, h.recordEvent]

theorem blind_memWrite (h : Hidden φ) (a : Addr) (v : Byte) : Blind φ (memWrite a v) := by
  intro s
  unfold memWrite
  rw [h.len, h.io, h.mem]
  split
  · rfl
  · split
    · simp [mapResult, h.recordEvent]
    · simp only [mapResult]
      rw [h.event]

theorem blind_fetch (h : Hidden φ) : Blind φ fetch :=
  (blind_get _ h.pc).bind fun _ => (blind_memRead h _).bind fun _ => (blind_setPC h _).bind fun _ => blind_pure _

theorem blind_fetchWord (h : Hidden φ) : Blind φ fetchWord :=
  (blind_fetch h).bind fun _ => (blind_fetch h).bind fun _ => blind_pure _

theorem blind_readWordAt (h : Hidden φ) (p q : Addr) : Blind φ (readWordAt p q) :=
  (blind_memRead h p).bind fun _ => (blind_memRead h q).bind fun _ => blind_pure _

theorem blind_push (h : Hidden φ) (v : Byte) : Blind φ (push v) :=
  (blind_getReg h .S).bind fun _ => (blind_memWrite h _ _).bind fun _ => blind_setReg h .S _

theorem blind_pop (h : Hidden φ) : Blind φ pop :=
  (blind_getReg h .S).bind fun _ => (blind_setReg h .S _).bind fun _ => blind_memRead h _

theorem blind_pushWord (h : Hidden φ) (w : Addr) : Blind φ (pushWord w) :=
  (blind_push h _).bind fun _ => blind_push h _

theorem blind_popWord (h : Hidden φ) : Blind φ popWord :=
  (blind_pop h).bind fun _ => (blind_pop h).bind fun _ => blind_pure _

theorem blind_getAddr (h : Hidden φ) (m : Mode) : Blind φ (getAddr m) := by
  cases m with
  | implied | accumulator | immediate | relative => exact blind_fail _
  | zeroPage => exact (blind_fetch h).bind fun _ => blind_pure _
  | zeroPageX => exact (blind_fetch h).bind fun _ => (blind_getX h).bind fun _ => blind_pure _
  | zeroPageY => exact (blind_fetch h).bind fun _ => (blind_getY h).bind fun _ => blind_pure _
  | absolute => exact blind_fetchWord h
  | absoluteX => exact (blind_fetchWord h).bind fun _ => (blind_getX h).bind fun _ => blind_pure _
  | absoluteY => exact (blind_fetchWord h).bind fun _ => (blind_getY h).bind fun _ => blind_pure _
  | indirect => exact (blind_fetch h).bind fun _ => (blind_fetch h).bind fun _ => blind_readWordAt h _ _
  | indexedIndirect => exact (blind_fetch h).bind fun _ => (blind_getX h).bind fun _ => blind_readWordAt h _ _
  | indirectIndexed =>
    exact (blind_fetch h).bind fun _ => (blind_readWordAt h _ _).bind fun _ => (blind_getY h).bind fun _ => blind_pure _

theorem blind_getData (h : Hidden φ) (m : Mode) : Blind φ (getData m) := by
  by_cases hm : Mode.hasAddr m = true
  · rw [getData_eq hm]
    exact (blind_getAddr h m).bind fun _ => blind_memRead h _
  · cases m <;> first | exact blind_fetch h | exact blind_fail _ | exact absurd rfl hm

/-- From an operation to what the instruction answers. -/
theorem finish_hidden {o : Op Unit} {s t : State} (hf : ∀ s f, φ (s.recordFault f) = (φ s).recordFault f)
    (h : o (φ s) = mapResult φ (o s)) (hx : finish o s = .next t) : finish o (φ s) = .next (φ t) := by
  unfold finish at hx ⊢
  rw [h]
  cases ho : o s <;> rw [ho] at hx <;> cases hx
  · rfl
  · simp only [mapResult, hf]

/-- `φ` changes no flag of `fs`, lets every one of them be written, and leaves the decimal parameters; where it changes
no flag at all (`fs .B` and `fs .U`), P can be pushed and pulled whole. -/
structure Clear (φ : State → State) (fs : Flag → Bool) : Prop extends Hidden φ where
  get : ∀ f, fs f = true → ∀ s, getFlag f (φ s).P = getFlag f s.P
  put : ∀ f, fs f = true → ∀ b s, (φ s).mapP (putFlag f b) = φ (s.mapP (putFlag f b))
  push : fs .B = true → ∀ s, (φ s).P = s.P
  pull : fs .U = true → ∀ v s, (φ s).mapP (fun _ => restoredP v) = φ (s.mapP fun _ => restoredP v)

section

variable {fs : Flag → Bool} {f g k l : Flag}

theorem Clear.put2 (h : Clear φ fs) (hf : fs f = true) (hg : fs g = true) (a b : Bool) (s : State) :
    (φ s).mapP (fun p => putFlag f a (putFlag g b p)) = φ (s.mapP fun p => putFlag f a (putFlag g b p)) := by
  have hs := h.put f hf a (s.mapP (putFlag g b))
  rw [← h.put g hg] at hs
  exact hs

theorem Clear.put3 (h : Clear φ fs) (hf : fs f = true) (hg : fs g = true) (hk : fs k = true) (a b c : Bool)
    (s : State) :
    (φ s).mapP (fun p => putFlag f a (putFlag g b (putFlag k c p))) =
      φ (s.mapP fun p => putFlag f a (putFlag g b (putFlag k c p))) := by
  have hs := h.put f hf a (s.mapP fun p => putFlag g b (putFlag k c p))
  rw [← h.put2 hg hk] at hs
  exact hs

theorem Clear.put4 (h : Clear φ fs) (hf : fs f = true) (hg : fs g = true) (hk : fs k = true) (hl : fs l = true)
    (a b c d : Bool) (s : State) :
    (φ s).mapP (fun p => putFlag f a (putFlag g b (putFlag k c (putFlag l d p)))) =
      φ (s.mapP fun p => putFlag f a (putFlag g b (putFlag k c (putFlag l d p)))) := by
  have hs := h.put f hf a (s.mapP fun p => putFlag g b (putFlag k c (putFlag l d p)))
  rw [← h.put3 hg hk hl] at hs
  exact hs

theorem Clear.setZN (h : Clear φ fs) (hz : fs .Z = true) (hn : fs .N = true) (v : Byte) (s : State) :
    (φ s).mapP (setZN v) = φ (s.mapP (setZN v)) := h.put2 hn hz _ _ s

theorem Clear.compareP (h : Clear φ fs) (hz : fs .Z = true) (hn : fs .N = true) (hc : fs .C = true) (r m : Byte)
    (s : State) : (φ s).mapP (compareP r m) = φ (s.mapP (compareP r m)) := h.put3 hn hz hc _ _ _ s

theorem Clear.shiftP (h : Clear φ fs) (hz : fs .Z = true) (hn : fs .N = true) (hc : fs .C = true) (r : Byte) (c : Bool)
    (s : State) : (φ s).mapP (shiftP r c) = φ (s.mapP (shiftP r c)) := h.put3 hn hz hc _ _ _ s

theorem Clear.bitP (h : Clear φ fs) (hz : fs .Z = true) (hn : fs .N = true) (hv : fs .V = true) (a m : Byte)
    (s : State) : (φ s).mapP (bitP a m) = φ (s.mapP (bitP a m)) := h.put3 hz hv hn _ _ _ s

theorem Clear.aluP (h : Clear φ fs) (hz : fs .Z = true) (hn : fs .N = true) (hc : fs .C = true) (hv : fs .V = true)
    (o : AluOut) (s : State) : (φ s).mapP (aluP o) = φ (s.mapP (aluP o)) := h.put4 hn hz hv hc _ _ _ _ s

/-- Two different flags can be written in either order. -/
theorem putFlag_comm (h : f ≠ g) (a b : Bool) (p : Byte) : putFlag f a (putFlag g b p) = putFlag g b (putFlag f a p) := by
  apply flags_ext
  intro k
  simp only [getFlag_putFlag]
  by_cases h1 : k = f <;> by_cases h2 : k = g <;> simp_all

end

end Sys2Proof.Machine
end

