-- ==== Sys2Proof/Laws/HostOps.lean ====
section
/-! SUPPORT. The host's operations: the reset state is what they compute, and the launch memory is in canonical form. -/

namespace Sys2Proof.Machine

open Sys2Proof.Spec

/-- R182: State.reset is `reset()` issued right after construction over the launch memory that sets the reset vector to 0x0000. -/
theorem reset_eq_hostReset :
    ∃ s, construct {} [(0xFFFC, 0x00), (0xFFFD, 0x00)] = .next s ∧ hostReset s = .ok State.reset := ⟨_, rfl, rfl⟩

/-- Setting cells below `n` one after another keeps the canonical form and the bound. -/
theorem launch_wf (n : Nat) (cells m : List Host.Cell) (h : Memory.wf m = true ∧ Memory.below n m = true) :
    Memory.wf (cells.foldl (fun m c => if c.1 < n then Memory.write m c.1 c.2 else m) m) = true ∧
      Memory.below n (cells.foldl (fun m c => if c.1 < n then Memory.write m c.1 c.2 else m) m) = true := by
  induction cells generalizing m with
  | nil => exact h
  | cons c rest ih =>
    refine ih _ ?_
    dsimp only
    split
    · exact ⟨wf_write _ _ _ h.1, below_write _ _ _ _ (by assumption) h.2⟩
    · exact h

end Sys2Proof.Machine
end

