-- ==== Sys2Proof/Laws/Narrow.lean ====
section
/-! SUPPORT. An operation in a smaller memory against the same one in the full 64 KiB (R162, R169): they agree up to the
first Bus operation at or above MEM_LEN, where the smaller one faults. It also shows that no operation of the table can
fault in a full memory. -/

namespace Sys2Proof.Machine

open Sys2Proof.Spec

variable {α β : Type}

/-- The same state with the whole 64 KiB. -/
def State.widen (s : State) : State := { s with cfg := { s.cfg with memLen := 65536 } }

theorem widen_full (s : State) : s.widen.FullMemory := rfl

theorem widen_of_full {s : State} (h : s.FullMemory) : s.widen = s := by
  unfold State.widen
  rw [← show s.cfg.memLen = 65536 from h]

/-- Every event is below `n`. -/
def EventsBelow (n : Nat) (l : List BusEvent) : Prop := ∀ e ∈ l, (BusEvent.access e).2.toNat < n

theorem EventsBelow.append {n : Nat} {a b : List BusEvent} (h : EventsBelow n a) (k : EventsBelow n b) :
    EventsBelow n (a ++ b) := by
  intro e he
  rcases List.mem_append.mp he with h' | h'
  · exact h e h'
  · exact k e h'

theorem eventsBelow_nil (n : Nat) : EventsBelow n [] := fun _ he => by cases he

theorem eventsBelow_one {n : Nat} {e : BusEvent} (h : (BusEvent.access e).2.toNat < n) : EventsBelow n [e] :=
  fun _ he => by
    rw [List.mem_singleton.mp he]
    exact h

/-- In the full memory `o` succeeds; in `s`'s own it does the same, or stops at its first event out of range. -/
def Narrows (o : Op α) : Prop :=
  ∀ s : State, ∃ a u, o s.widen = .ok a u ∧ u.cfg = s.widen.cfg ∧ (∃ later, u.bus = later ++ s.bus) ∧
    ((o s = .ok a { u with cfg := s.cfg } ∧ ∃ before, u.bus = before ++ s.bus ∧ EventsBelow s.cfg.memLen before) ∨
      ∃ t e before later, o s = .error (.busRange (BusEvent.access e).2) t ∧ t.bus = before ++ s.bus ∧
        EventsBelow s.cfg.memLen before ∧ s.cfg.memLen ≤ (BusEvent.access e).2.toNat ∧ u.bus = later ++ e :: t.bus)

theorem Narrows.bind {o : Op α} {k : α → Op β} (h : Narrows o) (hk : ∀ a, Narrows (k a)) : Narrows (o >>= k) := by
  intro s
  obtain ⟨a, u, h1, h2, ⟨l1, h3⟩, h4⟩ := h s
  have hw : State.widen { u with cfg := s.cfg } = u := by
    show ({ u with cfg := s.widen.cfg } : State) = u
    rw [← h2]
  obtain ⟨b, w, k1, k2, ⟨l2, k3⟩, k4⟩ := hk a { u with cfg := s.cfg }
  rw [hw] at k1 k2
  have k3' : w.bus = l2 ++ u.bus := k3
  refine ⟨b, w, by rw [bind_ok h1, k1], k2.trans h2, ⟨l2 ++ l1, by rw [k3', h3, List.append_assoc]⟩, ?_⟩
  rcases h4 with ⟨h5, b1, h6, h7⟩ | ⟨t, e, b1, l3, h5, h6, h7, h8, h9⟩
  · rcases k4 with ⟨k5, b2, k6, k7⟩ | ⟨t, e, b2, l4, k5, k6, k7, k8, k9⟩
    · have k6' : w.bus = b2 ++ u.bus := k6
      exact .inl ⟨by rw [bind_ok h5, k5], b2 ++ b1, by rw [k6', h6, List.append_assoc], k7.append h7⟩
    · have k6' : t.bus = b2 ++ u.bus := k6
      exact .inr ⟨t, e, b2 ++ b1, l4, by rw [bind_ok h5, k5], by rw [k6', h6, List.append_assoc], k7.append h7, k8, k9⟩
  · exact .inr ⟨t, e, b1, l2 ++ l3, by rw [bind_error h5], h6, h7, h8, by rw [k3', h9, List.append_assoc]⟩

/-- An update that may read the decimal parameters but not MEM_LEN. -/
theorem narrows_update_widen (f : State → State) (hw : ∀ s, f (State.widen s) = State.widen (f s))
    (hc : ∀ s, (f s).cfg = s.cfg) (hb : ∀ s, (f s).bus = s.bus) : Narrows (Op.update f) := by
  intro s
  refine ⟨(), f s.widen, rfl, hc _, ⟨[], by rw [hb]; rfl⟩,
    .inl ⟨?_, [], by rw [hb]; rfl, eventsBelow_nil _⟩⟩
  show EStateM.Result.ok _ _ = EStateM.Result.ok _ _
  rw [hw]
  have : ({ State.widen (f s) with cfg := s.cfg } : State) = f s := by
    unfold State.widen
    simp only
    rw [← hc s]
  rw [this]

/-- An update that does not look at the parameters. -/
theorem narrows_update (f : State → State) (hf : ∀ s c, f { s with cfg := c } = { f s with cfg := c })
    (hb : ∀ s, (f s).bus = s.bus) : Narrows (Op.update f) := by
  have hc : ∀ s, (f s).cfg = s.cfg := fun s => by
    have h := congrArg State.cfg (hf s s.cfg)
    exact h
  refine narrows_update_widen f (fun s => ?_) hc hb
  unfold State.widen
  rw [hf, hc]

theorem narrows_get (g : State → α) (hg : ∀ s, g (State.widen s) = g s) : Narrows (Op.get g) := by
  intro s
  refine ⟨g s, s.widen, ?_, rfl, ⟨[], rfl⟩, .inl ⟨rfl, [], rfl, eventsBelow_nil _⟩⟩
  rw [get_run, hg]

theorem narrows_pure (a : α) : Narrows (pure a : Op α) := narrows_get (fun _ => a) fun _ => rfl

theorem narrows_setPC (p : Addr) : Narrows (setPC p) := narrows_update _ (fun _ _ => rfl) (fun _ => rfl)

theorem narrows_setReg (r : Reg) (v : Byte) : Narrows (Op.update fun s => s.setReg r v) :=
  narrows_update _ (fun _ _ => by cases r <;> rfl) (fun _ => by cases r <;> rfl)

theorem narrows_memRead (a : Addr) : Narrows (memRead a) := by
  intro s
  refine ⟨s.busByte a, afterRead s.widen a, memRead_ok (inRange (widen_full s) a), rfl, ⟨[_], rfl⟩, ?_⟩
  by_cases h : a.toNat < s.cfg.memLen
  · exact .inl ⟨memRead_ok h, [.read a (s.busByte a)], rfl, eventsBelow_one h⟩
  · exact .inr ⟨s, .read a (s.busByte a), [], [], memRead_error (Nat.not_lt.mp h), rfl, eventsBelow_nil _,
      Nat.not_lt.mp h, rfl⟩

theorem narrows_memWrite (a : Addr) (v : Byte) : Narrows (memWrite a v) := by
  intro s
  refine ⟨(), afterWrite s.widen a v, memWrite_ok (inRange (widen_full s) a), rfl, ⟨[_], rfl⟩, ?_⟩
  by_cases h : a.toNat < s.cfg.memLen
  · exact .inl ⟨memWrite_ok h, [.write a v], rfl, eventsBelow_one h⟩
  · exact .inr ⟨s, .write a v, [], [], memWrite_error (Nat.not_lt.mp h), rfl, eventsBelow_nil _, Nat.not_lt.mp h, rfl⟩

theorem narrows_fetch : Narrows fetch :=
  (narrows_get _ fun _ => rfl).bind fun _ => (narrows_memRead _).bind fun _ => (narrows_setPC _).bind fun _ =>
    narrows_pure _

theorem narrows_fetchWord : Narrows fetchWord :=
  narrows_fetch.bind fun _ => narrows_fetch.bind fun _ => narrows_pure _

theorem narrows_readWordAt (p q : Addr) : Narrows (readWordAt p q) :=
  (narrows_memRead p).bind fun _ => (narrows_memRead q).bind fun _ => narrows_pure _

theorem narrows_push (v : Byte) : Narrows (push v) :=
  (narrows_get _ fun _ => rfl).bind fun _ => (narrows_memWrite _ _).bind fun _ => narrows_setReg .S _

theorem narrows_pop : Narrows pop :=
  (narrows_get _ fun _ => rfl).bind fun _ => (narrows_setReg .S _).bind fun _ => narrows_memRead _

theorem narrows_pushWord (w : Addr) : Narrows (pushWord w) := (narrows_push _).bind fun _ => narrows_push _

theorem narrows_popWord : Narrows popWord := narrows_pop.bind fun _ => narrows_pop.bind fun _ => narrows_pure _

theorem narrows_getAddr (m : Mode) (hm : Mode.hasAddr m = true) : Narrows (getAddr m) := by
  cases m with
  | implied | accumulator | immediate | relative => cases hm
  | zeroPage => exact narrows_fetch.bind fun _ => narrows_pure _
  | zeroPageX | zeroPageY =>
    exact narrows_fetch.bind fun _ => (narrows_get _ fun _ => rfl).bind fun _ => narrows_pure _
  | absolute => exact narrows_fetchWord
  | absoluteX | absoluteY =>
    exact narrows_fetchWord.bind fun _ => (narrows_get _ fun _ => rfl).bind fun _ => narrows_pure _
  | indirect => exact narrows_fetch.bind fun _ => narrows_fetch.bind fun _ => narrows_readWordAt _ _
  | indexedIndirect =>
    exact narrows_fetch.bind fun _ => (narrows_get _ fun _ => rfl).bind fun _ => narrows_readWordAt _ _
  | indirectIndexed =>
    exact narrows_fetch.bind fun _ => (narrows_readWordAt _ _).bind fun _ => (narrows_get _ fun _ => rfl).bind fun _ =>
      narrows_pure _

theorem narrows_getData (m : Mode) (hd : Mode.hasData m = true) : Narrows (getData m) := by
  by_cases hm : Mode.hasAddr m = true
  · rw [getData_eq hm]
    exact (narrows_getAddr m hm).bind fun _ => narrows_memRead _
  · cases m <;> first | exact narrows_fetch | exact absurd rfl hm | cases hd

end Sys2Proof.Machine
end

