-- ==== Sys2Proof/Laws/PerInstr.lean ====
section
/-! SUPPORT. One lemma per instruction about its encoding: its opcode decodes to it, and no other opcode does (R62, R63,
R66); and the laws of decode and encode they give. -/

namespace Sys2Proof.Laws.Matrix

/-- The instruction's opcode decodes to it, and it is the only opcode that does. -/
def Statement (i : Instr) : Prop := decodeOpcode i.opcode = some i ∧ ∀ op, decodeOpcode op = some i → op = i.opcode

/-- The matrix of R62, cell by cell, against the opcodes of R66. -/
theorem cells_agree : ∀ op : Byte, (decodeOpcode op).all (fun i => i.opcode == op) = true := by decide

/-- Every present cell of the matrix of R62 stands at the opcode R66 gives its instruction. -/
theorem opcode_of_decodeOpcode (op : Byte) (i : Instr) (h : decodeOpcode op = some i) : op = i.opcode := by
  have hc := cells_agree op
  rw [h] at hc
  exact (beq_iff_eq.mp hc).symm

theorem ldaImm : Statement .ldaImm := ⟨by decide, fun op => opcode_of_decodeOpcode op .ldaImm⟩
theorem ldaZp : Statement .ldaZp := ⟨by decide, fun op => opcode_of_decodeOpcode op .ldaZp⟩
theorem ldaZpX : Statement .ldaZpX := ⟨by decide, fun op => opcode_of_decodeOpcode op .ldaZpX⟩
theorem ldaAbs : Statement .ldaAbs := ⟨by decide, fun op => opcode_of_decodeOpcode op .ldaAbs⟩
theorem ldaAbsX : Statement .ldaAbsX := ⟨by decide, fun op => opcode_of_decodeOpcode op .ldaAbsX⟩
theorem ldaAbsY : Statement .ldaAbsY := ⟨by decide, fun op => opcode_of_decodeOpcode op .ldaAbsY⟩
theorem ldaIndX : Statement .ldaIndX := ⟨by decide, fun op => opcode_of_decodeOpcode op .ldaIndX⟩
theorem ldaIndY : Statement .ldaIndY := ⟨by decide, fun op => opcode_of_decodeOpcode op .ldaIndY⟩
theorem ldxImm : Statement .ldxImm := ⟨by decide, fun op => opcode_of_decodeOpcode op .ldxImm⟩
theorem ldxZp : Statement .ldxZp := ⟨by decide, fun op => opcode_of_decodeOpcode op .ldxZp⟩
theorem ldxZpY : Statement .ldxZpY := ⟨by decide, fun op => opcode_of_decodeOpcode op .ldxZpY⟩
theorem ldxAbs : Statement .ldxAbs := ⟨by decide, fun op => opcode_of_decodeOpcode op .ldxAbs⟩
theorem ldxAbsY : Statement .ldxAbsY := ⟨by decide, fun op => opcode_of_decodeOpcode op .ldxAbsY⟩
theorem ldyImm : Statement .ldyImm := ⟨by decide, fun op => opcode_of_decodeOpcode op .ldyImm⟩
theorem ldyZp : Statement .ldyZp := ⟨by decide, fun op => opcode_of_decodeOpcode op .ldyZp⟩
theorem ldyZpX : Statement .ldyZpX := ⟨by decide, fun op => opcode_of_decodeOpcode op .ldyZpX⟩
theorem ldyAbs : Statement .ldyAbs := ⟨by decide, fun op => opcode_of_decodeOpcode op .ldyAbs⟩
theorem ldyAbsX : Statement .ldyAbsX := ⟨by decide, fun op => opcode_of_decodeOpcode op .ldyAbsX⟩
theorem staZp : Statement .staZp := ⟨by decide, fun op => opcode_of_decodeOpcode op .staZp⟩
theorem staZpX : Statement .staZpX := ⟨by decide, fun op => opcode_of_decodeOpcode op .staZpX⟩
theorem staAbs : Statement .staAbs := ⟨by decide, fun op => opcode_of_decodeOpcode op .staAbs⟩
theorem staAbsX : Statement .staAbsX := ⟨by decide, fun op => opcode_of_decodeOpcode op .staAbsX⟩
theorem staAbsY : Statement .staAbsY := ⟨by decide, fun op => opcode_of_decodeOpcode op .staAbsY⟩
theorem staIndX : Statement .staIndX := ⟨by decide, fun op => opcode_of_decodeOpcode op .staIndX⟩
theorem staIndY : Statement .staIndY := ⟨by decide, fun op => opcode_of_decodeOpcode op .staIndY⟩
theorem stxZp : Statement .stxZp := ⟨by decide, fun op => opcode_of_decodeOpcode op .stxZp⟩
theorem stxZpY : Statement .stxZpY := ⟨by decide, fun op => opcode_of_decodeOpcode op .stxZpY⟩
theorem stxAbs : Statement .stxAbs := ⟨by decide, fun op => opcode_of_decodeOpcode op .stxAbs⟩
theorem styZp : Statement .styZp := ⟨by decide, fun op => opcode_of_decodeOpcode op .styZp⟩
theorem styZpX : Statement .styZpX := ⟨by decide, fun op => opcode_of_decodeOpcode op .styZpX⟩
theorem styAbs : Statement .styAbs := ⟨by decide, fun op => opcode_of_decodeOpcode op .styAbs⟩
theorem tax : Statement .tax := ⟨by decide, fun op => opcode_of_decodeOpcode op .tax⟩
theorem tay : Statement .tay := ⟨by decide, fun op => opcode_of_decodeOpcode op .tay⟩
theorem txa : Statement .txa := ⟨by decide, fun op => opcode_of_decodeOpcode op .txa⟩
theorem tya : Statement .tya := ⟨by decide, fun op => opcode_of_decodeOpcode op .tya⟩
theorem tsx : Statement .tsx := ⟨by decide, fun op => opcode_of_decodeOpcode op .tsx⟩
theorem txs : Statement .txs := ⟨by decide, fun op => opcode_of_decodeOpcode op .txs⟩
theorem clc : Statement .clc := ⟨by decide, fun op => opcode_of_decodeOpcode op .clc⟩
theorem cld : Statement .cld := ⟨by decide, fun op => opcode_of_decodeOpcode op .cld⟩
theorem cli : Statement .cli := ⟨by decide, fun op => opcode_of_decodeOpcode op .cli⟩
theorem clv : Statement .clv := ⟨by decide, fun op => opcode_of_decodeOpcode op .clv⟩
theorem sec : Statement .sec := ⟨by decide, fun op => opcode_of_decodeOpcode op .sec⟩
theorem sed : Statement .sed := ⟨by decide, fun op => opcode_of_decodeOpcode op .sed⟩
theorem sei : Statement .sei := ⟨by decide, fun op => opcode_of_decodeOpcode op .sei⟩
theorem incZp : Statement .incZp := ⟨by decide, fun op => opcode_of_decodeOpcode op .incZp⟩
theorem incZpX : Statement .incZpX := ⟨by decide, fun op => opcode_of_decodeOpcode op .incZpX⟩
theorem incAbs : Statement .incAbs := ⟨by decide, fun op => opcode_of_decodeOpcode op .incAbs⟩
theorem incAbsX : Statement .incAbsX := ⟨by decide, fun op => opcode_of_decodeOpcode op .incAbsX⟩
theorem decZp : Statement .decZp := ⟨by decide, fun op => opcode_of_decodeOpcode op .decZp⟩
theorem decZpX : Statement .decZpX := ⟨by decide, fun op => opcode_of_decodeOpcode op .decZpX⟩
theorem decAbs : Statement .decAbs := ⟨by decide, fun op => opcode_of_decodeOpcode op .decAbs⟩
theorem decAbsX : Statement .decAbsX := ⟨by decide, fun op => opcode_of_decodeOpcode op .decAbsX⟩
theorem inx : Statement .inx := ⟨by decide, fun op => opcode_of_decodeOpcode op .inx⟩
theorem iny : Statement .iny := ⟨by decide, fun op => opcode_of_decodeOpcode op .iny⟩
theorem dex : Statement .dex := ⟨by decide, fun op => opcode_of_decodeOpcode op .dex⟩
theorem dey : Statement .dey := ⟨by decide, fun op => opcode_of_decodeOpcode op .dey⟩
theorem cmpImm : Statement .cmpImm := ⟨by decide, fun op => opcode_of_decodeOpcode op .cmpImm⟩
theorem cmpZp : Statement .cmpZp := ⟨by decide, fun op => opcode_of_decodeOpcode op .cmpZp⟩
theorem cmpZpX : Statement .cmpZpX := ⟨by decide, fun op => opcode_of_decodeOpcode op .cmpZpX⟩
theorem cmpAbs : Statement .cmpAbs := ⟨by decide, fun op => opcode_of_decodeOpcode op .cmpAbs⟩
theorem cmpAbsX : Statement .cmpAbsX := ⟨by decide, fun op => opcode_of_decodeOpcode op .cmpAbsX⟩
theorem cmpAbsY : Statement .cmpAbsY := ⟨by decide, fun op => opcode_of_decodeOpcode op .cmpAbsY⟩
theorem cmpIndX : Statement .cmpIndX := ⟨by decide, fun op => opcode_of_decodeOpcode op .cmpIndX⟩
theorem cmpIndY : Statement .cmpIndY := ⟨by decide, fun op => opcode_of_decodeOpcode op .cmpIndY⟩
theorem cpxImm : Statement .cpxImm := ⟨by decide, fun op => opcode_of_decodeOpcode op .cpxImm⟩
theorem cpxZp : Statement .cpxZp := ⟨by decide, fun op => opcode_of_decodeOpcode op .cpxZp⟩
theorem cpxAbs : Statement .cpxAbs := ⟨by decide, fun op => opcode_of_decodeOpcode op .cpxAbs⟩
theorem cpyImm : Statement .cpyImm := ⟨by decide, fun op => opcode_of_decodeOpcode op .cpyImm⟩
theorem cpyZp : Statement .cpyZp := ⟨by decide, fun op => opcode_of_decodeOpcode op .cpyZp⟩
theorem cpyAbs : Statement .cpyAbs := ⟨by decide, fun op => opcode_of_decodeOpcode op .cpyAbs⟩
theorem andImm : Statement .andImm := ⟨by decide, fun op => opcode_of_decodeOpcode op .andImm⟩
theorem andZp : Statement .andZp := ⟨by decide, fun op => opcode_of_decodeOpcode op .andZp⟩
theorem andZpX : Statement .andZpX := ⟨by decide, fun op => opcode_of_decodeOpcode op .andZpX⟩
theorem andAbs : Statement .andAbs := ⟨by decide, fun op => opcode_of_decodeOpcode op .andAbs⟩
theorem andAbsX : Statement .andAbsX := ⟨by decide, fun op => opcode_of_decodeOpcode op .andAbsX⟩
theorem andAbsY : Statement .andAbsY := ⟨by decide, fun op => opcode_of_decodeOpcode op .andAbsY⟩
theorem andIndX : Statement .andIndX := ⟨by decide, fun op => opcode_of_decodeOpcode op .andIndX⟩
theorem andIndY : Statement .andIndY := ⟨by decide, fun op => opcode_of_decodeOpcode op .andIndY⟩
theorem oraImm : Statement .oraImm := ⟨by decide, fun op => opcode_of_decodeOpcode op .oraImm⟩
theorem oraZp : Statement .oraZp := ⟨by decide, fun op => opcode_of_decodeOpcode op .oraZp⟩
theorem oraZpX : Statement .oraZpX := ⟨by decide, fun op => opcode_of_decodeOpcode op .oraZpX⟩
theorem oraAbs : Statement .oraAbs := ⟨by decide, fun op => opcode_of_decodeOpcode op .oraAbs⟩
theorem oraAbsX : Statement .oraAbsX := ⟨by decide, fun op => opcode_of_decodeOpcode op .oraAbsX⟩
theorem oraAbsY : Statement .oraAbsY := ⟨by decide, fun op => opcode_of_decodeOpcode op .oraAbsY⟩
theorem oraIndX : Statement .oraIndX := ⟨by decide, fun op => opcode_of_decodeOpcode op .oraIndX⟩
theorem oraIndY : Statement .oraIndY := ⟨by decide, fun op => opcode_of_decodeOpcode op .oraIndY⟩
theorem eorImm : Statement .eorImm := ⟨by decide, fun op => opcode_of_decodeOpcode op .eorImm⟩
theorem eorZp : Statement .eorZp := ⟨by decide, fun op => opcode_of_decodeOpcode op .eorZp⟩
theorem eorZpX : Statement .eorZpX := ⟨by decide, fun op => opcode_of_decodeOpcode op .eorZpX⟩
theorem eorAbs : Statement .eorAbs := ⟨by decide, fun op => opcode_of_decodeOpcode op .eorAbs⟩
theorem eorAbsX : Statement .eorAbsX := ⟨by decide, fun op => opcode_of_decodeOpcode op .eorAbsX⟩
theorem eorAbsY : Statement .eorAbsY := ⟨by decide, fun op => opcode_of_decodeOpcode op .eorAbsY⟩
theorem eorIndX : Statement .eorIndX := ⟨by decide, fun op => opcode_of_decodeOpcode op .eorIndX⟩
theorem eorIndY : Statement .eorIndY := ⟨by decide, fun op => opcode_of_decodeOpcode op .eorIndY⟩
theorem aslAcc : Statement .aslAcc := ⟨by decide, fun op => opcode_of_decodeOpcode op .aslAcc⟩
theorem aslZp : Statement .aslZp := ⟨by decide, fun op => opcode_of_decodeOpcode op .aslZp⟩
theorem aslZpX : Statement .aslZpX := ⟨by decide, fun op => opcode_of_decodeOpcode op .aslZpX⟩
theorem aslAbs : Statement .aslAbs := ⟨by decide, fun op => opcode_of_decodeOpcode op .aslAbs⟩
theorem aslAbsX : Statement .aslAbsX := ⟨by decide, fun op => opcode_of_decodeOpcode op .aslAbsX⟩
theorem lsrAcc : Statement .lsrAcc := ⟨by decide, fun op => opcode_of_decodeOpcode op .lsrAcc⟩
theorem lsrZp : Statement .lsrZp := ⟨by decide, fun op => opcode_of_decodeOpcode op .lsrZp⟩
theorem lsrZpX : Statement .lsrZpX := ⟨by decide, fun op => opcode_of_decodeOpcode op .lsrZpX⟩
theorem lsrAbs : Statement .lsrAbs := ⟨by decide, fun op => opcode_of_decodeOpcode op .lsrAbs⟩
theorem lsrAbsX : Statement .lsrAbsX := ⟨by decide, fun op => opcode_of_decodeOpcode op .lsrAbsX⟩
theorem rolAcc : Statement .rolAcc := ⟨by decide, fun op => opcode_of_decodeOpcode op .rolAcc⟩
theorem rolZp : Statement .rolZp := ⟨by decide, fun op => opcode_of_decodeOpcode op .rolZp⟩
theorem rolZpX : Statement .rolZpX := ⟨by decide, fun op => opcode_of_decodeOpcode op .rolZpX⟩
theorem rolAbs : Statement .rolAbs := ⟨by decide, fun op => opcode_of_decodeOpcode op .rolAbs⟩
theorem rolAbsX : Statement .rolAbsX := ⟨by decide, fun op => opcode_of_decodeOpcode op .rolAbsX⟩
theorem rorAcc : Statement .rorAcc := ⟨by decide, fun op => opcode_of_decodeOpcode op .rorAcc⟩
theorem rorZp : Statement .rorZp := ⟨by decide, fun op => opcode_of_decodeOpcode op .rorZp⟩
theorem rorZpX : Statement .rorZpX := ⟨by decide, fun op => opcode_of_decodeOpcode op .rorZpX⟩
theorem rorAbs : Statement .rorAbs := ⟨by decide, fun op => opcode_of_decodeOpcode op .rorAbs⟩
theorem rorAbsX : Statement .rorAbsX := ⟨by decide, fun op => opcode_of_decodeOpcode op .rorAbsX⟩
theorem beq : Statement .beq := ⟨by decide, fun op => opcode_of_decodeOpcode op .beq⟩
theorem bne : Statement .bne := ⟨by decide, fun op => opcode_of_decodeOpcode op .bne⟩
theorem bmi : Statement .bmi := ⟨by decide, fun op => opcode_of_decodeOpcode op .bmi⟩
theorem bpl : Statement .bpl := ⟨by decide, fun op => opcode_of_decodeOpcode op .bpl⟩
theorem bcs : Statement .bcs := ⟨by decide, fun op => opcode_of_decodeOpcode op .bcs⟩
theorem bcc : Statement .bcc := ⟨by decide, fun op => opcode_of_decodeOpcode op .bcc⟩
theorem bvc : Statement .bvc := ⟨by decide, fun op => opcode_of_decodeOpcode op .bvc⟩
theorem bvs : Statement .bvs := ⟨by decide, fun op => opcode_of_decodeOpcode op .bvs⟩
theorem jmpAbs : Statement .jmpAbs := ⟨by decide, fun op => opcode_of_decodeOpcode op .jmpAbs⟩
theorem jmpInd : Statement .jmpInd := ⟨by decide, fun op => opcode_of_decodeOpcode op .jmpInd⟩
theorem jsr : Statement .jsr := ⟨by decide, fun op => opcode_of_decodeOpcode op .jsr⟩
theorem rts : Statement .rts := ⟨by decide, fun op => opcode_of_decodeOpcode op .rts⟩
theorem pha : Statement .pha := ⟨by decide, fun op => opcode_of_decodeOpcode op .pha⟩
theorem pla : Statement .pla := ⟨by decide, fun op => opcode_of_decodeOpcode op .pla⟩
theorem php : Statement .php := ⟨by decide, fun op => opcode_of_decodeOpcode op .php⟩
theorem plp : Statement .plp := ⟨by decide, fun op => opcode_of_decodeOpcode op .plp⟩
theorem bitZp : Statement .bitZp := ⟨by decide, fun op => opcode_of_decodeOpcode op .bitZp⟩
theorem bitAbs : Statement .bitAbs := ⟨by decide, fun op => opcode_of_decodeOpcode op .bitAbs⟩
theorem adcImm : Statement .adcImm := ⟨by decide, fun op => opcode_of_decodeOpcode op .adcImm⟩
theorem adcZp : Statement .adcZp := ⟨by decide, fun op => opcode_of_decodeOpcode op .adcZp⟩
theorem adcZpX : Statement .adcZpX := ⟨by decide, fun op => opcode_of_decodeOpcode op .adcZpX⟩
theorem adcAbs : Statement .adcAbs := ⟨by decide, fun op => opcode_of_decodeOpcode op .adcAbs⟩
theorem adcAbsX : Statement .adcAbsX := ⟨by decide, fun op => opcode_of_decodeOpcode op .adcAbsX⟩
theorem adcAbsY : Statement .adcAbsY := ⟨by decide, fun op => opcode_of_decodeOpcode op .adcAbsY⟩
theorem adcIndX : Statement .adcIndX := ⟨by decide, fun op => opcode_of_decodeOpcode op .adcIndX⟩
theorem adcIndY : Statement .adcIndY := ⟨by decide, fun op => opcode_of_decodeOpcode op .adcIndY⟩
theorem sbcImm : Statement .sbcImm := ⟨by decide, fun op => opcode_of_decodeOpcode op .sbcImm⟩
theorem sbcZp : Statement .sbcZp := ⟨by decide, fun op => opcode_of_decodeOpcode op .sbcZp⟩
theorem sbcZpX : Statement .sbcZpX := ⟨by decide, fun op => opcode_of_decodeOpcode op .sbcZpX⟩
theorem sbcAbs : Statement .sbcAbs := ⟨by decide, fun op => opcode_of_decodeOpcode op .sbcAbs⟩
theorem sbcAbsX : Statement .sbcAbsX := ⟨by decide, fun op => opcode_of_decodeOpcode op .sbcAbsX⟩
theorem sbcAbsY : Statement .sbcAbsY := ⟨by decide, fun op => opcode_of_decodeOpcode op .sbcAbsY⟩
theorem sbcIndX : Statement .sbcIndX := ⟨by decide, fun op => opcode_of_decodeOpcode op .sbcIndX⟩
theorem sbcIndY : Statement .sbcIndY := ⟨by decide, fun op => opcode_of_decodeOpcode op .sbcIndY⟩
theorem brk : Statement .brk := ⟨by decide, fun op => opcode_of_decodeOpcode op .brk⟩
theorem rti : Statement .rti := ⟨by decide, fun op => opcode_of_decodeOpcode op .rti⟩
theorem nop : Statement .nop := ⟨by decide, fun op => opcode_of_decodeOpcode op .nop⟩

end Sys2Proof.Laws.Matrix

namespace Sys2Proof

theorem decodeOpcode_opcode (i : Instr) : decodeOpcode i.opcode = some i := by cases i <;> rfl

theorem decodeOpcode_eq_some (op : Byte) (i : Instr) : decodeOpcode op = some i ↔ op = i.opcode :=
  ⟨Laws.Matrix.opcode_of_decodeOpcode op i, fun h => h ▸ decodeOpcode_opcode i⟩

/-- Decoding an encoding, with anything after it, gives the instruction back. -/
theorem decode_encode (c : Code) (h : c.wellFormed = true) (rest : List Byte) :
    decode (encode c ++ rest) = .code c rest := by
  have hlen : c.operands.length = c.instr.mode.operandBytes := by simpa [Code.wellFormed] using h
  simp [decode, encode, decodeOpcode_opcode, ← hlen]

/-- All that decoding to an instruction can mean. -/
theorem decode_eq_code (bs : List Byte) (c : Code) (rest : List Byte) (h : decode bs = .code c rest) :
    c.wellFormed = true ∧ bs = encode c ++ rest := by
  cases bs with
  | nil => simp [decode] at h
  | cons op tail =>
    simp only [decode] at h
    split at h
    · cases h
    · rename_i i hi
      split at h
      · rename_i hle
        cases h
        have hop := Laws.Matrix.opcode_of_decodeOpcode op i hi
        simp [Code.wellFormed, encode, ← hop, hle]
      · cases h

end Sys2Proof
end

