-- ==== Sys2Proof/Laws/Step.lean ====
section
/-! SUPPORT. One step from its parts: the opcode fetch and decode (R84, R85), and a relation that every instruction
respects holds across every step. -/

namespace Sys2Proof.Machine

open Sys2Proof.Spec

variable {s t : State}

theorem fetchDecode_some {i : Instr} (hr : s.PC.toNat < s.cfg.memLen) (hd : decodeOpcode (s.busByte s.PC) = some i) :
    fetchDecode s = .ok i (afterFetch s) := by
  rw [fetchDecode, bind_ok (fetch_ok hr)]
  simp [hd]

theorem fetchDecode_none (hr : s.PC.toNat < s.cfg.memLen) (hd : decodeOpcode (s.busByte s.PC) = none) :
    fetchDecode s = .error (.unimplemented (s.busByte s.PC)) (afterFetch s) := by
  rw [fetchDecode, bind_ok (fetch_ok hr)]
  simp [hd]

theorem fetchDecode_error (hr : s.cfg.memLen ≤ s.PC.toNat) : fetchDecode s = .error (.busRange s.PC) s := by
  rw [fetchDecode, bind_error (fetch_error hr)]

theorem fetchDecode_keeps {R : State → State → Prop} {F : Footprint} (h : Respects R F) : fetchDecode.Keeps R :=
  (fetch_keeps h).bind h fun op => by
    intro s
    show R s (Op.endState (match decodeOpcode op with | some i => _ | none => _) s)
    split <;> exact h.refl s

/-- A relation that every instruction respects, and that recording a fault keeps, holds across every step. -/
theorem step_respects {R : State → State → Prop} (h : ∀ i, Respects R (footprint i)) (hf : ∀ s f, R s (s.recordFault f))
    (hx : step s = .next t) : R s t := by
  unfold step at hx
  split at hx
  · split at hx
    · cases hx
    · have hk := fetchDecode_keeps (h .nop) s
      unfold Op.endState at hk
      split at hx <;> rename_i he <;> rw [he] at hk
      · exact (h .nop).trans hk (exec_respects _ (h _) hf hx)
      · cases hx
        exact (h .nop).trans hk (hf _ _)
  · cases hx

end Sys2Proof.Machine
end

