-- ==== Sys2Proof/Laws/Stores.lean ====
section
/-! SUPPORT. Which bytes of memory an operation can change: every operation that reads or fetches changes none, a write
or a push changes one, and a sequence changes the bytes its parts change. -/

namespace Sys2Proof.Machine

open Sys2Proof.Spec

variable {α β : Type}

/-- Memory is unchanged: respected by every footprint that stores nothing. -/
theorem respects_mem (F : Footprint) (h : F.mem = false) : Respects (fun s t => t.mem = s.mem) F :=
  { refl := fun _ => rfl
    trans := fun h k => k.trans h
    read := fun _ _ => rfl
    pc := fun _ _ => rfl
    reg := fun _ _ _ _ => by simp
    flags := fun _ _ _ => rfl
    restore := fun _ _ _ => rfl
    write := fun h' => by rw [h] at h'; cases h' }

/-- A footprint that stores nothing and may write all else. -/
def Footprint.noStore : Footprint := { reg := fun _ => true, flag := fun _ => true, restore := true, mem := false }

theorem respects_noStore : Respects (fun s t : State => t.mem = s.mem) Footprint.noStore := respects_mem _ rfl

theorem getAddr_ok_mem {m : Mode} {s u : State} {ea : Addr} (h : getAddr m s = .ok ea u) : u.mem = s.mem := by
  have := getAddr_keeps respects_noStore m s
  simpa [Op.endState, h] using this

theorem getAddr_error_mem {m : Mode} {s u : State} {f : Fault} (h : getAddr m s = .error f u) : u.mem = s.mem := by
  have := getAddr_keeps respects_noStore m s
  simpa [Op.endState, h] using this

/-- The memory an instruction answers is the one its operation leaves. -/
theorem finish_mem {o : Op Unit} {s t : State} (h : finish o s = .next t) : t.mem = (o.endState s).mem := by
  unfold finish at h
  unfold Op.endState
  cases ho : o s <;> rw [ho] at h <;> cases h <;> rfl

/-- Only the cells at the addresses in `A` may differ. -/
def ChangesOnly (A : Nat → Prop) (s t : State) : Prop := ∀ a, ¬ A a → Memory.find t.mem a = Memory.find s.mem a

variable {A B : Nat → Prop}

theorem ChangesOnly.mono {s t : State} (h : ChangesOnly A s t) (hAB : ∀ a, A a → B a) : ChangesOnly B s t :=
  fun a ha => h a fun hx => ha (hAB a hx)

theorem changesOnly_of_mem {s t : State} (h : t.mem = s.mem) : ChangesOnly A s t := fun a _ => by rw [h]

theorem changesOnly_bind {o : Op α} {k : α → Op β} {s : State} (ho : ChangesOnly A s (o.endState s))
    (hk : ∀ a t, o s = .ok a t → ChangesOnly A t ((k a).endState t)) : ChangesOnly A s ((o >>= k).endState s) := by
  intro a ha
  rw [endState_bind]
  have hs := ho a ha
  unfold Op.endState at hs
  cases h : o s with
  | ok b t =>
    rw [h] at hs
    rw [← hs]
    exact hk b t h a ha
  | error f t =>
    rw [h] at hs
    exact hs

theorem memRead_mem (ea : Addr) (s : State) : ((memRead ea).endState s).mem = s.mem :=
  memRead_keeps respects_noStore ea s

theorem memWrite_changesOnly (ea : Addr) (v : Byte) (s : State) :
    ChangesOnly (· = ea.toNat) s ((memWrite ea v).endState s) := by
  intro a ha
  unfold Op.endState memWrite
  split_ifs <;> simp [ha]

theorem push_changesOnly (v : Byte) (s : State) :
    ChangesOnly (· = (stackDown s 0).toNat) s ((push v).endState s) := by
  intro a ha
  rw [← cell_eq_stackDown] at ha
  by_cases hr : (cell s.S).toNat < s.cfg.memLen
  · rw [Op.endState, push_ok hr]
    simp only [afterPush, afterWrite]
    split <;> simp [ha]
  · rw [Op.endState, push_error (Nat.not_lt.mp hr)]

theorem pushWord_changesOnly (w : Addr) (s : State) :
    ChangesOnly (fun a => a = (stackDown s 0).toNat ∨ a = (stackDown s 1).toNat) s ((pushWord w).endState s) := by
  refine changesOnly_bind ((push_changesOnly _ s).mono fun a h => .inl h) fun _ t h => ?_
  rw [push_inv h]
  exact (push_changesOnly _ _).mono fun a h => .inr (by rw [stackDown_afterPush _ _ _ (by decide)] at h; exact h)

/-- An operation that resolves an address and then changes at most the byte there. -/
theorem changes_at_getAddr {m : Mode} {k : Addr → Op Unit} {s t : State}
    (hk : ∀ ea u, ChangesOnly (· = ea.toNat) u ((k ea).endState u)) (h : finish (getAddr m >>= k) s = .next t) :
    (∀ ea u, getAddr m s = .ok ea u → ∀ a : Nat, a ≠ ea.toNat → Memory.find t.mem a = Memory.find s.mem a) ∧
      (∀ f u, getAddr m s = .error f u → t.mem = s.mem) := by
  rw [finish_mem h]
  refine ⟨fun ea u hu a ha => ?_, fun f u hu => ?_⟩
  · refine changesOnly_bind (A := (· = ea.toNat)) (changesOnly_of_mem (getAddr_keeps respects_noStore m s))
      (fun b t hb => ?_) a ha
    rw [hu] at hb
    cases hb
    exact hk _ _
  · rw [endState_bind, hu]
    exact getAddr_error_mem hu

end Sys2Proof.Machine
end

