-- ==== Sys2Proof/Tests/Slice0.lean ====
section
/-! SUPPORT. Tests. The ill-formed terms that WellFormed refuses; the opcodes as the rules' Encoding lines give them; one or
two steps per instruction, each from an example or a corner of its rule; and for every obligation with hypotheses, a concrete
state and operands that meet them. Expected values come from the rules named, never from the model. -/

namespace Sys2Proof.Tests

open Sys2Proof.Machine Sys2Proof.Spec

/-- The reset registers with the given bytes at `pc` and the given cells. -/
def placed (pc : Addr) (code : List Byte) (cells : List Host.Cell) : State :=
  { State.reset with
    PC := pc, bus := [],
    mem := (code.zipIdx.map (fun e => ((pc + BitVec.ofNat 16 e.2).toNat, e.1)) ++ cells).foldl
      (fun m c => Memory.write m c.1 c.2) [] }

/-- The state after one step. -/
def stepped (s : State) : State :=
  match step s with
  | .next t => t
  | .fault _ => s
  | .refused _ => s

/-- The same state with a smaller memory. -/
def small (n : Nat) (s : State) : State := { s with cfg := { s.cfg with memLen := n } }

/-! ### WellFormed -/

/-- R61: an operand byte is missing. -/
theorem test_illFormed_missing : (⟨.ldaImm, []⟩ : Code).wellFormed = false := by decide

/-- R61: an operand byte too many. -/
theorem test_illFormed_extra : (⟨.nop, [0x00]⟩ : Code).wellFormed = false := by decide

/-- R61: one of two operand bytes. -/
theorem test_illFormed_half : (⟨.jmpAbs, [0x34]⟩ : Code).wellFormed = false := by decide

/-- R61: as many as the mode says. -/
theorem test_wellFormed : (⟨.jmpAbs, [0x34, 0x12]⟩ : Code).wellFormed = true := by decide

/-! ### Decoding -/

/-- Every opcode of loads, stores and transfers (R90 to R101), from the rules' Encoding lines. -/
theorem test_decode_load_store_transfer :
    ([0xA9, 0xA5, 0xB5, 0xAD, 0xBD, 0xB9, 0xA1, 0xB1, 0xA2, 0xA6, 0xB6, 0xAE, 0xBE, 0xA0, 0xA4, 0xB4, 0xAC,
     0xBC, 0x85, 0x95, 0x8D, 0x9D, 0x99, 0x81, 0x91, 0x86, 0x96, 0x8E, 0x84, 0x94, 0x8C, 0xAA, 0xA8, 0x8A,
     0x98, 0xBA, 0x9A] : List Byte).map decodeOpcode =
    ([.ldaImm, .ldaZp, .ldaZpX, .ldaAbs, .ldaAbsX, .ldaAbsY, .ldaIndX, .ldaIndY, .ldxImm, .ldxZp, .ldxZpY,
     .ldxAbs, .ldxAbsY, .ldyImm, .ldyZp, .ldyZpX, .ldyAbs, .ldyAbsX, .staZp, .staZpX, .staAbs, .staAbsX,
     .staAbsY, .staIndX, .staIndY, .stxZp, .stxZpY, .stxAbs, .styZp, .styZpX, .styAbs, .tax, .tay, .txa, .tya,
     .tsx, .txs] : List Instr).map some := by decide

/-- Every opcode of flag instructions, INC and DEC (R102 to R114), from the rules' Encoding lines. -/
theorem test_decode_flags_incdec :
    ([0x18, 0xD8, 0x58, 0xB8, 0x38, 0xF8, 0x78, 0xE6, 0xF6, 0xEE, 0xFE, 0xC6, 0xD6, 0xCE, 0xDE, 0xE8, 0xC8,
     0xCA, 0x88] : List Byte).map decodeOpcode =
    ([.clc, .cld, .cli, .clv, .sec, .sed, .sei, .incZp, .incZpX, .incAbs, .incAbsX, .decZp, .decZpX, .decAbs,
     .decAbsX, .inx, .iny, .dex, .dey] : List Instr).map some := by decide

/-- Every opcode of compares and logical (R115 to R120), from the rules' Encoding lines. -/
theorem test_decode_compare_logical :
    ([0xC9, 0xC5, 0xD5, 0xCD, 0xDD, 0xD9, 0xC1, 0xD1, 0xE0, 0xE4, 0xEC, 0xC0, 0xC4, 0xCC, 0x29, 0x25, 0x35,
     0x2D, 0x3D, 0x39, 0x21, 0x31, 0x09, 0x05, 0x15, 0x0D, 0x1D, 0x19, 0x01, 0x11, 0x49, 0x45, 0x55, 0x4D,
     0x5D, 0x59, 0x41, 0x51] : List Byte).map decodeOpcode =
    ([.cmpImm, .cmpZp, .cmpZpX, .cmpAbs, .cmpAbsX, .cmpAbsY, .cmpIndX, .cmpIndY, .cpxImm, .cpxZp, .cpxAbs,
     .cpyImm, .cpyZp, .cpyAbs, .andImm, .andZp, .andZpX, .andAbs, .andAbsX, .andAbsY, .andIndX, .andIndY,
     .oraImm, .oraZp, .oraZpX, .oraAbs, .oraAbsX, .oraAbsY, .oraIndX, .oraIndY, .eorImm, .eorZp, .eorZpX,
     .eorAbs, .eorAbsX, .eorAbsY, .eorIndX, .eorIndY] : List Instr).map some := by decide

/-- Every opcode of shifts and rotates (R121 to R124), from the rules' Encoding lines. -/
theorem test_decode_shift :
    ([0x0A, 0x06, 0x16, 0x0E, 0x1E, 0x4A, 0x46, 0x56, 0x4E, 0x5E, 0x2A, 0x26, 0x36, 0x2E, 0x3E, 0x6A, 0x66,
     0x76, 0x6E, 0x7E] : List Byte).map decodeOpcode =
    ([.aslAcc, .aslZp, .aslZpX, .aslAbs, .aslAbsX, .lsrAcc, .lsrZp, .lsrZpX, .lsrAbs, .lsrAbsX, .rolAcc,
     .rolZp, .rolZpX, .rolAbs, .rolAbsX, .rorAcc, .rorZp, .rorZpX, .rorAbs, .rorAbsX] : List Instr).map some := by decide

/-- Every opcode of control transfer (R126 to R136), from the rules' Encoding lines. -/
theorem test_decode_control :
    ([0xF0, 0xD0, 0x30, 0x10, 0xB0, 0x90, 0x50, 0x70, 0x4C, 0x6C, 0x20, 0x60] : List Byte).map decodeOpcode =
    ([.beq, .bne, .bmi, .bpl, .bcs, .bcc, .bvc, .bvs, .jmpAbs, .jmpInd, .jsr, .rts] : List Instr).map some := by decide

/-- Every opcode of stack and BIT (R137 to R141), from the rules' Encoding lines. -/
theorem test_decode_stack_bit :
    ([0x48, 0x68, 0x08, 0x28, 0x24, 0x2C] : List Byte).map decodeOpcode =
    ([.pha, .pla, .php, .plp, .bitZp, .bitAbs] : List Instr).map some := by decide

/-- Every opcode of ADC and SBC (R142, R145), from the rules' Encoding lines. -/
theorem test_decode_arithmetic :
    ([0x69, 0x65, 0x75, 0x6D, 0x7D, 0x79, 0x61, 0x71, 0xE9, 0xE5, 0xF5, 0xED, 0xFD, 0xF9, 0xE1, 0xF1] : List Byte).map decodeOpcode =
    ([.adcImm, .adcZp, .adcZpX, .adcAbs, .adcAbsX, .adcAbsY, .adcIndX, .adcIndY, .sbcImm, .sbcZp, .sbcZpX,
     .sbcAbs, .sbcAbsX, .sbcAbsY, .sbcIndX, .sbcIndY] : List Instr).map some := by decide

/-- Every opcode of BRK, RTI and NOP (R150 to R152), from the rules' Encoding lines. -/
theorem test_decode_system :
    ([0x00, 0x40, 0xEA] : List Byte).map decodeOpcode =
    ([.brk, .rti, .nop] : List Instr).map some := by decide

/-- R62, R87: an opcode of the unimplemented list, and an instruction cut short. -/
theorem test_decode_rejects : decode [0xFF] = .unimplemented 0xFF ∧ decode [] = .truncated ∧ decode [0xAD, 0x00] = .truncated := by
  decide

/-- A table word with no operand bits decodes with operand bytes of zero. -/
theorem test_decodeTableWord : decodeTableWord 8 0x20 = some .jsr ∧ decodeTableWord 8 0x02 = none := by decide

/-! ### One step of each instruction -/

/-- R90, example. -/
theorem test_lda_immediate :
    let t := stepped (placed 0x0000 [0xA9, 0x01] [])
    t.A = 0x01 ∧ t.P = 0x00 ∧ t.PC = 0x0002 ∧ t.faultRecord = none := by decide

/-- R80, corner: base 0xFFF0 with Y = 0x20. -/
theorem test_lda_indirect_indexed_wraps :
    let t := stepped { placed 0x0200 [0xB1, 0x40] [(0x0040, 0xF0), (0x0041, 0xFF), (0x0010, 0x99)] with Y := 0x20 }
    t.A = 0x99 ∧ t.P = 0x80 ∧ t.PC = 0x0202 ∧ t.faultRecord = none := by decide

/-- R91, example. -/
theorem test_ldx_immediate :
    let t := stepped (placed 0x0000 [0xA2, 0x80] [])
    t.X = 0x80 ∧ t.P = 0x80 ∧ t.faultRecord = none := by decide

/-- R91, corner: LDX $FF,Y with Y = 0x02 reads 0x0001. -/
theorem test_ldx_zero_page_y_wraps :
    let t := stepped { placed 0x0200 [0xB6, 0xFF] [(0x0001, 0x33)] with Y := 0x02 }
    t.X = 0x33 ∧ t.faultRecord = none := by decide

/-- R92, example. -/
theorem test_ldy_immediate :
    let t := stepped (placed 0x0000 [0xA0, 0x00] [])
    t.Y = 0x00 ∧ t.P = 0x02 ∧ t.faultRecord = none := by decide

/-- R93, example. -/
theorem test_sta_absolute :
    let t := stepped { placed 0x0200 [0x8D, 0x00, 0x03] [] with A := 0x42 }
    byteAt t 0x0300 = 0x42 ∧ t.A = 0x42 ∧ t.P = 0x00 ∧ t.PC = 0x0203 ∧ t.faultRecord = none := by decide

/-- R94, example. -/
theorem test_stx_zero_page :
    let t := stepped { placed 0x0200 [0x86, 0x10] [] with X := 0x03 }
    byteAt t 0x0010 = 0x03 ∧ t.faultRecord = none := by decide

/-- R95, corner: STY $F0,X with X = 0x20 writes 0x0010. -/
theorem test_sty_zero_page_x_wraps :
    let t := stepped { placed 0x0200 [0x94, 0xF0] [(0x0110, 0x00)] with X := 0x20, Y := 0x07 }
    byteAt t 0x0010 = 0x07 ∧ byteAt t 0x0110 = 0x00 ∧ t.faultRecord = none := by decide

/-- R96, example. -/
theorem test_tax :
    let t := stepped { placed 0x0200 [0xAA] [] with A := 0xFF }
    t.X = 0xFF ∧ t.P = 0x80 ∧ t.PC = 0x0201 ∧ t.faultRecord = none := by decide

/-- R97, example. -/
theorem test_tay :
    let t := stepped { placed 0x0200 [0xA8] [] with Y := 0x05 }
    t.Y = 0x00 ∧ t.P = 0x02 ∧ t.faultRecord = none := by decide

/-- R98, example. -/
theorem test_txa :
    let t := stepped { placed 0x0200 [0x8A] [] with X := 0x7F }
    t.A = 0x7F ∧ t.P = 0x00 ∧ t.faultRecord = none := by decide

/-- R99, example. -/
theorem test_tya :
    let t := stepped { placed 0x0200 [0x98] [] with Y := 0x80 }
    t.A = 0x80 ∧ t.P = 0x80 ∧ t.faultRecord = none := by decide

/-- R100, example. -/
theorem test_tsx :
    let t := stepped { placed 0x0200 [0xBA] [] with S := 0xFD }
    t.X = 0xFD ∧ t.P = 0x80 ∧ t.faultRecord = none := by decide

/-- R101, example. -/
theorem test_txs :
    let t := stepped { placed 0x0200 [0x9A] [] with X := 0xFF }
    t.S = 0xFF ∧ t.P = 0x00 ∧ t.faultRecord = none := by decide

/-- R102, example. -/
theorem test_clc :
    let t := stepped { placed 0x0000 [0x18] [] with P := 0x01 }
    t.P = 0x00 ∧ t.PC = 0x0001 ∧ t.faultRecord = none := by decide

/-- R103, example. -/
theorem test_cld :
    let t := stepped { placed 0x0000 [0xD8] [] with P := 0x08 }
    t.P = 0x00 ∧ t.PC = 0x0001 ∧ t.faultRecord = none := by decide

/-- R104, example. -/
theorem test_cli :
    let t := stepped { placed 0x0000 [0x58] [] with P := 0x04 }
    t.P = 0x00 ∧ t.PC = 0x0001 ∧ t.faultRecord = none := by decide

/-- R105, example. -/
theorem test_clv :
    let t := stepped { placed 0x0000 [0xB8] [] with P := 0x40 }
    t.P = 0x00 ∧ t.PC = 0x0001 ∧ t.faultRecord = none := by decide

/-- R106, example. -/
theorem test_sec :
    let t := stepped { placed 0x0000 [0x38] [] with P := 0x00 }
    t.P = 0x01 ∧ t.PC = 0x0001 ∧ t.faultRecord = none := by decide

/-- R107, example. -/
theorem test_sed :
    let t := stepped { placed 0x0000 [0xF8] [] with P := 0x00 }
    t.P = 0x08 ∧ t.PC = 0x0001 ∧ t.faultRecord = none := by decide

/-- R108, example. -/
theorem test_sei :
    let t := stepped { placed 0x0000 [0x78] [] with P := 0x00 }
    t.P = 0x04 ∧ t.PC = 0x0001 ∧ t.faultRecord = none := by decide

/-- R109, example. -/
theorem test_inc_zero_page :
    let t := stepped (placed 0x0200 [0xE6, 0x10] [(0x0010, 0x41)])
    byteAt t 0x0010 = 0x42 ∧ t.P = 0x00 ∧ t.faultRecord = none := by decide

/-- R109, corner: 0xFF becomes 0x00 with Z = 1. -/
theorem test_inc_wraps :
    let t := stepped (placed 0x0200 [0xE6, 0x10] [(0x0010, 0xFF)])
    byteAt t 0x0010 = 0x00 ∧ t.P = 0x02 ∧ t.faultRecord = none := by decide

/-- R110, example. -/
theorem test_dec_absolute :
    let t := stepped (placed 0x0200 [0xCE, 0x34, 0x12] [(0x1234, 0x00)])
    byteAt t 0x1234 = 0xFF ∧ t.P = 0x80 ∧ t.faultRecord = none := by decide

/-- R111, example. -/
theorem test_inx :
    let t := stepped { placed 0x0200 [0xE8] [] with X := 0x7F }
    t.X = 0x80 ∧ t.P = 0x80 ∧ t.faultRecord = none := by decide

/-- R112, example. -/
theorem test_iny :
    let t := stepped (placed 0x0200 [0xC8] [])
    t.Y = 0x01 ∧ t.P = 0x00 ∧ t.faultRecord = none := by decide

/-- R113, example. -/
theorem test_dex :
    let t := stepped { placed 0x0200 [0xCA] [] with X := 0x01 }
    t.X = 0x00 ∧ t.P = 0x02 ∧ t.faultRecord = none := by decide

/-- R114, example. -/
theorem test_dey :
    let t := stepped { placed 0x0200 [0x88] [] with Y := 0x80 }
    t.Y = 0x7F ∧ t.P = 0x00 ∧ t.faultRecord = none := by decide

/-- R115, example. -/
theorem test_cmp_equal :
    let t := stepped { placed 0x0200 [0xC9, 0x0F] [] with A := 0x0F }
    t.A = 0x0F ∧ t.P = 0x03 ∧ t.faultRecord = none := by decide

/-- R115, example. -/
theorem test_cmp_less :
    let t := stepped { placed 0x0200 [0xC9, 0x10] [] with A := 0x0F }
    t.A = 0x0F ∧ t.P = 0x80 ∧ t.faultRecord = none := by decide

/-- R116, example. -/
theorem test_cpx_equal :
    let t := stepped { placed 0x0200 [0xE0, 0x05] [] with X := 0x05 }
    t.X = 0x05 ∧ t.P = 0x03 ∧ t.faultRecord = none := by decide

/-- R117, example. -/
theorem test_cpy_less :
    let t := stepped { placed 0x0200 [0xC0, 0x02] [] with Y := 0x01 }
    t.Y = 0x01 ∧ t.P = 0x80 ∧ t.faultRecord = none := by decide

/-- R118, example. -/
theorem test_and_immediate :
    let t := stepped { placed 0x0200 [0x29, 0x3C] [] with A := 0xF0 }
    t.A = 0x30 ∧ t.P = 0x00 ∧ t.faultRecord = none := by decide

/-- R119, example. -/
theorem test_ora_immediate :
    let t := stepped { placed 0x0200 [0x09, 0x80] [] with A := 0x01 }
    t.A = 0x81 ∧ t.P = 0x80 ∧ t.faultRecord = none := by decide

/-- R120, example. -/
theorem test_eor_immediate :
    let t := stepped { placed 0x0200 [0x49, 0xFF] [] with A := 0x55 }
    t.A = 0xAA ∧ t.P = 0x80 ∧ t.faultRecord = none := by decide

/-- R121, example. -/
theorem test_asl_accumulator :
    let t := stepped { placed 0x0200 [0x0A] [] with A := 0x81 }
    t.A = 0x02 ∧ t.P = 0x01 ∧ t.faultRecord = none := by decide

/-- R122, example. -/
theorem test_lsr_zero_page :
    let t := stepped (placed 0x0200 [0x46, 0x20] [(0x0020, 0x03)])
    byteAt t 0x0020 = 0x01 ∧ t.P = 0x01 ∧ t.faultRecord = none := by decide

/-- R123, example. -/
theorem test_rol_accumulator :
    let t := stepped { placed 0x0200 [0x2A] [] with A := 0x40, P := 0x01 }
    t.A = 0x81 ∧ t.P = 0x80 ∧ t.faultRecord = none := by decide

/-- R124, example. -/
theorem test_ror_accumulator :
    let t := stepped { placed 0x0200 [0x6A] [] with A := 0x02, P := 0x01 }
    t.A = 0x81 ∧ t.P = 0x80 ∧ t.faultRecord = none := by decide

/-- R126, example. -/
theorem test_beq_taken :
    let t := stepped { placed 0x0010 [0xF0, 0x04] [] with P := 0x02 }
    t.PC = 0x0016 ∧ t.P = 0x02 ∧ t.faultRecord = none := by decide

/-- R127, example. -/
theorem test_bne_backward :
    let t := stepped (placed 0x000A [0xD0, 0xF8] [])
    t.PC = 0x0004 ∧ t.faultRecord = none := by decide

/-- R128, example. -/
theorem test_bmi_not_taken :
    let t := stepped (placed 0x0200 [0x30, 0x10] [])
    t.PC = 0x0202 ∧ t.faultRecord = none := by decide

/-- R129, example. -/
theorem test_bpl_furthest_back :
    let t := stepped (placed 0x0200 [0x10, 0x80] [])
    t.PC = 0x0182 ∧ t.faultRecord = none := by decide

/-- R130, example. -/
theorem test_bcs_furthest_forward :
    let t := stepped { placed 0x0300 [0xB0, 0x7F] [] with P := 0x01 }
    t.PC = 0x0381 ∧ t.faultRecord = none := by decide

/-- R131, example. -/
theorem test_bcc_not_taken :
    let t := stepped { placed 0x0300 [0x90, 0x7F] [] with P := 0x01 }
    t.PC = 0x0302 ∧ t.faultRecord = none := by decide

/-- R132, example. -/
theorem test_bvc_wraps :
    let t := stepped (placed 0xFFF0 [0x50, 0x7F] [])
    t.PC = 0x0071 ∧ t.faultRecord = none := by decide

/-- R133, example. -/
theorem test_bvs_loop :
    let t := stepped { placed 0x0040 [0x70, 0xFE] [] with P := 0x40 }
    t.PC = 0x0040 ∧ t.faultRecord = none := by decide

/-- R134, example. -/
theorem test_jmp_indirect_page_bug :
    let t := stepped (placed 0x0200 [0x6C, 0xFF, 0x00] [(0x0000, 0x00), (0x00FF, 0x76), (0x0100, 0x10)])
    t.PC = 0x0076 ∧ t.faultRecord = none := by decide

/-- R74, R134: low byte first. -/
theorem test_jmp_absolute :
    let t := stepped (placed 0x0200 [0x4C, 0x34, 0x12] [])
    t.PC = 0x1234 ∧ t.faultRecord = none := by decide

/-- R135, example. -/
theorem test_jsr :
    let t := stepped { placed 0x0003 [0x20, 0x09, 0x00] [] with S := 0xFF }
    byteAt t 0x01FF = 0x00 ∧ byteAt t 0x01FE = 0x06 ∧ t.S = 0xFD ∧ t.PC = 0x0009 ∧ t.faultRecord = none := by decide

/-- R135, corner: the target is read from the pushed bytes when they lie at K+1 and K+2. -/
theorem test_jsr_reads_pushed_target :
    let t := stepped { placed 0x01FD [0x20, 0x34, 0x12] [] with S := 0xFF }
    t.PC = 0x0200 ∧ t.S = 0xFD ∧ t.faultRecord = none := by decide

/-- R136, example. -/
theorem test_rts :
    let t := stepped { placed 0x0300 [0x60] [(0x01FE, 0x06), (0x01FF, 0x00)] with S := 0xFD }
    t.PC = 0x0006 ∧ t.S = 0xFF ∧ t.faultRecord = none := by decide

/-- R137, example. -/
theorem test_pha :
    let t := stepped { placed 0x0300 [0x48] [] with A := 0x5A, S := 0xFF }
    byteAt t 0x01FF = 0x5A ∧ t.S = 0xFE ∧ t.P = 0x00 ∧ t.faultRecord = none := by decide

/-- R138, example. -/
theorem test_pla :
    let t := stepped { placed 0x0300 [0x68] [(0x01FF, 0x80)] with S := 0xFE }
    t.A = 0x80 ∧ t.P = 0x80 ∧ t.S = 0xFF ∧ t.faultRecord = none := by decide

/-- R139, example. -/
theorem test_php :
    let t := stepped { placed 0x0300 [0x08] [] with P := 0x01 }
    byteAt t 0x0100 = 0x19 ∧ t.S = 0xFF ∧ t.P = 0x01 ∧ t.faultRecord = none := by decide

/-- R140, example (the last step of scenario 3). -/
theorem test_plp :
    let t := stepped { placed 0x0300 [0x28] [(0x0100, 0x19)] with S := 0xFF }
    t.P = 0x01 ∧ t.S = 0x00 ∧ t.faultRecord = none := by decide

/-- R141, example. -/
theorem test_bit_zero_page :
    let t := stepped { placed 0x0200 [0x24, 0x10] [(0x0010, 0x41)] with A := 0x01 }
    t.A = 0x01 ∧ t.P = 0x40 ∧ t.faultRecord = none := by decide

/-- R141, corner. -/
theorem test_bit_three_flags :
    let t := stepped (placed 0x0200 [0x24, 0x10] [(0x0010, 0xC0)])
    t.P = 0xC2 ∧ t.faultRecord = none := by decide

/-- R142, example (the source's scenario 4). -/
theorem test_adc_decimal :
    let t := stepped { placed 0x0200 [0x69, 0x01] [] with A := 0x19, P := 0x08 }
    t.A = 0x20 ∧ t.P = 0x08 ∧ t.faultRecord = none := by decide

/-- R142, corner: 0x50 + 0x50. -/
theorem test_adc_overflow :
    let t := stepped { placed 0x0200 [0x69, 0x50] [] with A := 0x50 }
    t.A = 0xA0 ∧ t.P = 0xC0 ∧ t.faultRecord = none := by decide

/-- R145, example. -/
theorem test_sbc_binary :
    let t := stepped { placed 0x0200 [0xE9, 0x03] [] with A := 0x05, P := 0x01 }
    t.A = 0x02 ∧ t.P = 0x01 ∧ t.faultRecord = none := by decide

/-- R145, corner: 0x50 - 0xB0 with C = 1. -/
theorem test_sbc_overflow :
    let t := stepped { placed 0x0200 [0xE9, 0xB0] [] with A := 0x50, P := 0x01 }
    t.A = 0xA0 ∧ t.P = 0xC0 ∧ t.faultRecord = none := by decide

/-- R150, example. -/
theorem test_brk :
    let t := stepped { placed 0x0202 [0x00] [(0xFFFE, 0x00), (0xFFFF, 0x03)] with P := 0x09 }
    byteAt t 0x0100 = 0x02 ∧ byteAt t 0x01FF = 0x04 ∧ byteAt t 0x01FE = 0x19 ∧ t.S = 0xFD ∧ t.PC = 0x0300 ∧ t.P = 0x09 ∧ t.faultRecord = none := by decide

/-- R151, example. -/
theorem test_rti :
    let t := stepped { placed 0x0300 [0x40] [(0x01FE, 0x19), (0x01FF, 0x04), (0x0100, 0x02)] with S := 0xFD }
    t.P = 0x01 ∧ t.PC = 0x0204 ∧ t.S = 0x00 ∧ t.faultRecord = none := by decide

/-- R152, example. -/
theorem test_nop :
    let t := stepped { placed 0x0204 [0xEA] [] with A := 0x01, P := 0x21 }
    t.A = 0x01 ∧ t.P = 0x21 ∧ t.PC = 0x0205 ∧ t.faultRecord = none := by decide

/-- R58: a cell the launch does not set reads as the free value of its launch, not as 0x00. -/
theorem test_unset_cell : byteAt (placed 0 [] []) 0x0300 = Config.unsetByte State.reset.cfg.launch 0x0300 := rfl

/-! ### Witnesses: for each obligation with hypotheses, a state and operands that meet them, clause by clause -/

/-- An instruction answers a next state. -/
abbrev Completes (i : Instr) (s : State) : Prop := ∃ t, exec i s = .next t

/-- A state whose memory ends below `n`, with PC, S and operands as given. -/
def edge (n : Nat) (pc : Addr) (sp : Byte) : State := { small n (placed pc [0x10, 0x10] []) with S := sp }

/-- StepFollowsTheCycle: a recorded fault; PC at MEM_LEN; an absent opcode; a present one at the last cell. -/
theorem witness_StepFollowsTheCycle :
    (placed 0 [] []).cfg.ok = true ∧ (small 1 (placed 0 [] [])).cfg.ok = true ∧
    ({ placed 0 [] [] with faultRecord := some (.busRange 0) } : State).faultRecord = some (.busRange 0) ∧
    ((edge 1 1 0).faultRecord = none ∧ (edge 1 1 0).cfg.memLen ≤ (edge 1 1 0).PC.toNat) ∧
    (decodeOpcode ((placed 0 [0x02] []).busByte 0) = none) ∧
    ((small 1 (placed 0 [0xEA] [])).PC.toNat < 1 ∧ decodeOpcode ((small 1 (placed 0 [0xEA] [])).busByte 0) = some .nop) := by
  decide

/-- StepRunsTheDecodedInstruction: an instruction across the end of the address space. -/
theorem witness_StepRunsTheDecodedInstruction :
    let s := placed 0xFFFE [0xAD, 0x34, 0x12] []
    s.FullMemory ∧ s.NoDevices ∧ s.faultRecord = none ∧
    decode [byteAt s s.PC, byteAt s (s.PC + 1), byteAt s (s.PC + 2)] = .code ⟨.ldaAbs, [0x34, 0x12]⟩ [] ∧
    Instr.ldaAbs ≠ .jsr ∧ ([0x34, 0x12] : List Byte)[1]? = some 0x12 := by
  decide

/-- StepRunsTheDecodedInstruction, JSR: its pushes overwrite both operand bytes, 0x34 and 0x12, with 0x00 and 0x02. -/
theorem witness_StepRunsTheDecodedInstruction_jsr :
    let s : State := { placed 0x01FD [0x20, 0x34, 0x12] [] with S := 0xFF }
    let u := afterPush (afterPush (afterFetch s) (BitVec.ofNat 8 ((s.PC.toNat + 3) % 65536 / 256)))
      (BitVec.ofNat 8 ((s.PC.toNat + 3) % 65536 % 256))
    s.FullMemory ∧ s.NoDevices ∧ s.faultRecord = none ∧
    decode [byteAt s s.PC, byteAt s (s.PC + 1), byteAt s (s.PC + 2)] = .code ⟨.jsr, [0x34, 0x12]⟩ [] ∧
    byteAt u 0x01FE = 0x00 ∧ byteAt u 0x01FF = 0x02 := by
  decide

theorem witness_UnimplementedOpcodeChangesOnlyPc :
    let s := placed 0 [0xFF] []
    s.cfg.ok = true ∧ s.faultRecord = none ∧ s.PC.toNat < s.cfg.memLen ∧ s.busByte s.PC ∈ unimplemented := by
  decide

theorem witness_RecordedFaultIsSticky :
    let s : State := { placed 0 [] [] with faultRecord := some (.unimplemented 0x02) }
    s.cfg.ok = true ∧ s.faultRecord = some (.unimplemented 0x02) ∧ s.PC.toNat < s.cfg.memLen ∧ s.FullMemory := by
  decide

theorem witness_BadConfigurationIsRefused :
    (small 0 (placed 0 [] [])).cfg.memLen = 0 ∧ 65536 < (small 65537 (placed 0 [] [])).cfg.memLen := by decide

theorem witness_FlagsAreBitsOfP : Flag.C ≠ Flag.N := by decide

/-- FetchReadsAtPcAndAdvances: the last cell in range, the first out of range, and 0xFFFF. -/
theorem witness_FetchReadsAtPcAndAdvances :
    (edge 1 0 0).PC.toNat < (edge 1 0 0).cfg.memLen ∧ (edge 1 1 0).cfg.memLen ≤ (edge 1 1 0).PC.toNat ∧
    (placed 0xFFFF [] []).PC = 0xFFFF := by
  decide

/-- PushWritesThenDecrements: S = 0x00 at the last cell in range, S = 0xFF out of range. -/
theorem witness_PushWritesThenDecrements :
    (cell (edge 0x101 0 0x00).S).toNat < (edge 0x101 0 0x00).cfg.memLen ∧
    (edge 0x101 0 0xFF).cfg.memLen ≤ (cell (edge 0x101 0 0xFF).S).toNat := by
  decide

/-- PopIncrementsThenReads, PhaAndPla, PhpAndPlp: S = 0xFF pops 0x0100; S = 0x00 pops 0x0101, out of range. -/
theorem witness_PopIncrementsThenReads :
    (cell (poppedS (edge 0x101 0 0xFF))).toNat < (edge 0x101 0 0xFF).cfg.memLen ∧
    (edge 0x101 0 0x00).cfg.memLen ≤ (cell (poppedS (edge 0x101 0 0x00))).toNat := by
  decide

/-- BusReadsReturnTheLastWrite: out of range, in range, and in range inside and outside IO_REGION. -/
theorem witness_BusReadsReturnTheLastWrite :
    (edge 1 0 0).cfg.memLen ≤ (1 : Addr).toNat ∧ (0 : Addr).toNat < (edge 1 0 0).cfg.memLen ∧
    (0 : Addr) ∉ (edge 1 0 0).cfg.ioRegion ∧
    (0x4000 : Addr) ∈ ({ placed 0 [] [] with cfg := { ioRegion := [0x4000] } } : State).cfg.ioRegion ∧ (1 : Nat) ≠ (0 : Addr).toNat := by
  decide

theorem witness_ZeroPageModesStayInPageZero : (edge 1 0 0).PC.toNat < (edge 1 0 0).cfg.memLen := by decide

theorem witness_AbsoluteModesAddMod65536 :
    (edge 2 0 0).PC.toNat < (edge 2 0 0).cfg.memLen ∧ (afterFetch (edge 2 0 0)).PC.toNat < (edge 2 0 0).cfg.memLen := by
  decide

/-- IndirectHasThePageBug: the pointer 0x00FF. -/
theorem witness_IndirectHasThePageBug :
    let s := placed 0x0200 [0xFF, 0x00] []
    let t := afterFetch s
    s.PC.toNat < s.cfg.memLen ∧ (0xFF : Byte) = s.busByte s.PC ∧ t.PC.toNat < s.cfg.memLen ∧ (0x00 : Byte) = t.busByte t.PC ∧
    (0x00FF : Addr) = BitVec.ofNat 16 ((0x00 : Byte).toNat * 256 + (0xFF : Byte).toNat) ∧
    (0x0000 : Addr) = BitVec.ofNat 16 ((0x00 : Byte).toNat * 256 + ((0xFF : Byte).toNat + 1) % 256) ∧
    (0x00FF : Addr).toNat < s.cfg.memLen ∧ (0x0000 : Addr).toNat < s.cfg.memLen := by
  decide

/-- ZeroPagePointersWrap: the pointer 0xFF, in both modes. -/
theorem witness_ZeroPagePointersWrap :
    let s : State := { placed 0x0200 [0xFE] [] with X := 0x01 }
    let t := placed 0x0200 [0xFF] []
    (s.PC.toNat < s.cfg.memLen ∧ (0xFE : Byte) = s.busByte s.PC ∧
      (0x00FF : Addr) = BitVec.ofNat 16 (((0xFE : Byte).toNat + s.X.toNat) % 256) ∧
      (0x0000 : Addr) = BitVec.ofNat 16 (((0xFE : Byte).toNat + s.X.toNat + 1) % 256)) ∧
    ((0xFF : Byte) = t.busByte t.PC ∧ (0x00FF : Addr) = BitVec.ofNat 16 (0xFF : Byte).toNat ∧
      (0x0000 : Addr) = BitVec.ofNat 16 (((0xFF : Byte).toNat + 1) % 256)) ∧
    (0x00FF : Addr).toNat < s.cfg.memLen ∧ (0x0000 : Addr).toNat < s.cfg.memLen := by
  decide

/-- GetDataReadsAtTheAddress: a memory mode whose address resolves, and one whose operand fetch is out of range. -/
theorem witness_GetDataReadsAtTheAddress :
    (∃ ea t, getAddr .zeroPage (edge 1 0 0) = .ok ea t) ∧ (∃ f t, getAddr .zeroPage (edge 1 1 0) = .error f t) ∧
    Mode.zeroPage ∈ memoryModes ∧ (∃ v t, getData .immediate (edge 1 0 0) = .ok v t) ∧ (placed 0 [] []).FullMemory :=
  ⟨⟨_, _, rfl⟩, ⟨_, _, rfl⟩, by decide, ⟨_, _, rfl⟩, rfl⟩

/-- ResolverChangesOnlyPcAndBus: in a memory mode GetAddr answers, or stops at its second operand byte; GetData answers, or
stops at the address or at an immediate byte. -/
theorem witness_ResolverChangesOnlyPcAndBus :
    (∃ ea t, getAddr .absolute (edge 2 0 0) = .ok ea t) ∧ (∃ v t, getData .zeroPage (edge 0x11 0 0) = .ok v t) ∧
    (placed 0 [] []).FullMemory ∧ Mode.absolute ∈ memoryModes ∧ Mode.immediate ∈ memoryModes ++ [.immediate, .relative] ∧
    (∃ f t, getAddr .absolute (edge 1 0 0) = .error f t) ∧ (∃ f t, getData .zeroPage (edge 0x10 0 0) = .error f t) ∧
    (∃ f t, getData .immediate (edge 1 1 0) = .error f t) :=
  ⟨⟨_, _, rfl⟩, ⟨_, _, rfl⟩, rfl, by decide, by decide, ⟨_, _, rfl⟩, ⟨_, _, rfl⟩, ⟨_, _, rfl⟩⟩

/-- The read classes (LoadsTakeTheOperand, ComparesSetCarryZeroNegative, LogicalCombinesBits, BitTestsTheOperand,
AdcAddsWithCarry, SbcSubtractsWithBorrow): a full memory, an operand that is read, one that is out of range. -/
theorem witness_ReadClass :
    (placed 0 [0x10] []).FullMemory ∧ (∃ v t, getData .zeroPage (edge 0x11 0 0) = .ok v t) ∧
    (∃ f t, getData .zeroPage (edge 0x10 0 0) = .error f t) :=
  ⟨rfl, ⟨_, _, rfl⟩, ⟨_, _, rfl⟩⟩

/-- The write and modify classes (StoresWriteTheRegister, IncrementsAndDecrements, ShiftsAndRotatesMoveBits) and
JumpGoesToTheAddress: an address that resolves in range, one that resolves out of range, one that does not resolve. -/
theorem witness_WriteClass :
    (placed 0 [0x10] []).FullMemory ∧
    (∃ t, getAddr .zeroPage (edge 0x11 0 0) = .ok 0x0010 t ∧ (0x0010 : Addr).toNat < (edge 0x11 0 0).cfg.memLen) ∧
    (∃ t, getAddr .zeroPage (edge 0x10 0 0) = .ok 0x0010 t ∧ (edge 0x10 0 0).cfg.memLen ≤ (0x0010 : Addr).toNat) ∧
    (∃ f t, getAddr .zeroPage (edge 1 1 0) = .error f t) ∧ (∃ ea t, getAddr .absolute (edge 2 0 0) = .ok ea t) ∧
    (∃ f t, getAddr .absolute (edge 1 0 0) = .error f t) :=
  ⟨rfl, ⟨_, rfl, by decide⟩, ⟨_, rfl, by decide⟩, ⟨_, _, rfl⟩, ⟨_, _, rfl⟩, ⟨_, _, rfl⟩⟩

/-- BranchesMoveByTheSignedOffset: the offset at the last cell in range, and at the first out of range. -/
theorem witness_BranchesMoveByTheSignedOffset :
    (edge 1 0 0).PC.toNat < (edge 1 0 0).cfg.memLen ∧ (edge 1 1 0).cfg.memLen ≤ (edge 1 1 0).PC.toNat := by
  decide

/-- The state after one push, of any byte. -/
def pushed (s : State) : State := afterPush s 0x00

/-- JsrPushesThenFetchesTheTarget: a full memory; the first push out of range; only the second; only the first operand byte;
only the second; a smaller memory with all of them in range. A push leaves the same S whatever byte it pushes. -/
theorem witness_JsrPushesThenFetchesTheTarget :
    (placed 0 [] []).FullMemory ∧ 0x100 ≤ (cell (edge 0x100 0 0x00).S).toNat ∧
    ((cell (edge 0x101 0 0x00).S).toNat < 0x101 ∧ 0x101 ≤ (cell (pushed (edge 0x101 0 0x00)).S).toNat) ∧
    ((cell (edge 0x200 0x200 0xFF).S).toNat < 0x200 ∧ (cell (pushed (edge 0x200 0x200 0xFF)).S).toNat < 0x200 ∧
      0x200 ≤ (edge 0x200 0x200 0xFF).PC.toNat) ∧
    ((edge 0x200 0x1FF 0xF0).PC.toNat < 0x200 ∧
      0x200 ≤ (afterFetch (pushed (pushed (edge 0x200 0x1FF 0xF0)))).PC.toNat) ∧
    ((edge 0x200 0x1FE 0xF0).PC.toNat < 0x200 ∧
      (afterFetch (pushed (pushed (edge 0x200 0x1FE 0xF0)))).PC.toNat < 0x200) := by
  decide

/-- RtsPopsThePc: both cells in range (S = 0xFE pops 0x01FF and 0x0100), the first out, only the second out. -/
theorem witness_RtsPopsThePc :
    ((cell (poppedS (edge 0x200 0 0xFE))).toNat < 0x200 ∧ (cell (poppedS (afterPop (edge 0x200 0 0xFE)))).toNat < 0x200) ∧
    0x101 ≤ (cell (poppedS (edge 0x101 0 0x00))).toNat ∧
    ((cell (poppedS (edge 0x101 0 0xFF))).toNat < 0x101 ∧ 0x101 ≤ (cell (poppedS (afterPop (edge 0x101 0 0xFF)))).toNat) := by
  decide

/-- RtiRestoresStatusAndPc: its four clauses. -/
theorem witness_RtiRestoresStatusAndPc :
    let s := edge 0x102 0 0xFF
    ((cell (poppedS (edge 0x200 0 0xFD))).toNat < 0x200 ∧ (cell (poppedS (afterPop (edge 0x200 0 0xFD)))).toNat < 0x200 ∧
      (cell (poppedS (afterPop (afterPop (edge 0x200 0 0xFD))))).toNat < 0x200) ∧
    0x101 ≤ (cell (poppedS (edge 0x101 0 0x00))).toNat ∧
    ((cell (poppedS (edge 0x101 0 0xFF))).toNat < 0x101 ∧ 0x101 ≤ (cell (poppedS (afterPop (edge 0x101 0 0xFF)))).toNat) ∧
    ((cell (poppedS s)).toNat < 0x102 ∧ (cell (poppedS (afterPop s))).toNat < 0x102 ∧
      0x102 ≤ (cell (poppedS (afterPop (afterPop s)))).toNat) := by
  decide

/-- PhaAndPla, PhpAndPlp: the four clauses. -/
theorem witness_PhaAndPla :
    (cell (edge 0x101 0 0x00).S).toNat < 0x101 ∧ 0x101 ≤ (cell (edge 0x101 0 0x01).S).toNat ∧
    (cell (poppedS (edge 0x101 0 0xFF))).toNat < 0x101 ∧ 0x101 ≤ (cell (poppedS (edge 0x101 0 0x00))).toNat := by
  decide

theorem witness_DefaultDecimalIsExactOnValidDigits : ValidBcd 0x99 ∧ ValidBcd 0x00 := by
  unfold ValidBcd
  decide

theorem witness_BinaryModeIgnoresTheDecimalParameters :
    getFlag .D (placed 0 [0x99] []).P = false ∧ Completes .adcImm (placed 0 [0x99] []) := ⟨by decide, _, rfl⟩

/-- BrkEntersThroughTheVector, EveryInstructionCompletesOnFullMemory: a full memory; the first, the second and the third push
out of range; the vector out of range; its second byte alone. -/
theorem witness_BrkEntersThroughTheVector :
    (placed 0x0203 [] []).FullMemory ∧ 0x100 ≤ (cell (edge 0x100 0 0x00).S).toNat ∧
    ((cell (edge 0x101 0 0x00).S).toNat < 0x101 ∧ 0x101 ≤ (cell (pushed (edge 0x101 0 0x00)).S).toNat) ∧
    ((cell (edge 0x102 0 0x01).S).toNat < 0x102 ∧ (cell (pushed (edge 0x102 0 0x01)).S).toNat < 0x102 ∧
      0x102 ≤ (cell (pushed (pushed (edge 0x102 0 0x01))).S).toNat) ∧
    ((cell (pushed (pushed (edge 0x200 0 0xFF))).S).toNat < 0x200 ∧ (edge 0x200 0 0xFF).cfg.memLen ≤ 0xFFFE) ∧
    ((cell (pushed (pushed (edge 0xFFFF 0 0xFF))).S).toNat < 0xFFFF ∧ (edge 0xFFFF 0 0xFF).cfg.memLen = 0xFFFF) := by
  decide

theorem witness_OnlyNamedInstructionsWriteARegister :
    Completes .ldaImm (placed 0 [0x10] []) ∧ writesReg .X .ldaImm = false := ⟨⟨_, rfl⟩, rfl⟩

theorem witness_OnlyNamedInstructionsWriteAFlag :
    Completes .adcImm (placed 0 [0x10] []) ∧ restoresP .adcImm = false ∧ writesFlag .D .adcImm = false := ⟨⟨_, rfl⟩, rfl, rfl⟩

theorem witness_NonStoringInstructionsKeepMemory :
    Completes .ldaImm (placed 0 [0x10] []) ∧ storesToMemory .ldaImm = false := ⟨⟨_, rfl⟩, rfl⟩

/-- StoringInstructionsKeepOtherBytes: a store that resolves, one that does not, and the pushing instructions. -/
theorem witness_StoringInstructionsKeepOtherBytes :
    (Completes .staZp (placed 0 [0x10] []) ∧ storesToMemory .staZp = true ∧
      Instr.staZp.mnemonic ∉ [Mnemonic.PHA, .PHP, .JSR, .BRK] ∧
      (∃ ea u, getAddr Instr.staZp.mode (placed 0 [0x10] []) = .ok ea u)) ∧
    (Completes .staZp (edge 1 1 0) ∧ ∃ f u, getAddr Instr.staZp.mode (edge 1 1 0) = .error f u) ∧
    (Completes .pha (placed 0 [] []) ∧ Instr.pha.mnemonic ∈ [Mnemonic.PHA, .PHP]) ∧
    (Completes .jsr (placed 0 [] []) ∧ Instr.jsr.mnemonic = .JSR) ∧
    (Completes .brk (placed 0 [] []) ∧ Instr.brk.mnemonic = .BRK) :=
  ⟨⟨⟨_, rfl⟩, rfl, by decide, _, _, rfl⟩, ⟨⟨_, rfl⟩, _, _, rfl⟩, ⟨⟨_, rfl⟩, by decide⟩, ⟨⟨_, rfl⟩, rfl⟩, ⟨_, rfl⟩, rfl⟩

theorem witness_PcAdvancesByTheLength : (placed 0xFFFF [0x10] []).FullMemory ∧ writesPC .ldaAbs = false := ⟨rfl, rfl⟩

theorem witness_InterruptBreakAndUnusedBitsAreInert :
    Flag.I ∈ [Flag.I, Flag.B, Flag.U] ∧ Instr.adcImm.mnemonic ∉ [Mnemonic.PHP, .BRK] ∧ restoresP .adcImm = false ∧
    writesFlag .I .adcImm = false ∧ Completes .adcImm (placed 0 [0x10] []) :=
  ⟨by decide, by decide, rfl, rfl, _, rfl⟩

/-- EveryStepKeepsTheInvariant and BusRecordReplaysToTheMemory: a state that meets the invariant and steps. -/
theorem witness_EveryStepKeepsTheInvariant :
    (placed 0 [0x48] []).Inv ∧ ∃ t, step (placed 0 [0x48] []) = .next t := ⟨by decide, _, rfl⟩

theorem witness_BusOperationsFollowTheTable : (placed 0 [0x10] []).FullMemory ∧ (placed 0 [0x10] []).NoDevices := ⟨rfl, rfl⟩

/-- FirstAccessOutOfRangeRaisesBusRange: with the full memory the instruction completes; in its own it faults. -/
theorem witness_FirstAccessOutOfRangeRaisesBusRange :
    Completes .ldaZp { edge 0x10 0 0 with cfg := { (edge 0x10 0 0).cfg with memLen := 65536 } } ∧
    ∃ t, exec .ldaZp (edge 0x10 0 0) = .next t ∧ t.faultRecord = some (.busRange 0x0010) := ⟨⟨_, rfl⟩, _, rfl, rfl⟩

/-- JsrThenRtsReturnsToTheNextInstruction: S = 0x00, so that the pushes wrap. -/
theorem witness_JsrThenRtsReturnsToTheNextInstruction :
    let s := placed 0x0201 [0x00, 0x03] []
    s.FullMemory ∧ s.NoDevices ∧ ∃ t t' : State, exec .jsr s = .next t ∧ t' = t ∧ t'.cfg = t.cfg ∧ t'.S = t.S ∧
      ∀ a ∈ [stackDown s 0, stackDown s 1], byteAt t' a = byteAt t a :=
  ⟨rfl, rfl, _, _, rfl, rfl, rfl, rfl, fun _ _ => rfl⟩

theorem witness_BrkThenRtiReturnsAndClearsDecimal :
    let s := placed 0x0201 [] []
    s.FullMemory ∧ s.NoDevices ∧ ∃ t t' : State, exec .brk s = .next t ∧ t' = t ∧ t'.cfg = t.cfg ∧ t'.S = t.S ∧
      ∀ a ∈ [stackDown s 0, stackDown s 1, stackDown s 2], byteAt t' a = byteAt t a :=
  ⟨rfl, rfl, _, _, rfl, rfl, rfl, rfl, fun _ _ => rfl⟩

theorem witness_PullsRestoreWhatPushesSaved :
    let s := placed 0x0201 [] []
    s.FullMemory ∧ s.NoDevices ∧
    (∃ t t' : State, exec .pha s = .next t ∧ t' = t ∧ t'.cfg = t.cfg ∧ t'.S = t.S ∧
      byteAt t' (stackDown s 0) = byteAt t (stackDown s 0)) ∧
    ∃ t t' : State, exec .php s = .next t ∧ t' = t ∧ t'.cfg = t.cfg ∧ t'.S = t.S ∧
      byteAt t' (stackDown s 0) = byteAt t (stackDown s 0) :=
  ⟨rfl, rfl, ⟨_, _, rfl, rfl, rfl, rfl, rfl⟩, ⟨_, _, rfl, rfl, rfl, rfl, rfl⟩⟩

theorem witness_ConstructionZeroesTheRegisters :
    1 ≤ ({ memLen := 1 } : Config).memLen ∧ ({ memLen := 1 } : Config).memLen ≤ 65536 ∧
    (∀ c ∈ ([] : List Host.Cell), c.1 ≠ 0) ∧
    0 < ({ memLen := 1 } : Config).memLen ∧ ∃ s', construct { memLen := 1 } ([] ++ [(0, 0x42)]) = .next s' :=
  ⟨by decide, by decide, by decide, by decide, _, rfl⟩

/-- ResetLoadsOnlyPc: the vector in range (at 0xFFFF, so that its second byte wraps to 0x0000), its first byte out of range,
and only its second. -/
theorem witness_ResetLoadsOnlyPc :
    let s : State := { placed 0 [] [] with cfg := { resetVector := 0xFFFF } }
    let t : State := { placed 0 [] [] with cfg := { memLen := 1, resetVector := 0x0001 } }
    let u : State := { placed 0 [] [] with cfg := { memLen := 1, resetVector := 0x0000 } }
    (s.cfg.resetVector.toNat < s.cfg.memLen ∧ (BitVec.ofNat 16 (s.cfg.resetVector.toNat + 1)).toNat < s.cfg.memLen) ∧
    t.cfg.memLen ≤ t.cfg.resetVector.toNat ∧
    (u.cfg.resetVector.toNat < u.cfg.memLen ∧ u.cfg.memLen ≤ (BitVec.ofNat 16 (u.cfg.resetVector.toNat + 1)).toNat) := by
  decide

/-- RunHaltsOnlyPastTheMemory: PC at MEM_LEN; PC below it where the step answers, faults or is refused; a run that halts
after one NOP; a full memory. -/
theorem witness_RunHaltsOnlyPastTheMemory :
    (edge 1 1 0).cfg.memLen ≤ (edge 1 1 0).PC.toNat ∧ (placed 0 [0xEA] []).PC.toNat < (placed 0 [0xEA] []).cfg.memLen ∧
    (∃ t, hostStep (placed 0 [0xEA] []) = .ok t) ∧ (∃ f t, hostStep (placed 0 [0x02] []) = .fault f t) ∧
    (∃ r, hostStep (small 65537 (placed 0 [] [])) = .refused r) ∧
    (∃ t, run 1 (small 1 (placed 0 [0xEA] [])) = .halted t) ∧ (placed 0 [] []).FullMemory :=
  ⟨by decide, by decide, ⟨_, rfl⟩, ⟨_, _, rfl⟩, ⟨_, rfl⟩, ⟨_, rfl⟩, rfl⟩

/-- HostStepsAndWritesBetweenSteps: a cell that a host write changes, one that does not exist, one in IO_REGION. -/
theorem witness_HostStepsAndWritesBetweenSteps :
    ((0x0300 : Addr).toNat < (placed 0 [] []).cfg.memLen ∧ (0x0300 : Addr) ∉ (placed 0 [] []).cfg.ioRegion) ∧
    (edge 0x300 0 0).cfg.memLen ≤ (0x0300 : Addr).toNat ∧
    (0x4000 : Addr) ∈ ({ placed 0 [] [] with cfg := { ioRegion := [0x4000] } } : State).cfg.ioRegion := by
  decide

end Sys2Proof.Tests
end

section
/-! PROOFS. The configurations that R6 admits, and the refusal of any other by `step`, `hostReset` and `construct`. -/

namespace Sys2Proof.Machine

variable {s : State} {c : Config}

/-- R6: what `Config.ok` checks. -/
theorem config_ok_iff : c.ok = true ↔ 1 ≤ c.memLen ∧ c.memLen ≤ 65536 := by
  simp only [Config.ok, Bool.and_eq_true, decide_eq_true_eq]

theorem config_not_ok_of_memLen (h : c.memLen = 0 ∨ 65536 < c.memLen) : ¬ c.ok = true := by
  rw [config_ok_iff]
  omega

theorem step_refused (h : ¬ s.cfg.ok = true) : step s = .refused .badConfig := if_neg h

theorem hostReset_refused (h : ¬ s.cfg.ok = true) : hostReset s = .refused .badConfig := if_neg h

theorem construct_refused (h : ¬ c.ok = true) (m0 : List Host.Cell) : construct c m0 = .refused .badConfig := if_neg h

/-- Settles O8: a MEM_LEN outside R6's range fails the check that each of the three operations makes first. -/
theorem badConfigurationIsRefused : Obligations.BadConfigurationIsRefused := by
  intro s hmem
  have hbad : ¬ s.cfg.ok = true := config_not_ok_of_memLen hmem
  exact ⟨step_refused hbad, hostReset_refused hbad, construct_refused hbad⟩

end Sys2Proof.Machine
end

section
/-! PROOFS. P bit by bit (spec/10_state.md R26, R27, R30), and what every step keeps: a legal configuration, memory in
canonical form below MEM_LEN, and the live B bit 0 (R28, R43). -/

namespace Sys2Proof.Machine

open Sys2Proof.Spec

/-! ### The bits of P -/

/-- Settles O9: the laws of Laws/Flags.lean, clause by clause. -/
theorem flagsAreBitsOfP : Obligations.FlagsAreBitsOfP := by
  refine ⟨fun p => ⟨rfl, rfl, rfl, rfl, rfl, rfl, rfl, rfl⟩, fun f b p => ⟨?_, fun g hg => ?_⟩, fun v s => ?_, setZN_eq_znP⟩
  · rw [getFlag_putFlag, if_pos rfl]
  · rw [getFlag_putFlag, if_neg hg]
  · exact BitVec.toNat_ofNat v 8

/-! ### The invariant -/

/-- R31: no instruction names B as a flag that it writes. -/
theorem writesFlag_B (i : Instr) : writesFlag .B i = false := by
  unfold writesFlag
  cases i.mnemonic <;> rfl

/-- The invariant speaks of the parameters, memory and P alone. -/
theorem State.Inv.congr {s t : State} (h : s.Inv) (hcfg : t.cfg = s.cfg) (hmem : t.mem = s.mem) (hP : t.P = s.P) :
    t.Inv := by
  simpa only [State.Inv, flag_eq, hcfg, hmem, hP] using h

/-- R42, R43: a write below MEM_LEN keeps the invariant; in IO_REGION it changes no cell. -/
theorem State.Inv.write {s : State} (h : s.Inv) {a : Addr} (ha : a.toNat < s.cfg.memLen) (v : Byte) :
    (afterWrite s a v).Inv := by
  by_cases hio : a ∈ s.cfg.ioRegion
  · exact h.congr rfl (if_pos hio) rfl
  · obtain ⟨hok, hwf, hbelow, hB⟩ := h
    have hmem : (afterWrite s a v).mem = Memory.write s.mem a.toNat v := if_neg hio
    refine ⟨hok, ?_, ?_, hB⟩
    · rw [hmem]
      exact wf_write _ _ _ hwf
    · rw [hmem]
      exact below_write _ _ _ _ ha hbelow

/-- Every change that an instruction's footprint allows keeps the invariant: B is in no footprint, and the whole P is
restored with B clear (R28). -/
theorem respects_inv (i : Instr) : Respects (fun s t => s.Inv → t.Inv) (footprint i) where
  refl := fun _ h => h
  trans := fun hst htu h => htu (hst h)
  read := fun _ _ h => h.congr rfl rfl rfl
  pc := fun _ _ h => h.congr rfl rfl rfl
  reg := fun r _ s v h => h.congr (setReg_cfg s r v) (setReg_mem s r v) (setReg_P s r v)
  flags := fun _ hg s ⟨hok, hwf, hbelow, hB⟩ => ⟨hok, hwf, hbelow, (hg s.P .B (writesFlag_B i)).trans hB⟩
  restore := fun _ _ v ⟨hok, hwf, hbelow, _⟩ => ⟨hok, hwf, hbelow, getFlag_restoredP .B v⟩
  write := fun _ _ _ v ha h => h.write ha v

/-- Settles O50: every change that a step can make keeps the invariant (`respects_inv`), and so does recording a fault. -/
theorem everyStepKeepsTheInvariant : Obligations.EveryStepKeepsTheInvariant := by
  intro s t hinv hstep
  have hkeeps : s.Inv → t.Inv := step_respects respects_inv (fun _ _ h => h.congr rfl rfl rfl) hstep
  exact hkeeps hinv

end Sys2Proof.Machine
end

section
/-! PROOFS. The resolver's frame (spec/10_state.md R24, R25; spec/30_encoding.md R76), and PC after an instruction that
writes none: with a full memory every operation completes and moves PC past its operand bytes. -/

namespace Sys2Proof.Machine

open Sys2Proof.Spec

/-! ### The resolver -/

/-- R69: the modes that the statements list are the ones that name an address. -/
theorem mem_memoryModes_iff (m : Mode) : m ∈ memoryModes ↔ Mode.hasAddr m = true := by cases m <;> decide

/-- R68: with Immediate and Relative, the ones that have an operand. -/
theorem mem_dataModes_iff (m : Mode) : m ∈ memoryModes ++ [.immediate, .relative] ↔ Mode.hasData m = true := by
  cases m <;> decide

/-- What `Fetched` says without the bounds on its reads. -/
theorem Fetched.frame {n : Nat} {s t : State} (h : Fetched n s t) : ∃ reads : List (Addr × Byte),
    t = { s with PC := BitVec.ofNat 16 (s.PC.toNat + n),
                 bus := (reads.map fun e => BusEvent.read e.1 e.2) ++ s.bus } := by
  obtain ⟨reads, ht, -, -⟩ := h
  exact ⟨reads, ht⟩

/-- Settles O19: what the resolver fetches where it succeeds, that it succeeds with a full memory, and where it stops. -/
theorem resolverChangesOnlyPcAndBus : Obligations.ResolverChangesOnlyPcAndBus := by
  intro s m
  simp only [mem_memoryModes_iff, mem_dataModes_iff]
  exact ⟨fun ea t h => (fetches_getAddr m s ea t h).frame, fun v t h => (fetches_getData m s v t h).frame,
    getAddr_full, getData_full, fun f t hm h => stops_getAddr m hm s f t h, fun f t hm h => stops_getData m hm s f t h⟩

/-! ### Completing with PC past the operand bytes -/

/-- With a full memory `o` completes, leaves the parameters, and moves PC `n` bytes on, mod 65536. -/
def Advances {α : Type} (n : Nat) (o : Op α) : Prop :=
  ∀ s : State, s.FullMemory → ∃ a t, o s = .ok a t ∧ t.cfg = s.cfg ∧ t.PC = BitVec.ofNat 16 (s.PC.toNat + n)

section

variable {α β : Type} {m n : Nat}

theorem Advances.bind {o : Op α} {k : α → Op β} (h : Advances m o) (hk : ∀ a, Advances n (k a)) :
    Advances (m + n) (o >>= k) := by
  intro s hs
  obtain ⟨a, t, ho, hcfg, hPC⟩ := h s hs
  obtain ⟨b, u, hu, hcfg', hPC'⟩ := hk a t (by rw [State.FullMemory, hcfg]; exact hs)
  refine ⟨b, u, by rw [bind_ok ho, hu], hcfg'.trans hcfg, ?_⟩
  rw [hPC', hPC, ← addr_add_ofNat, ← addr_add_ofNat, ← addr_add_ofNat, BitVec.ofNat_add, BitVec.add_assoc]

/-- An operation that completes with a full memory and moves PC by fetching alone. -/
theorem advances_of_fetches {o : Op α} (hf : Fetches n o) (hc : ∀ s : State, s.FullMemory → ∃ a t, o s = .ok a t) :
    Advances n o := by
  intro s hs
  obtain ⟨a, t, ho⟩ := hc s hs
  obtain ⟨reads, rfl, -, -⟩ := hf s a t ho
  exact ⟨a, _, ho, rfl, rfl⟩

/-- An operation that completes with a full memory and leaves PC. -/
theorem advances_of_keeps {o : Op α}
    (h : ∀ s : State, s.FullMemory → ∃ a t, o s = .ok a t ∧ t.cfg = s.cfg ∧ t.PC = s.PC) : Advances 0 o := by
  intro s hs
  obtain ⟨a, t, ho, hcfg, hPC⟩ := h s hs
  exact ⟨a, t, ho, hcfg, by rw [hPC, Nat.add_zero, BitVec.ofNat_toNat, BitVec.setWidth_eq]⟩

theorem advances_get (g : State → α) : Advances 0 (Op.get g) := advances_of_keeps fun _ _ => ⟨_, _, rfl, rfl, rfl⟩

theorem advances_update {g : State → State} (hcfg : ∀ s, (g s).cfg = s.cfg) (hPC : ∀ s, (g s).PC = s.PC) :
    Advances 0 (Op.update g) := advances_of_keeps fun s _ => ⟨_, _, rfl, hcfg s, hPC s⟩

end

theorem advances_getAddr (m : Mode) (hm : Mode.hasAddr m = true) : Advances m.operandBytes (getAddr m) :=
  advances_of_fetches (fetches_getAddr m) fun _ hs => getAddr_full hs hm

theorem advances_getData (m : Mode) (hm : Mode.hasData m = true) : Advances m.operandBytes (getData m) :=
  advances_of_fetches (fetches_getData m) fun _ hs => getData_full hs hm

theorem advances_memRead (a : Addr) : Advances 0 (memRead a) :=
  advances_of_keeps fun _ hs => ⟨_, _, memRead_ok (inRange hs a), rfl, rfl⟩

theorem advances_memWrite (a : Addr) (v : Byte) : Advances 0 (memWrite a v) :=
  advances_of_keeps fun _ hs => ⟨_, _, memWrite_ok (inRange hs a), rfl, rfl⟩

theorem advances_push (v : Byte) : Advances 0 (push v) :=
  advances_of_keeps fun _ hs => ⟨_, _, push_ok (inRange hs _), rfl, rfl⟩

theorem advances_pop : Advances 0 pop := advances_of_keeps fun _ hs => ⟨_, _, pop_ok (inRange hs _), rfl, rfl⟩

/-- An update of flags. -/
theorem advances_updateP (g : State → Byte → Byte) : Advances 0 (Op.update fun s => s.mapP (g s)) :=
  advances_update (fun _ => rfl) (fun _ => rfl)

/-- An update of a register and of flags. -/
theorem advances_updateRegP (r : Reg) (v : State → Byte) (g : State → Byte → Byte) :
    Advances 0 (Op.update fun s => (s.setReg r (v s)).mapP (g s)) :=
  advances_update (fun s => setReg_cfg s r _) (fun s => setReg_PC s r _)

/-! ### The shared operations of the families -/

section

variable {m : Mode}

theorem advances_load (r : Reg) (hm : Mode.hasData m = true) : Advances m.operandBytes (load r m) :=
  (advances_getData m hm).bind (n := 0) fun _ => advances_updateRegP r _ _

theorem advances_compare (r : Reg) (hm : Mode.hasData m = true) : Advances m.operandBytes (compare r m) :=
  (advances_getData m hm).bind (n := 0) fun _ => advances_updateP _

theorem advances_logical (f : Byte → Byte → Byte) (hm : Mode.hasData m = true) : Advances m.operandBytes (logical f m) :=
  (advances_getData m hm).bind (n := 0) fun _ => advances_updateRegP .A _ _

theorem advances_bitTest (hm : Mode.hasData m = true) : Advances m.operandBytes (bitTest m) :=
  (advances_getData m hm).bind (n := 0) fun _ => advances_updateP _

theorem advances_addCarry (hm : Mode.hasData m = true) : Advances m.operandBytes (addCarry m) :=
  (advances_getData m hm).bind (n := 0) fun _ => advances_updateRegP .A _ _

theorem advances_subBorrow (hm : Mode.hasData m = true) : Advances m.operandBytes (subBorrow m) :=
  (advances_getData m hm).bind (n := 0) fun _ => advances_updateRegP .A _ _

theorem advances_store (r : Reg) (hm : Mode.hasAddr m = true) : Advances m.operandBytes (store r m) :=
  (advances_getAddr m hm).bind (n := 0) fun _ => (advances_get _).bind (n := 0) fun _ => advances_memWrite _ _

theorem advances_modifyMem (f : Byte → Byte) (hm : Mode.hasAddr m = true) : Advances m.operandBytes (modifyMem m f) :=
  (advances_getAddr m hm).bind (n := 0) fun _ => (advances_memRead _).bind (n := 0) fun _ =>
    (advances_memWrite _ _).bind (n := 0) fun _ => advances_updateP _

theorem advances_shiftMem (f : Byte → Bool → Byte × Bool) (hm : Mode.hasAddr m = true) :
    Advances m.operandBytes (shiftMem m f) :=
  (advances_getAddr m hm).bind (n := 0) fun _ => (advances_memRead _).bind (n := 0) fun _ =>
    (advances_get _).bind (n := 0) fun _ => (advances_memWrite _ _).bind (n := 0) fun _ => advances_updateP _

end

theorem advances_transfer (a b : Reg) : Advances 0 (transfer a b) := advances_updateRegP b _ _

theorem advances_transferToS : Advances 0 transferToS :=
  advances_update (fun s => setReg_cfg s .S _) (fun s => setReg_PC s .S _)

theorem advances_writeFlag (f : Flag) (b : Bool) : Advances 0 (writeFlag f b) := advances_updateP _

theorem advances_modifyReg (r : Reg) (f : Byte → Byte) : Advances 0 (modifyReg r f) := advances_updateRegP r _ _

theorem advances_shiftAcc (f : Byte → Bool → Byte × Bool) : Advances 0 (shiftAcc f) := advances_updateRegP .A _ _

theorem advances_pushA : Advances 0 pushA := (advances_get _).bind (n := 0) fun _ => advances_push _

theorem advances_pullA : Advances 0 pullA := advances_pop.bind (n := 0) fun _ => advances_updateRegP .A _ _

theorem advances_pushStatus : Advances 0 pushStatus := (advances_get _).bind (n := 0) fun _ => advances_push _

theorem advances_pullStatus : Advances 0 pullStatus := advances_pop.bind (n := 0) fun _ => advances_updateP _

theorem advances_noOperation : Advances 0 noOperation := advances_update (fun _ => rfl) (fun _ => rfl)

/-! ### Every instruction that writes no PC -/

theorem opOf_advances (i : Instr) (h : writesPC i = false) : Advances i.mode.operandBytes (opOf i) := by
  cases i with
  | ldaImm | ldaZp | ldaZpX | ldaAbs | ldaAbsX | ldaAbsY | ldaIndX | ldaIndY => exact advances_load .A rfl
  | ldxImm | ldxZp | ldxZpY | ldxAbs | ldxAbsY => exact advances_load .X rfl
  | ldyImm | ldyZp | ldyZpX | ldyAbs | ldyAbsX => exact advances_load .Y rfl
  | staZp | staZpX | staAbs | staAbsX | staAbsY | staIndX | staIndY => exact advances_store .A rfl
  | stxZp | stxZpY | stxAbs => exact advances_store .X rfl
  | styZp | styZpX | styAbs => exact advances_store .Y rfl
  | tax | tay | txa | tya | tsx => exact advances_transfer _ _
  | txs => exact advances_transferToS
  | clc | cld | cli | clv | sec | sed | sei => exact advances_writeFlag _ _
  | incZp | incZpX | incAbs | incAbsX => exact advances_modifyMem incByte rfl
  | decZp | decZpX | decAbs | decAbsX => exact advances_modifyMem decByte rfl
  | inx | iny | dex | dey => exact advances_modifyReg _ _
  | cmpImm | cmpZp | cmpZpX | cmpAbs | cmpAbsX | cmpAbsY | cmpIndX | cmpIndY => exact advances_compare .A rfl
  | cpxImm | cpxZp | cpxAbs => exact advances_compare .X rfl
  | cpyImm | cpyZp | cpyAbs => exact advances_compare .Y rfl
  | andImm | andZp | andZpX | andAbs | andAbsX | andAbsY | andIndX | andIndY => exact advances_logical andByte rfl
  | oraImm | oraZp | oraZpX | oraAbs | oraAbsX | oraAbsY | oraIndX | oraIndY => exact advances_logical oraByte rfl
  | eorImm | eorZp | eorZpX | eorAbs | eorAbsX | eorAbsY | eorIndX | eorIndY => exact advances_logical eorByte rfl
  | aslAcc | lsrAcc | rolAcc | rorAcc => exact advances_shiftAcc _
  | aslZp | aslZpX | aslAbs | aslAbsX => exact advances_shiftMem aslF rfl
  | lsrZp | lsrZpX | lsrAbs | lsrAbsX => exact advances_shiftMem lsrF rfl
  | rolZp | rolZpX | rolAbs | rolAbsX => exact advances_shiftMem rolF rfl
  | rorZp | rorZpX | rorAbs | rorAbsX => exact advances_shiftMem rorF rfl
  | beq | bne | bmi | bpl | bcs | bcc | bvc | bvs | jmpAbs | jmpInd | jsr | rts | brk | rti => cases h
  | pha => exact advances_pushA
  | pla => exact advances_pullA
  | php => exact advances_pushStatus
  | plp => exact advances_pullStatus
  | bitZp | bitAbs => exact advances_bitTest rfl
  | adcImm | adcZp | adcZpX | adcAbs | adcAbsX | adcAbsY | adcIndX | adcIndY => exact advances_addCarry rfl
  | sbcImm | sbcZp | sbcZpX | sbcAbs | sbcAbsX | sbcAbsY | sbcIndX | sbcIndY => exact advances_subBorrow rfl
  | nop => exact advances_noOperation

/-- Settles O46: the instruction's operation completes and moves PC past its operand bytes (`opOf_advances`). -/
theorem pcAdvancesByTheLength : Obligations.PcAdvancesByTheLength := by
  intro i s hs hi
  obtain ⟨_, t, hrun, -, hPC⟩ := opOf_advances i hi s hs
  exact ⟨t, by rw [exec_eq_finish, finish_ok hrun], hPC⟩

end Sys2Proof.Machine
end

section
/-! PROOFS. Who writes the registers and the flags (spec/10_state.md R21 to R23, R31): the frame of each is a relation that
every change in an instruction's footprint keeps. -/

namespace Sys2Proof.Machine

open Sys2Proof.Spec

/-- The registers that `i` does not write, and the parameters, are as they were. -/
def KeepsRegs (i : Instr) (s t : State) : Prop :=
  (∀ r, writesReg r i = false → t.getReg r = s.getReg r) ∧ t.cfg = s.cfg

/-- The flags that `i` does not write are as they were. -/
def KeepsFlags (i : Instr) (s t : State) : Prop := ∀ f, writesFlag f i = false → getFlag f t.P = getFlag f s.P

theorem KeepsRegs.of_eq {i : Instr} {s t : State} (hreg : ∀ r, t.getReg r = s.getReg r) (hcfg : t.cfg = s.cfg) :
    KeepsRegs i s t := ⟨fun r _ => hreg r, hcfg⟩

theorem KeepsFlags.of_eq {i : Instr} {s t : State} (h : t.P = s.P) : KeepsFlags i s t := fun f _ => by rw [h]

@[simp] theorem afterRead_getReg (s : State) (a : Addr) (r : Reg) : (afterRead s a).getReg r = s.getReg r := by
  cases r <;> rfl

@[simp] theorem afterWrite_getReg (s : State) (a : Addr) (v : Byte) (r : Reg) :
    (afterWrite s a v).getReg r = s.getReg r := by
  cases r <;> rfl

@[simp] theorem withPC_getReg (s : State) (p : Addr) (r : Reg) : State.getReg { s with PC := p } r = s.getReg r := by
  cases r <;> rfl

/-- R22, R23: the one change of a register that a footprint allows is to a register the instruction writes. -/
theorem respects_keepsRegs (i : Instr) : Respects (KeepsRegs i) (footprint i) where
  refl := fun _ => .of_eq (fun _ => rfl) rfl
  trans := fun ⟨hreg, hcfg⟩ ⟨kreg, kcfg⟩ => ⟨fun r hr => (kreg r hr).trans (hreg r hr), kcfg.trans hcfg⟩
  read := fun s a => .of_eq (afterRead_getReg s a) rfl
  pc := fun s p => .of_eq (withPC_getReg s p) rfl
  reg := fun r hr s v => by
    refine ⟨fun q hq => getReg_setReg_other s r v fun hqr => ?_, setReg_cfg s r v⟩
    have hw : writesReg r i = true := hr
    rw [← hqr, hq] at hw
    cases hw
  flags := fun g _ s => .of_eq (fun r => mapP_getReg s r g) rfl
  restore := fun _ s _ => .of_eq (fun r => mapP_getReg s r _) rfl
  write := fun _ s a v _ => .of_eq (afterWrite_getReg s a v) rfl

/-- R31: so is the one change of P, for an instruction that does not restore it whole. -/
theorem respects_keepsFlags (i : Instr) (hi : restoresP i = false) : Respects (KeepsFlags i) (footprint i) where
  refl := fun _ => .of_eq rfl
  trans := fun h k f hf => (k f hf).trans (h f hf)
  read := fun _ _ => .of_eq rfl
  pc := fun _ _ => .of_eq rfl
  reg := fun r _ s v => .of_eq (setReg_P s r v)
  flags := fun _ hg s f hf => hg s.P f hf
  restore := fun hr => by
    have hw : restoresP i = true := hr
    rw [hi] at hw
    cases hw
  write := fun _ _ _ _ _ => .of_eq rfl

/-- Settles O42: `exec_respects` for `KeepsRegs`. -/
theorem onlyNamedInstructionsWriteARegister : Obligations.OnlyNamedInstructionsWriteARegister := by
  intro i s t hexec
  have hkeeps : KeepsRegs i s t :=
    exec_respects i (respects_keepsRegs i) (fun s f => .of_eq (fun r => recordFault_getReg s r f) rfl) hexec
  exact hkeeps

/-- Settles O43: `exec_respects` for `KeepsFlags`. -/
theorem onlyNamedInstructionsWriteAFlag : Obligations.OnlyNamedInstructionsWriteAFlag := by
  intro i s t hexec hi
  have hkeeps : KeepsFlags i s t := exec_respects i (respects_keepsFlags i hi) (fun _ _ => .of_eq rfl) hexec
  exact hkeeps

end Sys2Proof.Machine
end

section
/-! PROOFS. What no instruction reads (spec/10_state.md R29, R32, R33): an operation is blind to a change of state that
leaves the flags it reads and lets the flags it writes be written; I, B and bit 5 are such a change. -/

namespace Sys2Proof.Machine

open Sys2Proof.Spec

/-- The flags that branches, shifts and arithmetic read, and that a result sets. -/
def readFlags : List Flag := [.C, .Z, .D, .V, .N]

section

variable {φ : State → State} {fs : Flag → Bool} {m : Mode}

/-- An update of flags that `φ` lets be written, from values that it does not change. -/
theorem blind_updateP {g : State → Byte → Byte} (hg : ∀ s, g (φ s) = g s)
    (hput : ∀ a s, (φ s).mapP (g a) = φ (s.mapP (g a))) : Blind φ (Op.update fun s => s.mapP (g s)) :=
  blind_update _ fun s => by rw [hg, hput]

/-- An update of a register and of flags. -/
theorem blind_updateRegP (h : Hidden φ) {r : Reg} {v : State → Byte} {g : State → Byte → Byte} (hv : ∀ s, v (φ s) = v s)
    (hg : ∀ s, g (φ s) = g s) (hput : ∀ a s, (φ s).mapP (g a) = φ (s.mapP (g a))) :
    Blind φ (Op.update fun s => (s.setReg r (v s)).mapP (g s)) :=
  blind_update _ fun s => by rw [hv, hg, ← h.setReg, hput]

theorem blind_noOperation : Blind φ noOperation := blind_update _ fun _ => rfl

variable (h : Clear φ fs) (hfs : ∀ f ∈ readFlags, fs f = true)

include h

/-! ### The shared operations that read no flag, or the whole P -/

theorem blind_store (r : Reg) : Blind φ (store r m) :=
  (blind_getAddr h.toHidden m).bind fun _ => (blind_getReg h.toHidden r).bind fun _ => blind_memWrite h.toHidden _ _

theorem blind_transferToS : Blind φ transferToS :=
  blind_update _ fun s => by rw [show (φ s).X = s.X from h.reg s .X, h.setReg]

theorem blind_writeFlag {f : Flag} (hf : fs f = true) (b : Bool) : Blind φ (writeFlag f b) :=
  blind_updateP (fun _ => rfl) fun _ => h.put f hf b

theorem blind_jump : Blind φ (jump m) := (blind_getAddr h.toHidden m).bind fun _ => blind_setPC h.toHidden _

theorem blind_jumpSubroutine : Blind φ jumpSubroutine :=
  (blind_get _ h.pc).bind fun _ => (blind_pushWord h.toHidden _).bind fun _ =>
    (blind_getAddr h.toHidden .absolute).bind fun _ => blind_setPC h.toHidden _

theorem blind_returnSubroutine : Blind φ returnSubroutine :=
  (blind_popWord h.toHidden).bind fun _ => blind_setPC h.toHidden _

theorem blind_pushA : Blind φ pushA := (blind_getReg h.toHidden .A).bind fun _ => blind_push h.toHidden _

theorem blind_pushStatus (hB : fs .B = true) : Blind φ pushStatus :=
  (blind_get _ (h.push hB)).bind fun _ => blind_push h.toHidden _

theorem blind_restoreStatus (hU : fs .U = true) (v : Byte) : Blind φ (Op.update fun s => s.mapP fun _ => restoredP v) :=
  blind_updateP (fun _ => rfl) fun _ => h.pull hU v

theorem blind_pullStatus (hU : fs .U = true) : Blind φ pullStatus :=
  (blind_pop h.toHidden).bind fun v => blind_restoreStatus h hU v

theorem blind_trapEntry (hB : fs .B = true) : Blind φ trapEntry :=
  (blind_get _ h.pc).bind fun _ => (blind_pushWord h.toHidden _).bind fun _ => (blind_get _ (h.push hB)).bind fun _ =>
    (blind_push h.toHidden _).bind fun _ => (blind_readWordAt h.toHidden _ _).bind fun _ => blind_setPC h.toHidden _

theorem blind_trapReturn (hU : fs .U = true) : Blind φ trapReturn :=
  (blind_pop h.toHidden).bind fun v => (blind_restoreStatus h hU v).bind fun _ =>
    (blind_popWord h.toHidden).bind fun _ => blind_setPC h.toHidden _

/-! ### What `φ` lets be read and written -/

theorem clear_A (s : State) : (φ s).A = s.A := h.reg s .A

include hfs

theorem clear_flag {f : Flag} (hf : f ∈ readFlags) (s : State) : (φ s).flag f = s.flag f := h.get f (hfs f hf) s

theorem clear_setZN (v : Byte) (s : State) : (φ s).mapP (setZN v) = φ (s.mapP (setZN v)) :=
  h.setZN (hfs .Z (by decide)) (hfs .N (by decide)) v s

theorem clear_shiftP (r : Byte) (c : Bool) (s : State) : (φ s).mapP (shiftP r c) = φ (s.mapP (shiftP r c)) :=
  h.shiftP (hfs .Z (by decide)) (hfs .N (by decide)) (hfs .C (by decide)) r c s

theorem clear_aluP (o : AluOut) (s : State) : (φ s).mapP (aluP o) = φ (s.mapP (aluP o)) :=
  h.aluP (hfs .Z (by decide)) (hfs .N (by decide)) (hfs .C (by decide)) (hfs .V (by decide)) o s

/-! ### The shared operations that read or set flags -/

theorem blind_load (r : Reg) : Blind φ (load r m) :=
  (blind_getData h.toHidden m).bind fun v =>
    blind_updateRegP h.toHidden (fun _ => rfl) (fun _ => rfl) fun _ => clear_setZN h hfs v

theorem blind_transfer (a b : Reg) : Blind φ (transfer a b) :=
  blind_updateRegP h.toHidden (fun s => h.reg s a) (fun s => by rw [h.reg]) fun _ => clear_setZN h hfs _

theorem blind_modifyMem (f : Byte → Byte) : Blind φ (modifyMem m f) :=
  (blind_getAddr h.toHidden m).bind fun ea => (blind_memRead h.toHidden ea).bind fun v =>
    (blind_memWrite h.toHidden ea _).bind fun _ => blind_updateP (fun _ => rfl) fun _ => clear_setZN h hfs (f v)

theorem blind_modifyReg (r : Reg) (f : Byte → Byte) : Blind φ (modifyReg r f) :=
  blind_updateRegP h.toHidden (fun s => by rw [h.reg]) (fun s => by rw [h.reg]) fun _ => clear_setZN h hfs _

theorem blind_compare (r : Reg) : Blind φ (compare r m) :=
  (blind_getData h.toHidden m).bind fun v => blind_updateP (fun s => by rw [h.reg]) fun _ =>
    h.compareP (hfs .Z (by decide)) (hfs .N (by decide)) (hfs .C (by decide)) _ v

theorem blind_logical (f : Byte → Byte → Byte) : Blind φ (logical f m) :=
  (blind_getData h.toHidden m).bind fun _ =>
    blind_updateRegP h.toHidden (fun s => by rw [clear_A h]) (fun s => by rw [clear_A h]) fun _ => clear_setZN h hfs _

theorem blind_shiftAcc (f : Byte → Bool → Byte × Bool) : Blind φ (shiftAcc f) := by
  have hC : ∀ s, (φ s).flag .C = s.flag .C := clear_flag h hfs (by decide)
  exact blind_updateRegP h.toHidden (fun s => by rw [clear_A h, hC]) (fun s => by rw [clear_A h, hC]) fun _ =>
    clear_shiftP h hfs _ _

theorem blind_shiftMem (f : Byte → Bool → Byte × Bool) : Blind φ (shiftMem m f) :=
  (blind_getAddr h.toHidden m).bind fun ea => (blind_memRead h.toHidden ea).bind fun v =>
    (blind_get _ (clear_flag h hfs (by decide))).bind fun c => (blind_memWrite h.toHidden ea _).bind fun _ =>
      blind_updateP (fun _ => rfl) fun _ => clear_shiftP h hfs (f v c).1 (f v c).2

theorem blind_branch {f : Flag} (hf : f ∈ readFlags) (b : Bool) : Blind φ (branch f b) :=
  (blind_getData h.toHidden .relative).bind fun off => blind_update _ fun s => by
    rw [clear_flag h hfs hf, h.pc]
    split
    · exact (h.setPC s _).symm
    · rfl

theorem blind_pullA : Blind φ pullA :=
  (blind_pop h.toHidden).bind fun v =>
    blind_updateRegP h.toHidden (fun _ => rfl) (fun _ => rfl) fun _ => clear_setZN h hfs v

theorem blind_bitTest : Blind φ (bitTest m) :=
  (blind_getData h.toHidden m).bind fun v => blind_updateP (fun s => by rw [clear_A h]) fun _ =>
    h.bitP (hfs .Z (by decide)) (hfs .N (by decide)) (hfs .V (by decide)) _ v

/-- ADC and SBC write A and the flags of one arithmetic result. -/
theorem blind_updateAlu {out : State → AluOut} (hout : ∀ s, out (φ s) = out s) :
    Blind φ (Op.update fun s => (s.setReg .A (out s).r).mapP (aluP (out s))) :=
  blind_updateRegP h.toHidden (fun s => by rw [hout]) (fun s => by rw [hout]) fun _ => clear_aluP h hfs _

theorem blind_addCarry (hcfg : ∀ s, (φ s).cfg = s.cfg) : Blind φ (addCarry m) :=
  (blind_getData h.toHidden m).bind fun _ => blind_updateAlu h hfs fun s => by
    rw [hcfg, clear_A h, clear_flag h hfs (by decide), clear_flag h hfs (by decide)]

theorem blind_subBorrow (hcfg : ∀ s, (φ s).cfg = s.cfg) : Blind φ (subBorrow m) :=
  (blind_getData h.toHidden m).bind fun _ => blind_updateAlu h hfs fun s => by
    rw [hcfg, clear_A h, clear_flag h hfs (by decide), clear_flag h hfs (by decide)]

/-! ### Every instruction -/

/-- An instruction is blind to `φ` where `φ` leaves what it reads: the whole P for PHP and BRK, the decimal parameters
for ADC and SBC; and lets be written what it writes: I for CLI and SEI, the whole P for PLP and RTI. -/
theorem opOf_blind (i : Instr) (hI : writesFlag .I i = true → fs .I = true)
    (hB : i.mnemonic ∈ [.PHP, .BRK] → fs .B = true) (hU : restoresP i = true → fs .U = true)
    (hcfg : i.mnemonic ∈ [.ADC, .SBC] → ∀ s, (φ s).cfg = s.cfg) : Blind φ (opOf i) := by
  cases i with
  | ldaImm | ldaZp | ldaZpX | ldaAbs | ldaAbsX | ldaAbsY | ldaIndX | ldaIndY => exact blind_load h hfs .A
  | ldxImm | ldxZp | ldxZpY | ldxAbs | ldxAbsY => exact blind_load h hfs .X
  | ldyImm | ldyZp | ldyZpX | ldyAbs | ldyAbsX => exact blind_load h hfs .Y
  | staZp | staZpX | staAbs | staAbsX | staAbsY | staIndX | staIndY => exact blind_store h .A
  | stxZp | stxZpY | stxAbs => exact blind_store h .X
  | styZp | styZpX | styAbs => exact blind_store h .Y
  | tax | tay | txa | tya | tsx => exact blind_transfer h hfs _ _
  | txs => exact blind_transferToS h
  | clc | sec => exact blind_writeFlag h (hfs .C (by decide)) _
  | cld | sed => exact blind_writeFlag h (hfs .D (by decide)) _
  | cli | sei => exact blind_writeFlag h (hI rfl) _
  | clv => exact blind_writeFlag h (hfs .V (by decide)) _
  | incZp | incZpX | incAbs | incAbsX => exact blind_modifyMem h hfs incByte
  | decZp | decZpX | decAbs | decAbsX => exact blind_modifyMem h hfs decByte
  | inx | iny | dex | dey => exact blind_modifyReg h hfs _ _
  | cmpImm | cmpZp | cmpZpX | cmpAbs | cmpAbsX | cmpAbsY | cmpIndX | cmpIndY => exact blind_compare h hfs .A
  | cpxImm | cpxZp | cpxAbs => exact blind_compare h hfs .X
  | cpyImm | cpyZp | cpyAbs => exact blind_compare h hfs .Y
  | andImm | andZp | andZpX | andAbs | andAbsX | andAbsY | andIndX | andIndY => exact blind_logical h hfs andByte
  | oraImm | oraZp | oraZpX | oraAbs | oraAbsX | oraAbsY | oraIndX | oraIndY => exact blind_logical h hfs oraByte
  | eorImm | eorZp | eorZpX | eorAbs | eorAbsX | eorAbsY | eorIndX | eorIndY => exact blind_logical h hfs eorByte
  | aslAcc | lsrAcc | rolAcc | rorAcc => exact blind_shiftAcc h hfs _
  | aslZp | aslZpX | aslAbs | aslAbsX => exact blind_shiftMem h hfs aslF
  | lsrZp | lsrZpX | lsrAbs | lsrAbsX => exact blind_shiftMem h hfs lsrF
  | rolZp | rolZpX | rolAbs | rolAbsX => exact blind_shiftMem h hfs rolF
  | rorZp | rorZpX | rorAbs | rorAbsX => exact blind_shiftMem h hfs rorF
  | beq | bne | bmi | bpl | bcs | bcc | bvc | bvs => exact blind_branch h hfs (by decide) _
  | jmpAbs | jmpInd => exact blind_jump h
  | jsr => exact blind_jumpSubroutine h
  | rts => exact blind_returnSubroutine h
  | pha => exact blind_pushA h
  | pla => exact blind_pullA h hfs
  | php => exact blind_pushStatus h (hB (by decide))
  | plp => exact blind_pullStatus h (hU rfl)
  | bitZp | bitAbs => exact blind_bitTest h hfs
  | adcImm | adcZp | adcZpX | adcAbs | adcAbsX | adcAbsY | adcIndX | adcIndY =>
    exact blind_addCarry h hfs (hcfg (by decide))
  | sbcImm | sbcZp | sbcZpX | sbcAbs | sbcAbsX | sbcAbsY | sbcIndX | sbcIndY =>
    exact blind_subBorrow h hfs (hcfg (by decide))
  | brk => exact blind_trapEntry h (hB (by decide))
  | rti => exact blind_trapReturn h (hU rfl)
  | nop => exact blind_noOperation

end

/-! ### Setting one of I, B and bit 5 -/

/-- Setting a flag hides behind the registers, PC, memory and the record: none of them holds it. -/
theorem hidden_withFlag (f : Flag) (b : Bool) : Hidden (withFlag f b) where
  pc := fun _ => rfl
  reg := fun _ r => by cases r <;> rfl
  len := fun _ => rfl
  io := fun _ => rfl
  bus := fun _ => rfl
  mem := fun _ => rfl
  launch := fun _ => rfl
  setPC := fun _ _ => rfl
  setReg := fun _ r _ => by cases r <;> rfl
  event := fun _ _ _ => rfl

/-- The flags other than `f`, B and bit 5. -/
def otherFlags (f g : Flag) : Bool := decide (g ∉ [f, .B, .U])

/-- Setting `f` changes no other flag and is not undone by writing one. -/
theorem clear_withFlag (f : Flag) (b : Bool) : Clear (withFlag f b) (otherFlags f) where
  toHidden := hidden_withFlag f b
  get := fun g hg s => by
    have hgf : g ≠ f := fun e => by simp [otherFlags, e] at hg
    exact (getFlag_putFlag g f b s.P).trans (if_neg hgf)
  put := fun g hg a s => by
    have hgf : g ≠ f := fun e => by simp [otherFlags, e] at hg
    exact congrArg (fun p => { s with P := p }) (putFlag_comm hgf a b s.P)
  push := fun hB => by simp [otherFlags] at hB
  pull := fun hU => by simp [otherFlags] at hU

/-- Settles O48: the instruction's operation is blind to the flag (`opOf_blind`), and so is recording its fault. -/
theorem interruptBreakAndUnusedBitsAreInert : Obligations.InterruptBreakAndUnusedBitsAreInert := by
  intro i f b s t hf hpush hpull hwrite hexec
  have hread : ∀ g ∈ readFlags, otherFlags f g = true := by
    fin_cases hf <;> decide
  have hI : writesFlag .I i = true → otherFlags f .I = true := by
    intro hw
    have hIf : Flag.I ≠ f := fun e => by rw [e, hwrite] at hw; cases hw
    simp [otherFlags, hIf]
  have hblind : Blind (withFlag f b) (opOf i) := opOf_blind (clear_withFlag f b) hread i hI (fun hm => absurd hm hpush)
    (fun hr => by rw [hpull] at hr; cases hr) (fun _ _ => rfl)
  rw [exec_eq_finish] at hexec ⊢
  exact finish_hidden (fun _ _ => rfl) (hblind s) hexec

end Sys2Proof.Machine
end

section
/-! PROOFS. Memory and the Bus (spec/20_memory.md): push, pop and one Bus operation (R41, R42, R49, R50), which bytes a
storing instruction can change (R47, R86), and the replay of a step's Bus events (R53, R56, R59). -/

namespace Sys2Proof.Machine

open Sys2Proof.Spec

/-! ### One Bus operation -/

/-- Settles O11: the law of push, in range and out of range. -/
theorem pushWritesThenDecrements : Obligations.PushWritesThenDecrements := fun _ _ => ⟨push_ok, push_error⟩

/-- Settles O12: the law of pop, in range and out of range. -/
theorem popIncrementsThenReads : Obligations.PopIncrementsThenReads := fun _ => ⟨pop_ok, pop_error⟩

section

variable {s : State} {a : Addr}

/-- R42: in IO_REGION a write changes no cell. -/
theorem afterWrite_mem_io (h : a ∈ s.cfg.ioRegion) (v : Byte) : (afterWrite s a v).mem = s.mem := if_pos h

/-- R42: elsewhere it stores its byte. -/
theorem afterWrite_mem_plain (h : a ∉ s.cfg.ioRegion) (v : Byte) :
    (afterWrite s a v).mem = Memory.write s.mem a.toNat v := if_neg h

/-- R42, R53: a write leaves every other byte of memory. -/
theorem memByte_afterWrite_ne {b : Nat} (h : b ≠ a.toNat) (v : Byte) : (afterWrite s a v).memByte b = s.memByte b := by
  unfold State.memByte
  by_cases hio : a ∈ s.cfg.ioRegion
  · rw [afterWrite_mem_io hio, afterWrite_cfg]
  · rw [afterWrite_mem_plain hio, afterWrite_cfg, read_write, if_neg h]

/-- R41, R53: outside IO_REGION a read returns the byte just written. -/
theorem busByte_afterWrite_same (h : a ∉ s.cfg.ioRegion) (v : Byte) : (afterWrite s a v).busByte a = v := by
  rw [State.busByte, afterWrite_cfg, if_neg h, State.memByte, afterWrite_mem_plain h, read_write, if_pos rfl]

end

/-- Settles O13: a faulting operation does nothing, and in range a write leaves `afterWrite`. -/
theorem busReadsReturnTheLastWrite : Obligations.BusReadsReturnTheLastWrite := by
  refine fun s a v => ⟨fun h => ⟨memRead_error h, memWrite_error h⟩, fun h =>
    ⟨memRead_ok h, afterWrite s a v, memWrite_ok h, rfl, rfl, fun b hb => memByte_afterWrite_ne hb v, fun hio => ?_,
      fun hio => afterWrite_mem_io hio v⟩⟩
  have hread : memRead a (afterWrite s a v) = .ok ((afterWrite s a v).busByte a) (afterRead (afterWrite s a v) a) :=
    memRead_ok h
  rwa [busByte_afterWrite_same hio] at hread

/-! ### The bytes a storing instruction can change -/

section

variable {A : Nat → Prop} {s t : State}

/-- A byte of memory whose cell is as it was, under the same parameters. -/
theorem ChangesOnly.memByte_eq (h : ChangesOnly A s t) (hcfg : t.cfg = s.cfg) {a : Nat} (ha : ¬ A a) :
    t.memByte a = s.memByte a := by
  simp only [State.memByte, Memory.read, h a ha, hcfg]

/-- Reading the state first changes nothing. -/
theorem changesOnly_get_bind {α β : Type} {g : State → α} {k : α → Op β} (h : ChangesOnly A s ((k (g s)).endState s)) :
    ChangesOnly A s ((Op.get g >>= k).endState s) := h

/-- R86: an instruction whose operation changes only the cells in `A` changes no other byte of memory. -/
theorem exec_memByte_eq {i : Instr} (hexec : exec i s = .next t) (h : ChangesOnly A s ((opOf i).endState s)) {a : Nat}
    (ha : ¬ A a) : t.memByte a = s.memByte a := by
  have hmem : t.mem = ((opOf i).endState s).mem := finish_mem (exec_eq_finish i s ▸ hexec)
  have hst : ChangesOnly A s t := fun b hb => hmem ▸ h b hb
  exact hst.memByte_eq (onlyNamedInstructionsWriteARegister i s t hexec).2 ha

end

/-- The operation resolves the address of mode `m` and then changes at most the byte there. -/
def ChangesAt (m : Mode) (o : Op Unit) : Prop :=
  ∃ k, o = (getAddr m >>= k) ∧ ∀ ea u, ChangesOnly (· = ea.toNat) u ((k ea).endState u)

/-- R93 to R95. -/
theorem changesAt_store (r : Reg) (m : Mode) : ChangesAt m (store r m) :=
  ⟨_, rfl, fun ea u => memWrite_changesOnly ea (u.getReg r) u⟩

/-- R109, R110: the read before the write and the flags after it change no byte. -/
theorem changesAt_modifyMem (m : Mode) (f : Byte → Byte) : ChangesAt m (modifyMem m f) :=
  ⟨_, rfl, fun ea u => changesOnly_bind (changesOnly_of_mem (memRead_mem ea u)) fun _ t _ =>
    changesOnly_bind (memWrite_changesOnly ea _ t) fun _ _ _ => changesOnly_of_mem rfl⟩

/-- R121 to R124, likewise. -/
theorem changesAt_shiftMem (m : Mode) (f : Byte → Bool → Byte × Bool) : ChangesAt m (shiftMem m f) :=
  ⟨_, rfl, fun ea u => changesOnly_bind (changesOnly_of_mem (memRead_mem ea u)) fun _ t _ =>
    changesOnly_get_bind (changesOnly_bind (memWrite_changesOnly ea _ t) fun _ _ _ => changesOnly_of_mem rfl)⟩

/-- R86: a storing instruction that pushes nothing stores at its effective address alone. -/
theorem opOf_changesAt (i : Instr) (hstore : storesToMemory i = true) (hpush : i.mnemonic ∉ [.PHA, .PHP, .JSR, .BRK]) :
    ChangesAt i.mode (opOf i) := by
  cases i with
  | staZp | staZpX | staAbs | staAbsX | staAbsY | staIndX | staIndY => exact changesAt_store .A _
  | stxZp | stxZpY | stxAbs => exact changesAt_store .X _
  | styZp | styZpX | styAbs => exact changesAt_store .Y _
  | incZp | incZpX | incAbs | incAbsX => exact changesAt_modifyMem _ incByte
  | decZp | decZpX | decAbs | decAbsX => exact changesAt_modifyMem _ decByte
  | aslZp | aslZpX | aslAbs | aslAbsX => exact changesAt_shiftMem _ aslF
  | lsrZp | lsrZpX | lsrAbs | lsrAbsX => exact changesAt_shiftMem _ lsrF
  | rolZp | rolZpX | rolAbs | rolAbsX => exact changesAt_shiftMem _ rolF
  | rorZp | rorZpX | rorAbs | rorAbsX => exact changesAt_shiftMem _ rorF
  | pha | php | jsr | brk => exact absurd (by decide) hpush
  | _ => cases hstore

/-- R137, R139: PHA and PHP store at the cell of S alone. -/
theorem opOf_pushes_one (i : Instr) (hi : i.mnemonic ∈ [.PHA, .PHP]) (s : State) :
    ChangesOnly (· = (stackDown s 0).toNat) s ((opOf i).endState s) := by
  cases i with
  | pha => exact changesOnly_get_bind (push_changesOnly s.A s)
  | php => exact changesOnly_get_bind (push_changesOnly (pushedP s.P) s)
  | _ => exact absurd hi (by decide)

/-- R135: JSR stores at the cell of S and the one below; fetching the target stores nothing. -/
theorem jumpSubroutine_changesOnly (s : State) :
    ChangesOnly (fun a => a = (stackDown s 0).toNat ∨ a = (stackDown s 1).toNat) s (jumpSubroutine.endState s) :=
  changesOnly_get_bind (changesOnly_bind (pushWord_changesOnly (s.PC + 2) s) fun _ t _ =>
    changesOnly_of_mem (jump_keeps respects_noStore .absolute t))

/-- R150: BRK stores at the cell of S and the two below; reading the vector stores nothing. -/
theorem trapEntry_changesOnly (s : State) :
    ChangesOnly (fun a => a = (stackDown s 0).toNat ∨ a = (stackDown s 1).toNat ∨ a = (stackDown s 2).toNat) s
      (trapEntry.endState s) := by
  refine changesOnly_get_bind (changesOnly_bind
    ((pushWord_changesOnly (s.PC + 1) s).mono fun a h => h.imp_right fun h => .inl h) fun _ t ht => ?_)
  have hcell : stackDown t 0 = stackDown s 2 := by
    rw [pushWord_inv ht, stackDown_afterPush _ _ _ (by decide), stackDown_afterPush _ _ _ (by decide)]
  refine changesOnly_get_bind (changesOnly_bind
    ((push_changesOnly (pushedP t.P) t).mono fun a h => .inr (.inr (hcell ▸ h))) fun _ u _ => changesOnly_of_mem ?_)
  exact ((readWordAt_keeps respects_noStore _ _).bind respects_noStore fun _ => setPC_keeps respects_noStore _) u

theorem eq_jsr_of_mnemonic {i : Instr} (h : i.mnemonic = .JSR) : i = .jsr := by
  cases i with
  | jsr => rfl
  | _ => cases h

theorem eq_brk_of_mnemonic {i : Instr} (h : i.mnemonic = .BRK) : i = .brk := by
  cases i with
  | brk => rfl
  | _ => cases h

/-- Settles O45: each storing instruction's operation changes only the cells at its addresses, so no other byte. -/
theorem storingInstructionsKeepOtherBytes : Obligations.StoringInstructionsKeepOtherBytes := by
  intro i s t hexec hstore
  refine ⟨fun hpush => ?_, fun hi a ha => ?_, fun hi a ha hb => ?_, fun hi a ha hb hc => ?_⟩
  · obtain ⟨k, hop, hk⟩ := opOf_changesAt i hstore hpush
    obtain ⟨hfind, hfault⟩ := changes_at_getAddr hk (hop ▸ exec_eq_finish i s ▸ hexec)
    refine ⟨fun ea u hu a ha => ?_, hfault⟩
    have hst : ChangesOnly (· = ea.toNat) s t := hfind ea u hu
    exact hst.memByte_eq (onlyNamedInstructionsWriteARegister i s t hexec).2 ha
  · exact exec_memByte_eq hexec (opOf_pushes_one i hi s) ha
  · cases eq_jsr_of_mnemonic hi
    exact exec_memByte_eq hexec (jumpSubroutine_changesOnly s) (by simp [ha, hb])
  · cases eq_brk_of_mnemonic hi
    exact exec_memByte_eq hexec (trapEntry_changesOnly s) (by simp [ha, hb, hc])

/-! ### Replaying the Bus events of a step -/

/-- From `s` to `t` the parameters stay, and the Bus events added, replayed on the memory of `s`, give the memory of `t`. -/
def Replays (s t : State) : Prop :=
  t.cfg = s.cfg ∧ ∃ new : List BusEvent, t.bus = new.reverse ++ s.bus ∧ replay s.cfg s.bus new s.mem = some t.mem

/-- A change that neither the parameters, the record nor memory sees replays as no event. -/
theorem Replays.of_eq {s t : State} (hcfg : t.cfg = s.cfg) (hbus : t.bus = s.bus) (hmem : t.mem = s.mem) : Replays s t :=
  ⟨hcfg, [], hbus, congrArg some hmem.symm⟩

/-- R53: the two records replay one after the other, the second after the history that the first leaves. -/
theorem Replays.trans {s t u : State} (hst : Replays s t) (htu : Replays t u) : Replays s u := by
  obtain ⟨hcfg, new, hbus, hmem⟩ := hst
  obtain ⟨kcfg, later, kbus, kmem⟩ := htu
  refine ⟨kcfg.trans hcfg, new ++ later, by rw [kbus, hbus, List.reverse_append, List.append_assoc], ?_⟩
  rw [replay_append, hmem, Option.bind_some, ← hbus, ← hcfg]
  exact kmem

/-- R41: a read returned what memory held, or in IO_REGION the draw. -/
theorem Replays.read (s : State) (a : Addr) : Replays s (afterRead s a) :=
  ⟨rfl, [.read a (s.busByte a)], rfl, if_pos rfl⟩

/-- R42: a write stores its byte, or in IO_REGION nothing. -/
theorem Replays.write (s : State) (a : Addr) (v : Byte) : Replays s (afterWrite s a v) :=
  ⟨rfl, [.write a v], rfl, rfl⟩

/-- R59: the Bus operations are the only changes a footprint allows that the record, the parameters or memory sees. -/
theorem respects_replays (F : Footprint) : Respects Replays F where
  refl := fun _ => .of_eq rfl rfl rfl
  trans := .trans
  read := .read
  pc := fun _ _ => .of_eq rfl rfl rfl
  reg := fun r _ s v => .of_eq (setReg_cfg s r v) (setReg_bus s r v) (setReg_mem s r v)
  flags := fun _ _ _ => .of_eq rfl rfl rfl
  restore := fun _ _ _ => .of_eq rfl rfl rfl
  write := fun _ s a v _ => .write s a v

/-- Settles O51: every change that a step can make replays (`respects_replays`), and so does recording a fault. -/
theorem busRecordReplaysToTheMemory : Obligations.BusRecordReplaysToTheMemory := by
  intro s t hstep
  have hreplays : Replays s t := step_respects (fun i => respects_replays (footprint i)) (fun _ _ => .of_eq rfl rfl rfl) hstep
  exact hreplays

end Sys2Proof.Machine
end

section
/-! PROOFS. Decoding (spec/30_encoding.md R61 to R63, R87 to R89) and the cycle of one step (R84, R85): the sticky fault,
the fetch out of range, the absent opcode and the present one. -/

namespace Sys2Proof.Machine

open Sys2Proof.Spec

/-! ### Decoding and encoding -/

/-- Settles O3: each direction is a law of Laws/PerInstr.lean. -/
theorem decodeAndEncodeAgree : Obligations.DecodeAndEncodeAgree := by
  refine fun bs c rest => ⟨decode_eq_code bs c rest, fun ⟨hwf, hbs⟩ => ?_⟩
  rw [hbs]
  exact decode_encode c hwf rest

/-- Settles O1: `decode` on the bytes written out. -/
theorem decodeReadsTheWrittenWords : Obligations.DecodeReadsTheWrittenWords := by
  unfold Obligations.DecodeReadsTheWrittenWords
  decide

/-- Settles O2: the table of R62, cell by cell, against the list of R87. -/
theorem unimplementedOpcodesAreTheListed105 : Obligations.UnimplementedOpcodesAreTheListed105 := ⟨rfl, by decide⟩

/-! ### The cycle -/

section

variable {s t : State} {f : Fault} {i : Instr}

/-- R164: a recorded fault is returned. -/
theorem step_recorded (hok : s.cfg.ok = true) (hf : s.faultRecord = some f) : step s = .fault f := by
  simp only [step, hok, if_true, hf]

/-- R84: a fault of the fetch or of decoding ends the step and is recorded. -/
theorem step_fetchDecode_error (hok : s.cfg.ok = true) (hf : s.faultRecord = none) (h : fetchDecode s = .error f t) :
    step s = .next { t with faultRecord := some f } := by
  simp only [step, hok, if_true, hf, h]
  rfl

/-- R84: a decoded instruction is executed. -/
theorem step_fetchDecode_ok (hok : s.cfg.ok = true) (hf : s.faultRecord = none) (h : fetchDecode s = .ok i t) :
    step s = exec i t := by
  simp only [step, hok, if_true, hf, h]

end

/-- Settles O4: the law of each case of the cycle. -/
theorem stepFollowsTheCycle : Obligations.StepFollowsTheCycle := by
  intro s hok
  exact ⟨fun f hf => step_recorded hok hf,
    fun hf hr => step_fetchDecode_error hok hf (fetchDecode_error hr),
    fun hf hr hd => step_fetchDecode_error hok hf (fetchDecode_none hr hd),
    fun i hf hr hd => step_fetchDecode_ok hok hf (fetchDecode_some hr hd)⟩

/-- Settles O6: the step answers what its opcode fetch leaves, with the fault recorded (`stepFollowsTheCycle`). -/
theorem unimplementedOpcodeChangesOnlyPc : Obligations.UnimplementedOpcodeChangesOnlyPc := by
  intro s hok hf hr hmem
  have habsent : decodeOpcode (s.busByte s.PC) = none := (unimplementedOpcodesAreTheListed105.2 _).mpr hmem
  obtain ⟨-, -, hstep, -⟩ := stepFollowsTheCycle s hok
  exact ⟨_, hstep hf hr habsent, rfl, rfl, rfl, rfl, rfl, rfl, rfl, rfl⟩

/-- Settles O10: the law of fetch, in range and out of range, and the wrap of PC. -/
theorem fetchReadsAtPcAndAdvances : Obligations.FetchReadsAtPcAndAdvances := by
  refine fun s => ⟨fetch_ok, fetch_error, fun hPC => ?_⟩
  rw [afterFetch_PC, hPC]
  rfl

end Sys2Proof.Machine
end

section
/-! PROOFS. The addressing resolver (spec/30_encoding.md R68 to R80) in range, by ordinary arithmetic: the wraps within page
0 and mod 65536, the page bug of Indirect, and GetData from GetAddr. -/

namespace Sys2Proof.Machine

open Sys2Proof.Spec

/-- R71: a byte is its own zero-page address. -/
theorem zeroPage_byte (b : Byte) : zeroPage b.toNat = BitVec.ofNat 16 b.toNat := by
  rw [zeroPage, Nat.mod_eq_of_lt b.isLt]

/-- R10: a word of two bytes does not wrap. -/
@[simp] theorem toNat_word (hi lo : Byte) : (word hi lo).toNat = hi.toNat * 256 + lo.toNat := by
  have := hi.isLt
  have := lo.isLt
  rw [word, BitVec.toNat_ofNat]
  omega

/-- R77: the pointer with its low byte incremented mod 256 and its high byte unchanged. -/
theorem word_low_add_one (hi lo : Byte) :
    word hi (lo + 1) = BitVec.ofNat 16 (hi.toNat * 256 + (lo.toNat + 1) % 256) := by
  simp [word, BitVec.toNat_add]

/-- Settles O14: the resolver's law for each mode. -/
theorem zeroPageModesStayInPageZero : Obligations.ZeroPageModesStayInPageZero := by
  refine fun s hr => ⟨?_, getAddr_zeroPageX_ok hr, getAddr_zeroPageY_ok hr⟩
  rw [getAddr_zeroPage_ok hr, zeroPage_byte]

/-- Settles O15: the resolver's law for each mode, with the word as a sum. -/
theorem absoluteModesAddMod65536 : Obligations.AbsoluteModesAddMod65536 := by
  rintro s _ _ _ h1 rfl rfl h2 rfl
  refine ⟨getAddr_absolute_ok h1 h2, ?_, ?_⟩
  · rw [getAddr_absoluteX_ok h1 h2, toNat_word]
  · rw [getAddr_absoluteY_ok h1 h2, toNat_word]

/-- Settles O16: the resolver's law for Indirect, whose second read is at `word_low_add_one`. -/
theorem indirectHasThePageBug : Obligations.IndirectHasThePageBug := by
  intro s t u plo phi p q h1 hplo ht h2 hphi hu hp hpr hq hqr
  obtain rfl : p = word phi plo := hp
  obtain rfl : q = word phi (plo + 1) := hq.trans (word_low_add_one phi plo).symm
  subst ht
  exact getAddr_indirect_ok plo phi u h1 h2 hplo hphi hu hpr hqr

/-- Settles O17: the resolver's law for each mode, the pointer's two cells as zero-page addresses. -/
theorem zeroPagePointersWrap : Obligations.ZeroPagePointersWrap := by
  rintro s _ b p q h1 hb rfl hp hq
  refine ⟨?_, fun hpb => ?_⟩
  · rintro rfl rfl
    exact getAddr_indexedIndirect_ok _ h1 (by rw [hb]) hp hq
  · obtain rfl : p = zeroPage b.toNat := hpb.trans (zeroPage_byte b).symm
    rintro rfl
    rw [← toNat_word]
    exact getAddr_indirectIndexed_ok _ h1 (by rw [hb]) hp hq

/-- R69, R161: GetAddr refuses a mode that names no address. -/
theorem getAddr_refused {m : Mode} (hm : Mode.hasAddr m = false) (s : State) :
    getAddr m s = .error (.unsupportedMode m) s := by
  cases m with
  | implied | accumulator | immediate | relative => rfl
  | _ => cases hm

/-- R68, R161: GetData refuses a mode that has no operand. -/
theorem getData_refused {m : Mode} (hm : Mode.hasData m = false) (s : State) :
    getData m s = .error (.unsupportedMode m) s := by
  cases m with
  | implied | accumulator => rfl
  | _ => cases hm

/-- Settles O18: in a mode that names an address GetData is GetAddr and then a read (`getData_eq`). -/
theorem getDataReadsAtTheAddress : Obligations.GetDataReadsAtTheAddress := by
  refine fun s => ⟨rfl, rfl, fun m hm => ?_, fun m hm => getData_refused ?_ s, fun m hm => getAddr_refused ?_ s⟩
  · rw [getData_eq ((mem_memoryModes_iff m).mp hm)]
    exact ⟨fun ea t h => bind_ok h, fun f t h => bind_error h⟩
  · fin_cases hm <;> rfl
  · fin_cases hm <;> rfl

end Sys2Proof.Machine
end

section
/-! PROOFS. The Bus operations of every instruction, in the order of R86 (spec/30_encoding.md): what one operation after
another issues, each family of instructions once, and then the instructions by their families. With it, that no Bus write
is a frame of memory (R52). -/

namespace Sys2Proof.Machine

open Sys2Proof.Spec

/-- Settles O44: memory is kept by every change that a footprint without a store allows, and no instruction changes the
parameters. -/
theorem nonStoringInstructionsKeepMemory : Obligations.NonStoringInstructionsKeepMemory := by
  intro i s t hexec hstore
  have hmem : t.mem = s.mem := exec_respects i (respects_mem (footprint i) hstore) (fun _ _ => rfl) hexec
  have hcfg : t.cfg = s.cfg := (onlyNamedInstructionsWriteARegister i s t hexec).2
  exact ⟨hmem, fun a => by rw [State.memByte, hmem, hcfg]; rfl⟩

/-- From `s`, `o` completes, leaves the parameters, and its Bus operations are `ops`, in order. -/
def Issues {α : Type} (o : Op α) (s : State) (ops : List (Bool × Addr)) : Prop :=
  ∃ a t, o s = .ok a t ∧ t.cfg = s.cfg ∧ Logged s t ops

section

variable {α β : Type} {s : State} {xs ys : List (Bool × Addr)}

/-- One operation after another: the second runs under the same parameters, from the state that the first leaves. -/
theorem Issues.bind {o : Op α} {k : α → Op β} (h : Issues o s xs)
    (hk : ∀ a t, o s = .ok a t → t.cfg = s.cfg → Issues (k a) t ys) : Issues (o >>= k) s (xs ++ ys) := by
  obtain ⟨a, t, ho, hcfg, hlog⟩ := h
  obtain ⟨b, u, hu, hcfg', hlog'⟩ := hk a t ho hcfg
  exact ⟨b, u, by rw [bind_ok ho, hu], hcfg'.trans hcfg, hlog.trans hlog'⟩

/-- An update that the record and the parameters do not see. -/
theorem issues_update {g : State → State} (hcfg : (g s).cfg = s.cfg) (hbus : (g s).bus = s.bus) :
    Issues (Op.update g) s [] := ⟨(), g s, rfl, hcfg, logged_none hbus⟩

/-- Such an update after another operation. -/
theorem Issues.bind_update {o : Op α} {g : α → State → State} (h : Issues o s xs)
    (hcfg : ∀ a t, (g a t).cfg = t.cfg) (hbus : ∀ a t, (g a t).bus = t.bus) :
    Issues (o >>= fun a => Op.update (g a)) s xs := by
  have hb := h.bind (k := fun a => Op.update (g a)) (ys := []) fun a t _ _ => issues_update (hcfg a t) (hbus a t)
  rwa [List.append_nil] at hb

/-- Reading the state first issues nothing. -/
theorem issues_get_bind {g : State → α} {k : α → Op β} (h : Issues (k (g s)) s xs) : Issues (Op.get g >>= k) s xs := h

/-- The same parameters, so the same memory length. -/
theorem fullMemory_of_cfg {s t : State} (hf : s.FullMemory) (hcfg : t.cfg = s.cfg) : t.FullMemory := by
  rw [State.FullMemory, hcfg]
  exact hf

end

section

variable {s : State} {m : Mode}

/-! ### The operand and the memory operations -/

section

variable (hf : s.FullMemory)

include hf

theorem issues_memRead (a : Addr) : Issues (memRead a) s [(false, a)] :=
  ⟨_, _, memRead_ok (inRange hf a), rfl, logged_read s a⟩

theorem issues_memWrite (a : Addr) (v : Byte) : Issues (memWrite a v) s [(true, a)] :=
  ⟨_, _, memWrite_ok (inRange hf a), rfl, logged_write s a v⟩

theorem issues_push (v : Byte) : Issues (push v) s [(true, stackDown s 0)] :=
  ⟨_, _, push_ok (inRange hf _), rfl, logged_push s v⟩

theorem issues_pop : Issues pop s [(false, stackUp s 1)] := ⟨_, _, pop_ok (inRange hf _), rfl, logged_pop s⟩

theorem issues_popWord : Issues popWord s [(false, stackUp s 1), (false, stackUp s 2)] :=
  ⟨_, _, popWord_full hf, rfl, logged_pop2 s⟩

/-- R73: the offset of a branch. -/
theorem issues_fetch : Issues fetch s [fetchAt s 0] := ⟨_, _, fetch_ok (inRange hf _), rfl, logged_fetch s⟩

end

/-- R86: what the read class issues: the operand byte itself, or res(mode) and a read at the effective address. -/
def dataOps (m : Mode) (s : State) : List (Bool × Addr) :=
  if m = .immediate then resolverOps m s else resolverOps m s ++ [(false, effAddr m s)]

section

variable (hf : s.FullMemory) (hd : s.NoDevices)

include hf hd

/-- An address resolved, and then what is done at the effective address. -/
theorem issues_getAddr_bind {ys : List (Bool × Addr)} {k : Addr → Op Unit} (hm : Mode.hasAddr m = true)
    (hk : ∀ t : State, t.FullMemory → Issues (k (effAddr m s)) t ys) :
    Issues (getAddr m >>= k) s (resolverOps m s ++ ys) := by
  obtain ⟨t, ht, hlog⟩ := getAddr_logged hf hd m hm
  have hcfg : t.cfg = s.cfg := (fetches_getAddr m s _ t ht).cfg
  obtain ⟨a, u, hu, hcfg', hlog'⟩ := hk t (fullMemory_of_cfg hf hcfg)
  exact ⟨a, u, by rw [bind_ok ht, hu], hcfg'.trans hcfg, hlog.trans hlog'⟩

theorem issues_getData (hm : Mode.hasAddr m = true ∨ m = .immediate) : Issues (getData m) s (dataOps m s) := by
  obtain hm | rfl := hm
  · have hne : m ≠ .immediate := fun e => by rw [e] at hm; cases hm
    obtain ⟨v, t, ht, hlog⟩ := getData_logged hf hd m hm
    rw [dataOps, if_neg hne]
    exact ⟨v, t, ht, (fetches_getData m s v t ht).cfg, hlog⟩
  · exact issues_fetch hf

/-! ### The shared operations of the families -/

/-- A read-class operation: the operand, and then registers and flags alone. -/
theorem issues_readClass {g : Byte → State → State} (hm : Mode.hasAddr m = true ∨ m = .immediate)
    (hcfg : ∀ v t, (g v t).cfg = t.cfg) (hbus : ∀ v t, (g v t).bus = t.bus) :
    Issues (getData m >>= fun v => Op.update (g v)) s (dataOps m s) := (issues_getData hf hd hm).bind_update hcfg hbus

theorem issues_load (r : Reg) (hm : Mode.hasAddr m = true ∨ m = .immediate) : Issues (load r m) s (dataOps m s) :=
  issues_readClass hf hd hm (fun v t => setReg_cfg t r v) (fun v t => setReg_bus t r v)

theorem issues_compare (r : Reg) (hm : Mode.hasAddr m = true ∨ m = .immediate) :
    Issues (compare r m) s (dataOps m s) := issues_readClass hf hd hm (fun _ _ => rfl) (fun _ _ => rfl)

theorem issues_logical (f : Byte → Byte → Byte) (hm : Mode.hasAddr m = true ∨ m = .immediate) :
    Issues (logical f m) s (dataOps m s) := issues_readClass hf hd hm (fun _ _ => rfl) (fun _ _ => rfl)

theorem issues_bitTest (hm : Mode.hasAddr m = true ∨ m = .immediate) : Issues (bitTest m) s (dataOps m s) :=
  issues_readClass hf hd hm (fun _ _ => rfl) (fun _ _ => rfl)

theorem issues_addCarry (hm : Mode.hasAddr m = true ∨ m = .immediate) : Issues (addCarry m) s (dataOps m s) :=
  issues_readClass hf hd hm (fun _ _ => rfl) (fun _ _ => rfl)

theorem issues_subBorrow (hm : Mode.hasAddr m = true ∨ m = .immediate) : Issues (subBorrow m) s (dataOps m s) :=
  issues_readClass hf hd hm (fun _ _ => rfl) (fun _ _ => rfl)

theorem issues_store (r : Reg) (hm : Mode.hasAddr m = true) :
    Issues (store r m) s (resolverOps m s ++ [(true, effAddr m s)]) :=
  issues_getAddr_bind hf hd hm fun _ ht => issues_get_bind (issues_memWrite ht _ _)

/-- R47: one read and one write, at the same address. -/
theorem issues_modifyMem (f : Byte → Byte) (hm : Mode.hasAddr m = true) :
    Issues (modifyMem m f) s (resolverOps m s ++ [(false, effAddr m s), (true, effAddr m s)]) :=
  issues_getAddr_bind hf hd hm fun _ ht => (issues_memRead ht _).bind fun _ _ _ hcfg =>
    (issues_memWrite (fullMemory_of_cfg ht hcfg) _ _).bind_update (fun _ _ => rfl) (fun _ _ => rfl)

theorem issues_shiftMem (f : Byte → Bool → Byte × Bool) (hm : Mode.hasAddr m = true) :
    Issues (shiftMem m f) s (resolverOps m s ++ [(false, effAddr m s), (true, effAddr m s)]) :=
  issues_getAddr_bind hf hd hm fun _ ht => (issues_memRead ht _).bind fun _ _ _ hcfg =>
    issues_get_bind ((issues_memWrite (fullMemory_of_cfg ht hcfg) _ _).bind_update (fun _ _ => rfl) (fun _ _ => rfl))

theorem issues_jump (hm : Mode.hasAddr m = true) : Issues (jump m) s (resolverOps m s) := by
  have h := issues_getAddr_bind (k := setPC) (ys := []) hf hd hm fun _ _ => issues_update rfl rfl
  rwa [List.append_nil] at h

end

section

variable (hf : s.FullMemory)

include hf

/-- R125: the offset is fetched whether or not the branch is taken. -/
theorem issues_branch (f : Flag) (b : Bool) : Issues (branch f b) s [fetchAt s 0] :=
  (issues_fetch hf).bind_update (fun _ _ => by split <;> rfl) (fun _ _ => by split <;> rfl)

theorem issues_pushA : Issues pushA s [(true, stackDown s 0)] := issues_get_bind (issues_push hf s.A)

theorem issues_pushStatus : Issues pushStatus s [(true, stackDown s 0)] := issues_get_bind (issues_push hf (pushedP s.P))

theorem issues_pullA : Issues pullA s [(false, stackUp s 1)] :=
  (issues_pop hf).bind_update (fun _ _ => rfl) (fun _ _ => rfl)

theorem issues_pullStatus : Issues pullStatus s [(false, stackUp s 1)] :=
  (issues_pop hf).bind_update (fun _ _ => rfl) (fun _ _ => rfl)

theorem issues_returnSubroutine : Issues returnSubroutine s [(false, stackUp s 1), (false, stackUp s 2)] :=
  (issues_popWord hf).bind_update (fun _ _ => rfl) (fun _ _ => rfl)

/-- R135: JSR with a full memory: the pushes first, and then the two operand bytes as the pushes left them. -/
theorem jumpSubroutine_full {u : State} (hu : u = afterPush (afterPush s (hiByte (s.PC + 2))) (loByte (s.PC + 2))) :
    jumpSubroutine s = .ok () { afterFetch (afterFetch u) with
      PC := word ((afterFetch u).busByte (afterFetch u).PC) (u.busByte u.PC) } := by
  have hfu : u.FullMemory := fullMemory_of_cfg hf (by rw [hu]; rfl)
  rw [jumpSubroutine, get_bind_run, bind_ok (pushWord_full hf _), ← hu, bind_ok (getAddr_absolute hfu), setPC_run]

theorem issues_jumpSubroutine :
    Issues jumpSubroutine s [(true, stackDown s 0), (true, stackDown s 1), fetchAt s 0, fetchAt s 1] := by
  obtain ⟨u, hu⟩ : ∃ u, u = afterPush (afterPush s (hiByte (s.PC + 2))) (loByte (s.PC + 2)) := ⟨_, rfl⟩
  have hpush : Logged s u [(true, stackDown s 0), (true, stackDown s 1)] := hu ▸ logged_push2 s _ _
  have hfetch : Logged u (afterFetch (afterFetch u)) [fetchAt s 0, fetchAt s 1] := by
    have hat : ∀ k, fetchAt u k = fetchAt s k := fun k => by rw [hu]; rfl
    have h := logged_fetch2 u
    rwa [hat, hat] at h
  exact ⟨_, _, jumpSubroutine_full hf hu, by rw [hu]; rfl, (hpush.trans hfetch).of_bus rfl⟩

/-- R150: BRK with a full memory: the three pushes first, and then the two bytes of the vector. -/
theorem trapEntry_full {t : State}
    (ht : t = afterPush (afterPush (afterPush s (hiByte (s.PC + 1))) (loByte (s.PC + 1))) (pushedP s.P)) :
    trapEntry s = .ok () { afterRead (afterRead t 0xFFFE) 0xFFFF with
      PC := word ((afterRead t 0xFFFE).busByte 0xFFFF) (t.busByte 0xFFFE) } := by
  have hft : t.FullMemory := fullMemory_of_cfg hf (by rw [ht]; rfl)
  have hpush : push (pushedP s.P) (afterPush (afterPush s (hiByte (s.PC + 1))) (loByte (s.PC + 1))) = .ok () t :=
    ht ▸ push_ok (inRange hf _)
  rw [trapEntry, get_bind_run, bind_ok (pushWord_full hf _), get_bind_run, afterPush_P, afterPush_P,
    bind_ok hpush, bind_ok (readWordAt_full hft _ _), setPC_run]

theorem issues_trapEntry :
    Issues trapEntry s
      [(true, stackDown s 0), (true, stackDown s 1), (true, stackDown s 2), (false, 0xFFFE), (false, 0xFFFF)] := by
  obtain ⟨t, ht⟩ : ∃ t, t = afterPush (afterPush (afterPush s (hiByte (s.PC + 1))) (loByte (s.PC + 1))) (pushedP s.P) :=
    ⟨_, rfl⟩
  have hpush : Logged s t [(true, stackDown s 0), (true, stackDown s 1), (true, stackDown s 2)] :=
    ht ▸ logged_push3 s _ _ _
  exact ⟨_, _, trapEntry_full hf ht, by rw [ht]; rfl, (hpush.trans (logged_read2 t 0xFFFE 0xFFFF)).of_bus rfl⟩

/-- R151: RTI with a full memory: P first, and then PC, the record and the stack as the pop of P left them. -/
theorem trapReturn_full {t : State} (ht : t = (afterPop s).mapP fun _ => restoredP (popByte s)) :
    trapReturn s = .ok () { afterPop (afterPop t) with PC := word (popByte (afterPop t)) (popByte t) } := by
  have hft : t.FullMemory := fullMemory_of_cfg hf (by rw [ht]; rfl)
  rw [trapReturn, bind_ok (pop_ok (inRange hf _)), update_bind_run, ← ht, bind_ok (popWord_full hft), setPC_run]

theorem issues_trapReturn :
    Issues trapReturn s [(false, stackUp s 1), (false, stackUp s 2), (false, stackUp s 3)] :=
  ⟨_, _, trapReturn_full hf rfl, rfl, (logged_pop3 s).of_bus rfl⟩

end

theorem issues_transfer (a b : Reg) : Issues (transfer a b) s [] := issues_update (setReg_cfg s b _) (setReg_bus s b _)

theorem issues_transferToS : Issues transferToS s [] := issues_update (setReg_cfg s .S _) (setReg_bus s .S _)

theorem issues_writeFlag (f : Flag) (b : Bool) : Issues (writeFlag f b) s [] := issues_update rfl rfl

theorem issues_modifyReg (r : Reg) (f : Byte → Byte) : Issues (modifyReg r f) s [] :=
  issues_update (setReg_cfg s r _) (setReg_bus s r _)

theorem issues_shiftAcc (f : Byte → Bool → Byte × Bool) : Issues (shiftAcc f) s [] := issues_update rfl rfl

theorem issues_noOperation : Issues noOperation s [] := issues_update rfl rfl

end

/-! ### Every instruction -/

/-- R86: each instruction's operation issues its row of the table. -/
theorem opOf_issues (i : Instr) {s : State} (hf : s.FullMemory) (hd : s.NoDevices) : Issues (opOf i) s (busOps i s) := by
  cases i with
  | ldaImm => exact issues_load hf hd .A (.inr rfl)
  | ldxImm => exact issues_load hf hd .X (.inr rfl)
  | ldyImm => exact issues_load hf hd .Y (.inr rfl)
  | ldaZp | ldaZpX | ldaAbs | ldaAbsX | ldaAbsY | ldaIndX | ldaIndY => exact issues_load hf hd .A (.inl rfl)
  | ldxZp | ldxZpY | ldxAbs | ldxAbsY => exact issues_load hf hd .X (.inl rfl)
  | ldyZp | ldyZpX | ldyAbs | ldyAbsX => exact issues_load hf hd .Y (.inl rfl)
  | staZp | staZpX | staAbs | staAbsX | staAbsY | staIndX | staIndY => exact issues_store hf hd .A rfl
  | stxZp | stxZpY | stxAbs => exact issues_store hf hd .X rfl
  | styZp | styZpX | styAbs => exact issues_store hf hd .Y rfl
  | tax | tay | txa | tya | tsx => exact issues_transfer _ _
  | txs => exact issues_transferToS
  | clc | cld | cli | clv | sec | sed | sei => exact issues_writeFlag _ _
  | incZp | incZpX | incAbs | incAbsX => exact issues_modifyMem hf hd incByte rfl
  | decZp | decZpX | decAbs | decAbsX => exact issues_modifyMem hf hd decByte rfl
  | inx | iny | dex | dey => exact issues_modifyReg _ _
  | cmpImm => exact issues_compare hf hd .A (.inr rfl)
  | cpxImm => exact issues_compare hf hd .X (.inr rfl)
  | cpyImm => exact issues_compare hf hd .Y (.inr rfl)
  | cmpZp | cmpZpX | cmpAbs | cmpAbsX | cmpAbsY | cmpIndX | cmpIndY => exact issues_compare hf hd .A (.inl rfl)
  | cpxZp | cpxAbs => exact issues_compare hf hd .X (.inl rfl)
  | cpyZp | cpyAbs => exact issues_compare hf hd .Y (.inl rfl)
  | andImm | oraImm | eorImm => exact issues_logical hf hd _ (.inr rfl)
  | andZp | andZpX | andAbs | andAbsX | andAbsY | andIndX | andIndY => exact issues_logical hf hd andByte (.inl rfl)
  | oraZp | oraZpX | oraAbs | oraAbsX | oraAbsY | oraIndX | oraIndY => exact issues_logical hf hd oraByte (.inl rfl)
  | eorZp | eorZpX | eorAbs | eorAbsX | eorAbsY | eorIndX | eorIndY => exact issues_logical hf hd eorByte (.inl rfl)
  | aslAcc | lsrAcc | rolAcc | rorAcc => exact issues_shiftAcc _
  | aslZp | aslZpX | aslAbs | aslAbsX => exact issues_shiftMem hf hd aslF rfl
  | lsrZp | lsrZpX | lsrAbs | lsrAbsX => exact issues_shiftMem hf hd lsrF rfl
  | rolZp | rolZpX | rolAbs | rolAbsX => exact issues_shiftMem hf hd rolF rfl
  | rorZp | rorZpX | rorAbs | rorAbsX => exact issues_shiftMem hf hd rorF rfl
  | beq | bne | bmi | bpl | bcs | bcc | bvc | bvs => exact issues_branch hf _ _
  | jmpAbs | jmpInd => exact issues_jump hf hd rfl
  | jsr => exact issues_jumpSubroutine hf
  | rts => exact issues_returnSubroutine hf
  | pha => exact issues_pushA hf
  | pla => exact issues_pullA hf
  | php => exact issues_pushStatus hf
  | plp => exact issues_pullStatus hf
  | bitZp | bitAbs => exact issues_bitTest hf hd (.inl rfl)
  | adcImm => exact issues_addCarry hf hd (.inr rfl)
  | adcZp | adcZpX | adcAbs | adcAbsX | adcAbsY | adcIndX | adcIndY => exact issues_addCarry hf hd (.inl rfl)
  | sbcImm => exact issues_subBorrow hf hd (.inr rfl)
  | sbcZp | sbcZpX | sbcAbs | sbcAbsX | sbcAbsY | sbcIndX | sbcIndY => exact issues_subBorrow hf hd (.inl rfl)
  | brk => exact issues_trapEntry hf
  | rti => exact issues_trapReturn hf
  | nop => exact issues_noOperation

/-- Settles O52: the instruction's operation completes and issues its row (`opOf_issues`). -/
theorem busOperationsFollowTheTable : Obligations.BusOperationsFollowTheTable := by
  intro i s hf hd
  obtain ⟨_, t, hrun, -, new, hbus, hops⟩ := opOf_issues i hf hd
  exact ⟨t, new, by rw [exec_eq_finish, finish_ok hrun], hbus, hops⟩

end Sys2Proof.Machine
end

section
/-! PROOFS. The operand bytes that an instruction fetches (spec/30_encoding.md R84, R86): where the table of R86 has its
operand fetches first, they return the bytes of the memory before the instruction, by the replay of its record (R53); JSR,
which pushes first, is run (R135, R191). -/

namespace Sys2Proof.Machine

open Sys2Proof.Spec

/-! ### Where the operand fetches stand in the table -/

/-- R61, R86: res(mode) begins with the fetches of the mode's operand bytes. -/
theorem resolverOps_fetches (m : Mode) (s : State) {k : Nat} (hk : k < m.operandBytes) :
    (resolverOps m s)[k]? = some (fetchAt s k) := by
  cases m with
  | implied | accumulator => exact absurd hk (Nat.not_lt_zero k)
  | immediate | relative | zeroPage | zeroPageX | zeroPageY | indexedIndirect | indirectIndexed =>
    obtain rfl : k = 0 := Nat.lt_one_iff.mp hk
    rfl
  | absolute | absoluteX | absoluteY | indirect =>
    match k, hk with
    | 0, _ => rfl
    | 1, _ => rfl

/-- R86: every row but JSR's begins with res(mode); in the rows with no more to issue the rest is empty. -/
theorem busOps_eq_resolverOps_append (i : Instr) (s : State) (hi : i ≠ .jsr) :
    ∃ rest, busOps i s = resolverOps i.mode s ++ rest := by
  cases i with
  | jsr => exact absurd rfl hi
  | ldaImm | ldxImm | ldyImm | cmpImm | cpxImm | cpyImm | andImm | oraImm | eorImm | adcImm | sbcImm | beq | bne | bmi | bpl
  | bcs | bcc | bvc | bvs | jmpAbs | jmpInd => exact ⟨[], (List.append_nil _).symm⟩
  | _ => exact ⟨_, rfl⟩

theorem busOps_fetches (i : Instr) (s : State) (hi : i ≠ .jsr) {k : Nat} (hk : k < i.mode.operandBytes) :
    (busOps i s)[k]? = some (fetchAt s k) := by
  obtain ⟨rest, hrest⟩ := busOps_eq_resolverOps_append i s hi
  have hres := resolverOps_fetches i.mode s hk
  rw [hrest, List.getElem?_append_left (List.getElem?_eq_some_iff.mp hres).1, hres]

/-! ### What they return -/

/-- R53: with no device, where the first `k + 1` events of a record are reads, the last of them returns the byte of the
memory that the record starts from. -/
theorem replay_reads {c : Config} (hio : c.ioRegion = []) {new history : List BusEvent} {m m' : List Host.Cell}
    {A : Nat → Addr} {k : Nat} (hr : replay c history new m = some m')
    (hreads : ∀ j ≤ k, (new.map BusEvent.access)[j]? = some (false, A j)) :
    new[k]? = some (.read (A k) (Memory.read c.launch m (A k).toNat)) := by
  induction new generalizing history A k with
  | nil => cases hreads 0 (Nat.zero_le k)
  | cons e rest ih =>
    have hfirst : BusEvent.access e = (false, A 0) := Option.some.inj (hreads 0 (Nat.zero_le k))
    cases e with
    | write a v => cases hfirst
    | read a v =>
      obtain rfl : a = A 0 := congrArg Prod.snd hfirst
      simp only [replay, hio, List.not_mem_nil, if_false, Option.ite_none_right_eq_some] at hr
      obtain ⟨rfl, hrest⟩ := hr
      cases k with
      | zero => rfl
      | succ k => exact ih (A := fun j => A (j + 1)) hrest fun j hj => hreads (j + 1) (Nat.succ_le_succ hj)

/-- R86: an instruction other than JSR first fetches its operand bytes, as memory holds them before it. -/
theorem exec_fetches_operands (i : Instr) {s : State} (hi : i ≠ .jsr) (hf : s.FullMemory) (hd : s.NoDevices) :
    ∃ (t : State) (new : List BusEvent), exec i s = .next t ∧ t.bus = new.reverse ++ s.bus ∧
      ∀ k < i.mode.operandBytes, new[k]? = some (.read (BitVec.ofNat 16 (s.PC.toNat + k)) (operand s k)) := by
  obtain ⟨t, new, hexec, hbus, hops⟩ := busOperationsFollowTheTable i s hf hd
  have hreplays : Replays s t :=
    exec_respects i (respects_replays (footprint i)) (fun _ _ => .of_eq rfl rfl rfl) hexec
  obtain ⟨-, new', hbus', hreplay⟩ := hreplays
  obtain rfl : new' = new := List.reverse_injective (List.append_cancel_right (hbus'.symm.trans hbus))
  refine ⟨t, new', hexec, hbus, fun k hk => ?_⟩
  have hreads : ∀ j ≤ k, (new'.map BusEvent.access)[j]? = some (fetchAt s j) := fun j hj =>
    hops ▸ busOps_fetches i s hi (Nat.lt_of_le_of_lt hj hk)
  exact replay_reads (A := fun j => BitVec.ofNat 16 (s.PC.toNat + j)) hd hreplay hreads

/-- R135, R191: JSR fetches its two operand bytes after its two pushes, as these leave memory. -/
theorem exec_jsr_fetches_operands {s u : State} (hf : s.FullMemory) (hd : s.NoDevices)
    (hu : u = afterPush (afterPush s (hiByte (s.PC + 2))) (loByte (s.PC + 2))) :
    ∃ (t : State) (new : List BusEvent), exec .jsr s = .next t ∧ t.bus = new.reverse ++ s.bus ∧
      ∀ k < 2, new[k + 2]? = some (.read (BitVec.ofNat 16 (s.PC.toNat + k)) (operand u k)) := by
  have hPC : u.PC = s.PC := by rw [hu]; rfl
  have hdu : u.NoDevices := by rw [hu]; exact hd
  obtain ⟨w₁, w₂, hbus⟩ : ∃ w₁ w₂, u.bus = [w₁, w₂].reverse ++ s.bus := by rw [hu]; exact ⟨_, _, rfl⟩
  refine ⟨_, [w₁, w₂, .read u.PC (operand u 0), .read (afterFetch u).PC (operand u 1)],
    finish_ok (jumpSubroutine_full hf hu), ?_, fun k hk => ?_⟩
  · have hread : (afterFetch (afterFetch u)).bus =
        .read (afterFetch u).PC ((afterFetch u).busByte (afterFetch u).PC) :: .read u.PC (u.busByte u.PC) :: u.bus := rfl
    rw [operand_zero hdu, operand_one hdu, hbus] at hread
    exact hread
  · rw [← hPC]
    match k, hk with
    | 0, _ => simp
    | 1, _ => rfl

/-! ### The step -/

theorem config_ok_of_fullMemory {s : State} (hf : s.FullMemory) : s.cfg.ok = true :=
  config_ok_iff.mpr (by rw [show s.cfg.memLen = 65536 from hf]; decide)

/-- R61: what decoding the three bytes at PC says of memory: the opcode stands at PC, and the operand bytes after it. -/
theorem operand_of_decode {s : State} {c : Code} {rest : List Byte}
    (h : decode [byteAt s s.PC, byteAt s (s.PC + 1), byteAt s (s.PC + 2)] = .code c rest) :
    byteAt s s.PC = c.instr.opcode ∧ ∀ k v, c.operands[k]? = some v → v = operand s (k + 1) := by
  obtain ⟨-, hbytes⟩ := decode_eq_code _ c rest h
  obtain ⟨hop, htail⟩ := List.cons.inj hbytes
  refine ⟨hop, fun k v hv => ?_⟩
  have hget : [byteAt s (s.PC + 1), byteAt s (s.PC + 2)][k]? = some v := by
    rw [htail, List.append_eq, List.getElem?_append_left (List.getElem?_eq_some_iff.mp hv).1, hv]
  match k, hget with
  | 0, hget | 1, hget =>
    rw [operand, ← addr_add_ofNat]
    exact (Option.some.inj hget).symm

/-- The bytes after the opcode, counted from PC. -/
theorem afterFetch_PC_add (s : State) (k : Nat) :
    BitVec.ofNat 16 ((afterFetch s).PC.toNat + k) = BitVec.ofNat 16 (s.PC.toNat + 1 + k) := by
  rw [afterFetch_PC, ← addr_add_ofNat, ← BitVec.ofNat_add]

theorem operand_afterFetch (s : State) (k : Nat) : operand (afterFetch s) k = operand s (k + 1) := by
  rw [operand, afterFetch_PC_add, operand, Nat.add_assoc, Nat.add_comm 1 k]
  rfl

/-- R135: the two bytes that JSR pushes, K+3 counted from PC before the opcode fetch. -/
theorem jsr_pushes (s : State) :
    hiByte ((afterFetch s).PC + 2) = BitVec.ofNat 8 ((s.PC.toNat + 3) % 65536 / 256) ∧
      loByte ((afterFetch s).PC + 2) = BitVec.ofNat 8 ((s.PC.toNat + 3) % 65536 % 256) := by
  have hret : (afterFetch s).PC + 2 = s.PC + BitVec.ofNat 16 3 := by
    rw [afterFetch_PC, ← addr_add_one, BitVec.add_assoc]
    rfl
  rw [hret]
  exact bytes_of_add s.PC 3

/-- R84: where the bytes at PC decode, the step is the execution of the instruction after the opcode fetch. -/
theorem step_of_decode {s : State} {c : Code} {rest : List Byte} (hf : s.FullMemory) (hd : s.NoDevices)
    (hnone : s.faultRecord = none)
    (h : decode [byteAt s s.PC, byteAt s (s.PC + 1), byteAt s (s.PC + 2)] = .code c rest) :
    step s = exec c.instr (afterFetch s) := by
  have hinstr : decodeOpcode (s.busByte s.PC) = some c.instr := by
    rw [busByte_noDevices hd, (operand_of_decode h).1, decodeOpcode_opcode]
  exact step_fetchDecode_ok (config_ok_of_fullMemory hf) hnone (fetchDecode_some (inRange hf _) hinstr)

/-- Settles O5: the step executes the decoded instruction, which fetches the bytes that were decoded, and JSR what its
pushes left. -/
theorem stepRunsTheDecodedInstruction : Obligations.StepRunsTheDecodedInstruction := by
  intro s u c rest hf hd hnone hdec hu
  have hwf : c.wellFormed = true := (decode_eq_code _ c rest hdec).1
  have hstep : step s = exec c.instr (afterFetch s) := step_of_decode hf hd hnone hdec
  have hopcode : (afterFetch s).bus = .read s.PC (byteAt s s.PC) :: s.bus := by
    rw [← busByte_noDevices hd]
    rfl
  have hnext : ∀ {t : State} {new : List BusEvent}, t.bus = new.reverse ++ (afterFetch s).bus →
      t.bus = (.read s.PC (byteAt s s.PC) :: new).reverse ++ s.bus := fun h => by rw [h, hopcode]; simp
  refine ⟨hwf, hstep, ?_⟩
  rw [hstep]
  by_cases hjsr : c.instr = .jsr
  · obtain ⟨hhi, hlo⟩ := jsr_pushes s
    rw [← hhi, ← hlo] at hu
    have hPC : u.PC = (afterFetch s).PC := by rw [hu]; rfl
    obtain ⟨t, new, hexec, hbus, hfetch⟩ := exec_jsr_fetches_operands (s := afterFetch s) hf hd hu
    refine ⟨t, _, hjsr ▸ hexec, hnext hbus, rfl, fun h => absurd hjsr h, fun _ k hk => ?_⟩
    rw [← afterFetch_PC_add, List.getElem?_cons_succ, hfetch k hk, operand, hPC]
  · obtain ⟨t, new, hexec, hbus, hfetch⟩ := exec_fetches_operands c.instr (s := afterFetch s) hjsr hf hd
    refine ⟨t, _, hexec, hnext hbus, rfl, fun _ k v hv => ?_, fun h => absurd h hjsr⟩
    have hk : k < c.instr.mode.operandBytes := by
      have hlen : c.operands.length = c.instr.mode.operandBytes := beq_iff_eq.mp hwf
      exact hlen ▸ (List.getElem?_eq_some_iff.mp hv).1
    rw [(operand_of_decode hdec).2 k v hv, ← afterFetch_PC_add, List.getElem?_cons_succ, hfetch k hk, operand_afterFetch]

end Sys2Proof.Machine
end

section
/-! PROOFS. Loads, stores and transfers (spec/40_load_store_transfer.md R90 to R101): the rows of a rule run one shared
operation in their modes, and the operation is of its class of R67 (Laws/Classes.lean). -/

namespace Sys2Proof.Machine

open Sys2Proof.Spec

/-- The row's opcode decodes to it, and its instruction is the operation `o` in the row's mode. -/
def RowRuns (o : Mode → Op Unit) (r : Row) : Prop := r.Encoded ∧ opOf r.i = o r.m

theorem RowRuns.exec_eq {o : Mode → Op Unit} {r : Row} (h : RowRuns o r) (s : State) : exec r.i s = finish (o r.m) s := by
  rw [exec_eq_finish, h.2]

/-! ### Loads -/

theorem load_readClass {reg : Reg} {r : Row} (h : RowRuns (load reg) r ∧ Mode.hasData r.m = true) :
    ReadClass r fun v t => (t.setReg reg v).mapP (znP v) := by
  obtain ⟨hrun, hm⟩ := h
  refine readClass_of r (fun v => Op.update fun t => (t.setReg reg v).mapP (setZN v)) _ hrun.1 hm hrun.exec_eq fun v t => ?_
  rw [update_run, funext (setZN_eq_znP v)]

theorem ldaRows_run_load : ∀ r ∈ ldaRows, RowRuns (load .A) r ∧ Mode.hasData r.m = true := by
  intro r hr
  fin_cases hr <;> exact ⟨⟨⟨rfl, rfl⟩, rfl⟩, rfl⟩

theorem ldxRows_run_load : ∀ r ∈ ldxRows, RowRuns (load .X) r ∧ Mode.hasData r.m = true := by
  intro r hr
  fin_cases hr <;> exact ⟨⟨⟨rfl, rfl⟩, rfl⟩, rfl⟩

theorem ldyRows_run_load : ∀ r ∈ ldyRows, RowRuns (load .Y) r ∧ Mode.hasData r.m = true := by
  intro r hr
  fin_cases hr <;> exact ⟨⟨⟨rfl, rfl⟩, rfl⟩, rfl⟩

/-- Settles O20: every row of LDA, LDX and LDY runs `load` of its register, which is of the read class. -/
theorem loadsTakeTheOperand : Obligations.LoadsTakeTheOperand :=
  ⟨fun r hr => load_readClass (ldaRows_run_load r hr),
   fun r hr => load_readClass (ldxRows_run_load r hr),
   fun r hr => load_readClass (ldyRows_run_load r hr)⟩

/-! ### Stores -/

theorem store_writeClass {reg : Reg} {r : Row} (h : RowRuns (store reg) r ∧ Mode.hasAddr r.m = true) :
    WriteClass r fun s => s.getReg reg := by
  obtain ⟨hrun, hm⟩ := h
  exact writeClass_of r reg hrun.1 hm hrun.exec_eq

theorem staRows_run_store : ∀ r ∈ staRows, RowRuns (store .A) r ∧ Mode.hasAddr r.m = true := by
  intro r hr
  fin_cases hr <;> exact ⟨⟨⟨rfl, rfl⟩, rfl⟩, rfl⟩

theorem stxRows_run_store : ∀ r ∈ stxRows, RowRuns (store .X) r ∧ Mode.hasAddr r.m = true := by
  intro r hr
  fin_cases hr <;> exact ⟨⟨⟨rfl, rfl⟩, rfl⟩, rfl⟩

theorem styRows_run_store : ∀ r ∈ styRows, RowRuns (store .Y) r ∧ Mode.hasAddr r.m = true := by
  intro r hr
  fin_cases hr <;> exact ⟨⟨⟨rfl, rfl⟩, rfl⟩, rfl⟩

/-- Settles O21: every row of STA, STX and STY runs `store` of its register, which is of the write class. -/
theorem storesWriteTheRegister : Obligations.StoresWriteTheRegister :=
  ⟨fun r hr => store_writeClass (staRows_run_store r hr),
   fun r hr => store_writeClass (stxRows_run_store r hr),
   fun r hr => store_writeClass (styRows_run_store r hr)⟩

/-! ### Transfers -/

theorem transfer_registerOnly {src dst : Reg} {r : Row} (h : RowRuns (fun _ => transfer src dst) r) :
    RegisterOnly r fun s => (s.setReg dst (s.getReg src)).mapP (znP (s.getReg src)) := by
  refine registerOnly_of h.1 h.exec_eq fun s => ?_
  rw [transfer, update_run, funext (setZN_eq_znP _)]

theorem transferToS_registerOnly {r : Row} (h : RowRuns (fun _ => transferToS) r) :
    RegisterOnly r fun s => s.setReg .S s.X :=
  registerOnly_of h.1 h.exec_eq fun _ => rfl

/-- Settles O22: TXS runs `transferToS`, and each other transfer runs `transfer` between its two registers. -/
theorem transfersCopyRegisters : Obligations.TransfersCopyRegisters :=
  ⟨transfer_registerOnly (src := .A) (dst := .X) ⟨⟨rfl, rfl⟩, rfl⟩,
   transfer_registerOnly (src := .A) (dst := .Y) ⟨⟨rfl, rfl⟩, rfl⟩,
   transfer_registerOnly (src := .X) (dst := .A) ⟨⟨rfl, rfl⟩, rfl⟩,
   transfer_registerOnly (src := .Y) (dst := .A) ⟨⟨rfl, rfl⟩, rfl⟩,
   transfer_registerOnly (src := .S) (dst := .X) ⟨⟨rfl, rfl⟩, rfl⟩,
   transferToS_registerOnly ⟨⟨rfl, rfl⟩, rfl⟩⟩

end Sys2Proof.Machine
end

section
/-! PROOFS. Flag set and clear, increment and decrement (spec/41_flags_incdec.md R102 to R114): the rows of a rule run one
shared operation, and the operation is of its class of R67 (Laws/Classes.lean). -/

namespace Sys2Proof.Machine

open Sys2Proof.Spec

/-! ### Flag set and clear -/

/-- R27: P with one flag written, by its eight flags. -/
theorem putFlag_eq_packP (f : Flag) (b : Bool) (p : Byte) :
    putFlag f b p = packP fun g => if g = f then b else getFlag g p := eq_packP fun g => getFlag_putFlag g f b p

theorem writeFlag_registerOnly {f : Flag} {b : Bool} {r : Row} (h : RowRuns (fun _ => writeFlag f b) r) :
    RegisterOnly r fun s => { s with P := packP fun g => if g = f then b else getFlag g s.P } :=
  registerOnly_of h.1 h.exec_eq fun s => by rw [writeFlag, update_run, State.mapP, putFlag_eq_packP]

/-- Settles O23: each row runs `writeFlag` of its flag and value, which makes no Bus operation and writes that flag alone. -/
theorem flagInstructionsWriteOneFlag : Obligations.FlagInstructionsWriteOneFlag := by
  intro e he
  refine writeFlag_registerOnly ?_
  fin_cases he <;> exact ⟨⟨rfl, rfl⟩, rfl⟩

/-! ### Increment and decrement -/

theorem incByte_eq (v : Byte) : incByte v = BitVec.ofNat 8 (v.toNat + 1) := byte_add_one v

theorem decByte_eq (v : Byte) : decByte v = BitVec.ofInt 8 ((v.toNat : Int) - 1) := byte_sub_one v

section

variable {f g : Byte → Byte} {r : Row}

/-- R47: a memory row of `modifyMem` writes what `f` computes, given here as `g`, and Z and N follow it. -/
theorem modifyMem_modifyClass (hfg : ∀ v, f v = g v)
    (h : RowRuns (fun m => modifyMem m f) r ∧ Mode.hasAddr r.m = true) :
    ModifyClass r (fun _ v => g v) fun s v => znP (g v) s.P := by
  obtain ⟨hrun, hm⟩ := h
  refine modifyClass_of r _ _ _ hrun.1 hm hrun.exec_eq
    (fun ea v => memWrite ea (f v) >>= fun _ => Op.update fun s => s.mapP (setZN (f v))) rfl
    (fun _ _ _ => rfl) (fun s t hP => by rw [hP]) fun ea v s hr => ?_
  rw [write_then_flags ea _ _ s hr, setZN_eq_znP, hfg]

/-- R111 to R114: the register form of the same. -/
theorem modifyReg_registerOnly {reg : Reg} (hfg : ∀ v, f v = g v) (h : RowRuns (fun _ => modifyReg reg f) r) :
    RegisterOnly r fun s => (s.setReg reg (g (s.getReg reg))).mapP (znP (g (s.getReg reg))) := by
  refine registerOnly_of h.1 h.exec_eq fun s => ?_
  rw [modifyReg, update_run, hfg, funext (setZN_eq_znP _)]

end

theorem incRows_run_modifyMem : ∀ r ∈ incRows, RowRuns (fun m => modifyMem m incByte) r ∧ Mode.hasAddr r.m = true := by
  intro r hr
  fin_cases hr <;> exact ⟨⟨⟨rfl, rfl⟩, rfl⟩, rfl⟩

theorem decRows_run_modifyMem : ∀ r ∈ decRows, RowRuns (fun m => modifyMem m decByte) r ∧ Mode.hasAddr r.m = true := by
  intro r hr
  fin_cases hr <;> exact ⟨⟨⟨rfl, rfl⟩, rfl⟩, rfl⟩

/-- Settles O24: every row of INC and DEC runs `modifyMem`, which is of the modify class, and INX, INY, DEX and DEY run
`modifyReg` of their register. -/
theorem incrementsAndDecrements : Obligations.IncrementsAndDecrements :=
  ⟨fun r hr => modifyMem_modifyClass incByte_eq (incRows_run_modifyMem r hr),
   fun r hr => modifyMem_modifyClass decByte_eq (decRows_run_modifyMem r hr),
   modifyReg_registerOnly (reg := .X) incByte_eq ⟨⟨rfl, rfl⟩, rfl⟩,
   modifyReg_registerOnly (reg := .Y) incByte_eq ⟨⟨rfl, rfl⟩, rfl⟩,
   modifyReg_registerOnly (reg := .X) decByte_eq ⟨⟨rfl, rfl⟩, rfl⟩,
   modifyReg_registerOnly (reg := .Y) decByte_eq ⟨⟨rfl, rfl⟩, rfl⟩⟩

end Sys2Proof.Machine
end

section
/-! PROOFS. Compare, logical, shift and rotate (spec/42_compare_logical_shift.md R115 to R124): the rows of a rule run one
shared operation, and the operation is of its class of R67 (Laws/Classes.lean). -/

namespace Sys2Proof.Machine

open Sys2Proof.Spec

/-! ### Compare -/

/-- R115 to R117: the flags of a compare, with the difference mod 256 taken over the integers. -/
theorem compareP_eq (reg m p : Byte) :
    compareP reg m p = cznP (decide (m.toNat ≤ reg.toNat)) (BitVec.ofInt 8 ((reg.toNat : Int) - m.toNat)) p := by
  rw [compareP_eq_cznP, byte_sub]

theorem compare_readClass {reg : Reg} {r : Row} (h : RowRuns (compare reg) r ∧ Mode.hasData r.m = true) :
    ReadClass r fun v t => t.mapP (cznP (decide (v.toNat ≤ (t.getReg reg).toNat))
      (BitVec.ofInt 8 (((t.getReg reg).toNat : Int) - v.toNat))) := by
  obtain ⟨hrun, hm⟩ := h
  refine readClass_of r (fun v => Op.update fun t => t.mapP (compareP (t.getReg reg) v)) _ hrun.1 hm hrun.exec_eq
    fun v t => ?_
  rw [update_run, funext (compareP_eq (t.getReg reg) v)]

theorem compareRows_run_compare :
    (∀ r ∈ cmpRows, RowRuns (compare .A) r ∧ Mode.hasData r.m = true) ∧
    (∀ r ∈ cpxRows, RowRuns (compare .X) r ∧ Mode.hasData r.m = true) ∧
    (∀ r ∈ cpyRows, RowRuns (compare .Y) r ∧ Mode.hasData r.m = true) := by
  refine ⟨?_, ?_, ?_⟩ <;> intro r hr <;> fin_cases hr <;> exact ⟨⟨⟨rfl, rfl⟩, rfl⟩, rfl⟩

/-- Settles O25: every row of CMP, CPX and CPY runs `compare` of its register, which is of the read class. -/
theorem comparesSetCarryZeroNegative : Obligations.ComparesSetCarryZeroNegative :=
  have ⟨cmp, cpx, cpy⟩ := compareRows_run_compare
  ⟨fun r hr => compare_readClass (reg := .A) (cmp r hr),
   fun r hr => compare_readClass (reg := .X) (cpx r hr),
   fun r hr => compare_readClass (reg := .Y) (cpy r hr)⟩

/-! ### AND, ORA and EOR -/

theorem logical_readClass {f : Byte → Byte → Byte} {r : Row} (h : RowRuns (logical f) r ∧ Mode.hasData r.m = true) :
    ReadClass r fun v t => (t.setReg .A (f t.A v)).mapP (znP (f t.A v)) := by
  obtain ⟨hrun, hm⟩ := h
  refine readClass_of r (fun v => Op.update fun t => (t.setReg .A (f t.A v)).mapP (setZN (f t.A v))) _ hrun.1 hm
    hrun.exec_eq fun v t => ?_
  rw [update_run, funext (setZN_eq_znP (f t.A v))]

theorem logicalRows_run_logical :
    (∀ r ∈ andRows, RowRuns (logical andByte) r ∧ Mode.hasData r.m = true) ∧
    (∀ r ∈ oraRows, RowRuns (logical oraByte) r ∧ Mode.hasData r.m = true) ∧
    (∀ r ∈ eorRows, RowRuns (logical eorByte) r ∧ Mode.hasData r.m = true) := by
  refine ⟨?_, ?_, ?_⟩ <;> intro r hr <;> fin_cases hr <;> exact ⟨⟨⟨rfl, rfl⟩, rfl⟩, rfl⟩

/-- Settles O26: every row of AND, ORA and EOR runs `logical` of its bitwise function, which is of the read class. -/
theorem logicalCombinesBits : Obligations.LogicalCombinesBits :=
  have ⟨and, ora, eor⟩ := logicalRows_run_logical
  ⟨fun r hr => logical_readClass (and r hr),
   fun r hr => logical_readClass (ora r hr),
   fun r hr => logical_readClass (eor r hr)⟩

/-! ### Shifts and rotates -/

section

variable {f : Byte → Bool → Byte × Bool} {val : Byte → Bool → Byte} {out : Byte → Bool} {r : Row}

/-- R121 to R124 in Accumulator mode, for a function that gives the value `val` and shifts out the bit `out`. -/
theorem shiftAcc_registerOnly (hval : ∀ v c, (f v c).1 = val v c) (hout : ∀ v c, (f v c).2 = out v)
    (h : RowRuns (fun _ => shiftAcc f) r) :
    RegisterOnly r fun s =>
      (s.setReg .A (val s.A (getFlag .C s.P))).mapP (cznP (out s.A) (val s.A (getFlag .C s.P))) := by
  refine registerOnly_of h.1 h.exec_eq fun s => ?_
  rw [shiftAcc, update_run, flag_eq, hval, hout, funext (shiftP_eq_cznP _ _)]

/-- R47, R121 to R124: the same in a memory mode. The carry in is that of the start, since the resolver leaves P alone. -/
theorem shiftMem_modifyClass (hval : ∀ v c, (f v c).1 = val v c) (hout : ∀ v c, (f v c).2 = out v)
    (h : RowRuns (fun m => shiftMem m f) r ∧ Mode.hasAddr r.m = true) :
    ModifyClass r (fun s v => val v (getFlag .C s.P)) fun s v => cznP (out v) (val v (getFlag .C s.P)) s.P := by
  obtain ⟨hrun, hm⟩ := h
  refine modifyClass_of r _ _ _ hrun.1 hm hrun.exec_eq _ rfl
    (fun s t hP => by rw [hP]) (fun s t hP => by rw [hP]) fun ea v s hr => ?_
  rw [shift_end f ea v s hr, shiftP_eq_cznP, hval, hout]

end

theorem shiftRows_run_shiftAcc :
    RowRuns (fun _ => shiftAcc aslF) ⟨.aslAcc, .accumulator, 0x0A⟩ ∧
    RowRuns (fun _ => shiftAcc lsrF) ⟨.lsrAcc, .accumulator, 0x4A⟩ ∧
    RowRuns (fun _ => shiftAcc rolF) ⟨.rolAcc, .accumulator, 0x2A⟩ ∧
    RowRuns (fun _ => shiftAcc rorF) ⟨.rorAcc, .accumulator, 0x6A⟩ :=
  ⟨⟨⟨rfl, rfl⟩, rfl⟩, ⟨⟨rfl, rfl⟩, rfl⟩, ⟨⟨rfl, rfl⟩, rfl⟩, ⟨⟨rfl, rfl⟩, rfl⟩⟩

theorem shiftRows_run_shiftMem :
    (∀ r ∈ aslMemRows, RowRuns (fun m => shiftMem m aslF) r ∧ Mode.hasAddr r.m = true) ∧
    (∀ r ∈ lsrMemRows, RowRuns (fun m => shiftMem m lsrF) r ∧ Mode.hasAddr r.m = true) ∧
    (∀ r ∈ rolMemRows, RowRuns (fun m => shiftMem m rolF) r ∧ Mode.hasAddr r.m = true) ∧
    (∀ r ∈ rorMemRows, RowRuns (fun m => shiftMem m rorF) r ∧ Mode.hasAddr r.m = true) := by
  refine ⟨?_, ?_, ?_, ?_⟩ <;> intro r hr <;> fin_cases hr <;> exact ⟨⟨⟨rfl, rfl⟩, rfl⟩, rfl⟩

/-- Settles O27: the Accumulator rows run `shiftAcc` and the memory rows `shiftMem`, which is of the modify class; what each
function shifts in and out is its value and carry lemma. Each `(_ :)` takes the class from those lemmas before it meets the
statement's row. -/
theorem shiftsAndRotatesMoveBits : Obligations.ShiftsAndRotatesMoveBits :=
  have ⟨aslA, lsrA, rolA, rorA⟩ := shiftRows_run_shiftAcc
  have ⟨asl, lsr, rol, ror⟩ := shiftRows_run_shiftMem
  ⟨(shiftAcc_registerOnly aslF_value aslF_carry aslA :),
   (shiftAcc_registerOnly lsrF_value lsrF_carry lsrA :),
   (shiftAcc_registerOnly rolF_value rolF_carry rolA :),
   (shiftAcc_registerOnly rorF_value rorF_carry rorA :),
   fun r hr => (shiftMem_modifyClass aslF_value aslF_carry (asl r hr) :),
   fun r hr => (shiftMem_modifyClass lsrF_value lsrF_carry (lsr r hr) :),
   fun r hr => (shiftMem_modifyClass rolF_value rolF_carry (rol r hr) :),
   fun r hr => (shiftMem_modifyClass rorF_value rorF_carry (ror r hr) :)⟩

end Sys2Proof.Machine
end

section
/-! PROOFS. Control transfer (spec/43_control.md R125 to R136): what a branch, a jump, JSR and RTS do in range and where
they stop out of range, and the return from a subroutine. -/

namespace Sys2Proof.Machine

open Sys2Proof.Spec

/-! ### Branches -/

/-- R125, R60: a branch whose offset is out of range stops at the fetch, with PC not advanced. -/
theorem branch_error (f : Flag) (b : Bool) {s : State} (h : s.cfg.memLen ≤ s.PC.toNat) :
    branch f b s = .error (.busRange s.PC) s := by
  rw [branch, getData, bind_error (fetch_error h)]

/-- Settles O28: each row runs `branch` of its flag and value; in range it is `branch_ok`, with the offset read as a signed
byte. -/
theorem branchesMoveByTheSignedOffset : Obligations.BranchesMoveByTheSignedOffset := by
  intro e he
  have hrow : RowRuns (fun _ => branch e.2.1 e.2.2) e.1 := by fin_cases he <;> exact ⟨⟨rfl, rfl⟩, rfl⟩
  refine ⟨hrow.1, fun s => ⟨fun h => ?_, fun h => ?_⟩⟩
  · rw [hrow.exec_eq, finish_ok (branch_ok _ _ s h), signedByte_eq_toInt]
  · rw [hrow.exec_eq, finish_error (branch_error _ _ h)]

/-! ### JMP -/

section

variable {m : Mode} {s t : State}

/-- R134: where the address resolves, PC becomes it. -/
theorem jump_ok {ea : Addr} (h : getAddr m s = .ok ea t) : jump m s = .ok () { t with PC := ea } := by
  rw [jump, bind_ok h, setPC_run]

theorem jump_error {f : Fault} (h : getAddr m s = .error f t) : jump m s = .error f t := bind_error h

end

theorem jmpRows_run_jump : ∀ r ∈ jmpRows, RowRuns jump r ∧ Mode.hasAddr r.m = true := by
  intro r hr
  fin_cases hr <;> exact ⟨⟨⟨rfl, rfl⟩, rfl⟩, rfl⟩

/-- Settles O29: both rows run `jump` in their mode, and the resolver succeeds with a full memory and faults only out of
range. -/
theorem jumpGoesToTheAddress : Obligations.JumpGoesToTheAddress := by
  intro r hr
  obtain ⟨hrun, hm⟩ := jmpRows_run_jump r hr
  have jumps : ∀ s ea t, getAddr r.m s = .ok ea t → exec r.i s = .next { t with PC := ea } := fun s ea t h => by
    rw [hrun.exec_eq, finish_ok (jump_ok h)]
  refine ⟨hrun.1, fun s => ⟨fun hf => ?_, jumps s, fun f t h => ⟨range_getAddr _ hm _ _ _ h, ?_⟩⟩⟩
  · obtain ⟨ea, t, h⟩ := getAddr_full hf hm
    exact ⟨ea, t, h, jumps s ea t h⟩
  · rw [hrun.exec_eq, finish_error (jump_error h)]

/-! ### JSR -/

section

variable {s u : State}

/-- R135: after its two pushes JSR is JMP Absolute. -/
theorem exec_jsr_of_pushes (h : pushWord (s.PC + 2) s = .ok () u) : exec .jsr s = finish (jump .absolute) u := by
  have hrun : jumpSubroutine s = jump .absolute u := by
    rw [jumpSubroutine, get_bind_run, bind_ok h]
    rfl
  rw [exec_eq_finish, opOf, finish, hrun]
  rfl

theorem exec_jsr_of_pushes_error {f : Fault} (h : pushWord (s.PC + 2) s = .error f u) :
    exec .jsr s = .next { u with faultRecord := some f } := by
  rw [exec_eq_finish, opOf, finish_error]
  rw [jumpSubroutine, get_bind_run, bind_error h]

end

/-- Settles O30: a push that faults ends JSR there; after both pushes it jumps, and stops where the fetch of its target
does. -/
theorem jsrPushesThenFetchesTheTarget : Obligations.JsrPushesThenFetchesTheTarget := by
  refine ⟨rfl, fun s t1 t2 t3 t4 ret hret ht1 ht2 ht3 ht4 => ?_⟩
  have ⟨hhi, hlo⟩ : hiByte (s.PC + 2) = BitVec.ofNat 8 (ret / 256) ∧ loByte (s.PC + 2) = BitVec.ofNat 8 (ret % 256) :=
    hret ▸ bytes_of_add s.PC 2
  rw [← hhi] at ht1
  rw [← hlo] at ht2
  have jumps : (cell s.S).toNat < s.cfg.memLen → (cell t1.S).toNat < s.cfg.memLen →
      exec .jsr s = finish (jump .absolute) t2 := by
    subst ht1 ht2
    exact fun h1 h2 => exec_jsr_of_pushes (pushWord_ok h1 h2)
  subst ht1 ht2 ht3 ht4
  have completes := fun h1 h2 h3 h4 => (jumps h1 h2).trans (finish_ok (jump_ok (getAddr_absolute_ok h3 h4)))
  refine ⟨fun hf => completes (inRange hf _) (inRange hf _) (inRange hf _) (inRange hf _), fun h1 => ?_, fun h1 =>
    ⟨fun h2 => ?_, fun h2 => ⟨fun h3 => ?_, fun h3 => ⟨fun h4 => ?_, completes h1 h2 h3⟩⟩⟩⟩
  · exact exec_jsr_of_pushes_error (pushWord_error_first h1)
  · exact exec_jsr_of_pushes_error (pushWord_error_second h1 h2)
  · exact (jumps h1 h2).trans (finish_error (jump_error (fetchWord_error_first h3)))
  · exact (jumps h1 h2).trans (finish_error (jump_error (fetchWord_error_second h3 h4)))

/-! ### RTS -/

section

variable {s u : State}

/-- R136: after its two pops RTS goes to the word popped, as it stands. -/
theorem exec_rts_of_pops {w : Addr} (h : popWord s = .ok w u) : exec .rts s = .next { u with PC := w } := by
  rw [exec_eq_finish, opOf, finish_ok]
  rw [returnSubroutine, bind_ok h, setPC_run]

theorem exec_rts_of_pops_error {f : Fault} (h : popWord s = .error f u) :
    exec .rts s = .next { u with faultRecord := some f } := by
  rw [exec_eq_finish, opOf, finish_error]
  rw [returnSubroutine, bind_error h]

end

/-- Settles O31: RTS is two pops, and stops where they do. -/
theorem rtsPopsThePc : Obligations.RtsPopsThePc := by
  refine ⟨rfl, fun s t u ht hu => ?_⟩
  subst ht hu
  refine ⟨fun h1 h2 => ?_, fun h => ?_, fun h1 h2 => ?_⟩
  · exact exec_rts_of_pops (popWord_ok h1 h2)
  · exact exec_rts_of_pops_error (popWord_error_first h)
  · exact exec_rts_of_pops_error (popWord_error_second h1 h2)

/-! ### JSR and then RTS -/

/-- R49: two pushes leave their bytes in the two cells from S down, and S below them. -/
theorem two_pushes_fill_the_stack (s : State) (hd : s.NoDevices) (v w : Byte) {u : State} (hu : u = afterPush (afterPush s v) w) :
    u.S = BitVec.ofNat 8 (s.S.toNat + 256 - 2) ∧ byteAt u (stackDown s 0) = v ∧ byteAt u (stackDown s 1) = w := by
  have hd1 : (afterPush s v).NoDevices := hd
  have hcell : cell (afterPush s v).S = stackDown s 1 := by
    rw [cell_eq_stackDown, stackDown_afterPush _ _ _ (by decide)]
  subst hu
  refine ⟨?_, ?_, ?_⟩
  · apply BitVec.eq_of_toNat_eq
    simp only [afterPush_S, BitVec.toNat_ofInt, BitVec.toNat_ofNat]
    push_cast
    omega
  · rw [byteAt_afterPush _ hd1, hcell, if_neg (stackDown_ne s (by decide) (by decide) (by decide)),
      byteAt_afterPush _ hd, cell_eq_stackDown, if_pos rfl]
  · rw [byteAt_afterPush _ hd1, hcell, if_pos rfl]

/-- R50: where S has gone down by two, two pops read the two cells back, the last pushed first, and restore S. -/
theorem two_pops_read_the_stack {s t : State} (hd : t.NoDevices) (hS : t.S = BitVec.ofNat 8 (s.S.toNat + 256 - 2)) :
    popByte t = byteAt t (stackDown s 1) ∧ popByte (afterPop t) = byteAt t (stackDown s 0) ∧
      (afterPop (afterPop t)).S = s.S := by
  have hd1 : (afterPop t).NoDevices := hd
  refine ⟨?_, ?_, ?_⟩
  · rw [popByte_noDevices hd, stackUp_eq_stackDown s t 2 1 (by decide) hS (by decide)]
  · rw [popByte_noDevices hd1, stackUp_afterPop, stackUp_eq_stackDown s t 2 2 (by decide) hS (by decide)]
    rfl
  · apply BitVec.eq_of_toNat_eq
    simp only [afterPop_S, poppedS, hS, BitVec.toNat_ofNat]
    omega

/-- Settles O54: JSR leaves the two bytes of K+3 in the two cells and S below them, and the two pops of RTS put them
together again. -/
theorem jsrThenRtsReturnsToTheNextInstruction : Obligations.JsrThenRtsReturnsToTheNextInstruction := by
  intro s t t' hf hd hexec hcfg hS hbytes
  obtain ⟨u, hu⟩ : ∃ u, u = afterPush (afterPush s (hiByte (s.PC + 2))) (loByte (s.PC + 2)) := ⟨_, rfl⟩
  obtain ⟨huS, hhi, hlo⟩ := two_pushes_fill_the_stack s hd _ _ hu
  obtain rfl := Host.Outcome.next.inj (hexec.symm.trans (finish_ok (jumpSubroutine_full hf hu)))
  have hcfg' : t'.cfg = s.cfg := hcfg.trans (by rw [hu]; rfl)
  have hd' : t'.NoDevices := by rw [State.NoDevices, hcfg', hd]
  obtain ⟨hpop, hpop', hSback⟩ := two_pops_read_the_stack hd' (hS.trans huS)
  have hhi' : byteAt t' (stackDown s 0) = hiByte (s.PC + 2) := (hbytes _ (.head _)).trans hhi
  have hlo' : byteAt t' (stackDown s 1) = loByte (s.PC + 2) := (hbytes _ (.tail _ (.head _))).trans hlo
  refine ⟨_, exec_rts_of_pops (popWord_full (fullMemory_of_cfg hf hcfg')), ?_, hSback⟩
  calc word (popByte (afterPop t')) (popByte t')
      = word (hiByte (s.PC + 2)) (loByte (s.PC + 2)) := by rw [hpop, hpop', hhi', hlo']
    _ = s.PC + 2 := word_hiByte_loByte _
    _ = BitVec.ofNat 16 (s.PC.toNat + 2) := addr_add_ofNat s.PC 2

end Sys2Proof.Machine
end

section
/-! PROOFS. Push, pull and BIT (spec/44_stack_bit.md R137 to R141): what the four stack instructions do in range and where
they stop out of range, the class of BIT, and a pull after a push. -/

namespace Sys2Proof.Machine

open Sys2Proof.Spec

/-! ### PHA, PLA, PHP and PLP -/

section

variable {s : State}

/-- R49: an instruction that is one push. -/
theorem finish_push_ok (v : Byte) (h : (cell s.S).toNat < s.cfg.memLen) : finish (push v) s = .next (afterPush s v) :=
  finish_ok (push_ok h)

theorem finish_push_error (v : Byte) (h : s.cfg.memLen ≤ (cell s.S).toNat) :
    finish (push v) s = .next { s with faultRecord := some (.busRange (cell s.S)) } := finish_error (push_error h)

/-- R50: an instruction that is one pop, and then registers and flags from the popped byte. -/
theorem finish_pop_update_ok (g : Byte → State → State) (h : (cell (poppedS s)).toNat < s.cfg.memLen) :
    finish (pop >>= fun v => Op.update (g v)) s = .next (g (popByte s) (afterPop s)) :=
  finish_ok (by rw [bind_ok (pop_ok h), update_run])

theorem finish_pop_update_error (g : Byte → State → State) (h : s.cfg.memLen ≤ (cell (poppedS s)).toNat) :
    finish (pop >>= fun v => Op.update (g v)) s =
      .next { s with S := poppedS s, faultRecord := some (.busRange (cell (poppedS s))) } :=
  finish_error (bind_error (pop_error h))

end

theorem exec_pha_eq (s : State) : exec .pha s = finish (push s.A) s := rfl

theorem exec_php_eq (s : State) : exec .php s = finish (push (pushByte s.P)) s := by
  rw [← pushedP_eq]
  rfl

theorem exec_pla_eq (s : State) :
    exec .pla s = finish (pop >>= fun v => Op.update fun t => { t with A := v, P := znP v t.P }) s := by
  simp only [← setZN_eq_znP]
  rfl

theorem exec_plp_eq (s : State) :
    exec .plp s = finish (pop >>= fun v => Op.update fun t => { t with P := restoreByte v }) s := by
  simp only [← restoredP_eq]
  rfl

/-- Settles O32: PHA is one push of A; PLA is one pop, and then A, Z and N from the popped byte. -/
theorem phaAndPla : Obligations.PhaAndPla := by
  refine ⟨rfl, rfl, fun s => ?_⟩
  rw [exec_pha_eq, exec_pla_eq]
  exact ⟨finish_push_ok _, finish_push_error _, finish_pop_update_ok _, finish_pop_update_error _⟩

/-- Settles O33: PHP is one push of P with D and B set; PLP is one pop, and then P with D and B cleared. -/
theorem phpAndPlp : Obligations.PhpAndPlp := by
  refine ⟨rfl, rfl, fun s => ?_⟩
  rw [exec_php_eq, exec_plp_eq]
  exact ⟨finish_push_ok _, finish_push_error _, finish_pop_update_ok _, finish_pop_update_error _⟩

/-! ### A pull after a push -/

/-- R49, R50: where S and the pushed cell are as a push of `v` left them, a pop returns `v` and restores S. -/
theorem pop_after_push {s t' : State} {v : Byte} (hd : s.NoDevices) (hcfg : t'.cfg = s.cfg)
    (hS : t'.S = (afterPush s v).S) (hbyte : byteAt t' (stackDown s 0) = byteAt (afterPush s v) (stackDown s 0)) :
    popByte t' = v ∧ poppedS t' = s.S := by
  have hd' : t'.NoDevices := by rw [State.NoDevices, hcfg, hd]
  have hback : poppedS t' = s.S := by
    rw [poppedS, hS, afterPush_S, ← byte_sub_one, ← byte_add_one, BitVec.sub_add_cancel]
  refine ⟨?_, hback⟩
  rw [popByte, busByte_noDevices hd', hback, cell_eq_stackDown, hbyte, byteAt_afterPush s hd, cell_eq_stackDown, if_pos rfl]

/-- Settles O56: the push leaves `afterPush`, and the pop of the pull returns its byte (`pop_after_push`); of the
pushed P, the pull clears the two bits that the push set (`restoreByte_pushByte`). -/
theorem pullsRestoreWhatPushesSaved : Obligations.PullsRestoreWhatPushesSaved := by
  intro s t t' hf hd hcfg hS hbyte
  obtain ⟨-, -, hA⟩ := phaAndPla
  obtain ⟨-, -, hP⟩ := phpAndPlp
  refine ⟨fun hexec => ?_, fun hexec => ?_⟩
  · obtain ⟨hpush, -⟩ := hA s
    obtain ⟨-, -, hpull, -⟩ := hA t'
    obtain rfl := Host.Outcome.next.inj (hexec.symm.trans (hpush (inRange hf _)))
    obtain ⟨hpop, hback⟩ := pop_after_push hd hcfg hS hbyte
    exact ⟨_, hpull (inRange (fullMemory_of_cfg hf hcfg) _), hpop, hback⟩
  · obtain ⟨hpush, -⟩ := hP s
    obtain ⟨-, -, hpull, -⟩ := hP t'
    obtain rfl := Host.Outcome.next.inj (hexec.symm.trans (hpush (inRange hf _)))
    obtain ⟨hpop, hback⟩ := pop_after_push hd hcfg hS hbyte
    exact ⟨_, hpull (inRange (fullMemory_of_cfg hf hcfg) _), (congrArg restoreByte hpop).trans (restoreByte_pushByte s.P),
      hback⟩

/-! ### BIT -/

/-- R141: BIT writes N, V and Z, and no other flag. -/
theorem bitP_eq_packP (a m p : Byte) :
    bitP a m p = packP fun f =>
      if f = .Z then decide ((a &&& m).toNat = 0)
      else if f = .V then m.getLsbD 6
      else if f = .N then m.getLsbD 7
      else getFlag f p :=
  eq_packP fun f => by rw [bitP, getFlag_putFlag, getFlag_putFlag, getFlag_putFlag, beq_zero_byte]

theorem bitRows_run_bitTest : ∀ r ∈ bitRows, RowRuns bitTest r ∧ Mode.hasData r.m = true := by
  intro r hr
  fin_cases hr <;> exact ⟨⟨⟨rfl, rfl⟩, rfl⟩, rfl⟩

/-- Settles O34: both rows run `bitTest`, which is of the read class, and the P it leaves (`bitP_eq_packP`) is the
statement's flag by flag. -/
theorem bitTestsTheOperand : Obligations.BitTestsTheOperand := by
  intro r hr
  obtain ⟨hrun, hm⟩ := bitRows_run_bitTest r hr
  refine readClass_of r (fun v => Op.update fun t => t.mapP (bitP t.A v)) _ hrun.1 hm hrun.exec_eq fun v t => ?_
  rw [update_run, State.mapP, bitP_eq_packP]
  congr 3
  funext f
  cases f <;> rfl

end Sys2Proof.Machine
end

section
/-! PROOFS. Arithmetic (spec/45_arithmetic.md R142 to R147): ADC and SBC are one operation, `arith`, with a result of their
own, and are of the read class; the default decimal functions on valid digits; and the decimal parameters, which a result
looks at only where D is 1. -/

namespace Sys2Proof.Machine

open Sys2Proof.Spec

/-! ### ADC and SBC -/

/-- What ADC and SBC share: read the operand, then write A and the flags of the result `out`. -/
def arith (out : State → Byte → AluOut) (m : Mode) : Op Unit :=
  getData m >>= fun v => Op.update fun s => (s.setReg .A (out s v).r).mapP (aluP (out s v))

/-- ADC's result at a state, with its A, C, D and decimal parameter. -/
def adcAt (s : State) (v : Byte) : AluOut := adcOut s.cfg.bcdAdc (s.flag .D) s.A v (s.flag .C)

/-- SBC's result at a state. -/
def sbcAt (s : State) (v : Byte) : AluOut := sbcOut s.cfg.bcdSbc (s.flag .D) s.A v (s.flag .C)

theorem addCarry_eq_arith (m : Mode) : addCarry m = arith adcAt m := rfl

theorem subBorrow_eq_arith (m : Mode) : subBorrow m = arith sbcAt m := rfl

/-- R142, R144: ADC's result and carry are the parameter's when D is 1 and the binary sum's when D is 0; its overflow is
that of the binary sum in both modes. -/
theorem adcOut_eq (t : List BcdEntry) (d : Bool) (a m : Byte) (c : Bool) {rc : Byte × Bool}
    (hrc : rc = if d then bcdAdc t a m c else binarySum a m c) :
    adcOut t d a m c = ⟨rc.1, rc.2, signedAddOverflow a m c⟩ := by
  rw [hrc, adcOut, addOverflow_add]
  cases d <;> rfl

/-- R145, R144: the same of SBC, whose binary result adds `~M`. -/
theorem sbcOut_eq (t : List BcdEntry) (d : Bool) (a m : Byte) (c : Bool) {rc : Byte × Bool}
    (hrc : rc = if d then bcdSbc t a m c else binaryDifference a m c) :
    sbcOut t d a m c = ⟨rc.1, rc.2, signedSubOverflow a m c⟩ := by
  rw [hrc, sbcOut, addOverflow_sub, add_not_value, add_not_carry]
  cases d <;> rfl

theorem arith_readClass {out : State → Byte → AluOut} {rc : Byte → State → Byte × Bool} {o : Byte → State → Bool}
    {r : Row} (hout : ∀ v t, out t v = ⟨(rc v t).1, (rc v t).2, o v t⟩)
    (h : RowRuns (arith out) r ∧ Mode.hasData r.m = true) : ReadClass r fun v t => afterArith t (rc v t) (o v t) := by
  obtain ⟨hrun, hm⟩ := h
  refine readClass_of r (fun v => Op.update fun t => (t.setReg .A (out t v).r).mapP (aluP (out t v))) _ hrun.1 hm
    hrun.exec_eq fun v t => ?_
  rw [update_run, hout, funext (aluP_eq_cvznP _)]
  rfl

theorem adcRows_run_arith : ∀ r ∈ adcRows, RowRuns (arith adcAt) r ∧ Mode.hasData r.m = true := by
  intro r hr
  fin_cases hr <;> exact ⟨⟨⟨rfl, rfl⟩, addCarry_eq_arith _⟩, rfl⟩

theorem sbcRows_run_arith : ∀ r ∈ sbcRows, RowRuns (arith sbcAt) r ∧ Mode.hasData r.m = true := by
  intro r hr
  fin_cases hr <;> exact ⟨⟨⟨rfl, rfl⟩, subBorrow_eq_arith _⟩, rfl⟩

/-- Settles O35: every row of ADC runs `arith` with ADC's result, which is of the read class, and `adcOut_eq` says what
that result is. -/
theorem adcAddsWithCarry : Obligations.AdcAddsWithCarry := fun r hr =>
  arith_readClass (fun v t => adcOut_eq t.cfg.bcdAdc (getFlag .D t.P) t.A v (getFlag .C t.P) rfl) (adcRows_run_arith r hr)

/-- Settles O36: every row of SBC runs `arith` with SBC's result, which is of the read class, and `sbcOut_eq` says what
that result is. -/
theorem sbcSubtractsWithBorrow : Obligations.SbcSubtractsWithBorrow := fun r hr =>
  arith_readClass (fun v t => sbcOut_eq t.cfg.bcdSbc (getFlag .D t.P) t.A v (getFlag .C t.P) rfl) (sbcRows_run_arith r hr)

/-! ### The default decimal functions on valid digits -/

theorem bcd_ofNat {h l : Nat} (hh : h ≤ 9) (hl : l ≤ 9) :
    ValidBcd (BitVec.ofNat 8 (h * 16 + l)) ∧ bcdValue (BitVec.ofNat 8 (h * 16 + l)) = h * 10 + l := by
  obtain ⟨high, low⟩ := nibbles h l (by omega) (by omega)
  rw [ValidBcd, bcdValue, BitVec.toNat_ofNat, high, low]
  exact ⟨⟨hh, hl⟩, rfl⟩

theorem bcd_ofInt {h l : Int} (h0 : 0 ≤ h) (l0 : 0 ≤ l) (hh : h ≤ 9) (hl : l ≤ 9) :
    ValidBcd (BitVec.ofInt 8 (h * 16 + l)) ∧ (bcdValue (BitVec.ofInt 8 (h * 16 + l)) : Int) = h * 10 + l := by
  obtain ⟨high, low⟩ := nibbles_ofInt h l h0 l0 (by omega) (by omega)
  rw [ValidBcd, bcdValue]
  omega

/-- R143: on valid digits the default BCD_ADC makes the digits of `decimal_add_digits`. -/
theorem bcdAdcDefault_exact {a m : Byte} (c : Bool) (ha : ValidBcd a) (hm : ValidBcd m) :
    ValidBcd (bcdAdcDefault a m c).1 ∧
      bcdValue (bcdAdcDefault a m c).1 = (bcdValue a + bcdValue m + c.toNat) % 100 ∧
      ((bcdAdcDefault a m c).2 = true ↔ 100 ≤ bcdValue a + bcdValue m + c.toNat) := by
  obtain ⟨hlow, hhigh, hsum, hcarry⟩ := decimal_add_digits ha.1 ha.2 hm.1 hm.2 (Bool.toNat_le c) _ _ rfl rfl
  obtain ⟨hvalid, hvalue⟩ := bcd_ofNat hhigh hlow
  exact ⟨hvalid, hvalue.trans hsum, decide_eq_true_iff.trans hcarry⟩

/-- R146: on valid digits the default BCD_SBC makes the digits of `decimal_sub_digits`. -/
theorem bcdSbcDefault_exact {a m : Byte} (c : Bool) (ha : ValidBcd a) (hm : ValidBcd m) :
    ValidBcd (bcdSbcDefault a m c).1 ∧
      (bcdValue (bcdSbcDefault a m c).1 : Int) = ((bcdValue a : Int) - bcdValue m - (1 - (c.toNat : Int))) % 100 ∧
      ((bcdSbcDefault a m c).2 = true ↔ 0 ≤ (bcdValue a : Int) - bcdValue m - (1 - (c.toNat : Int))) := by
  obtain ⟨hah, hal⟩ := ha
  obtain ⟨hmh, hml⟩ := hm
  have hc := Bool.toNat_le c
  obtain ⟨hlow0, hhigh0, hlow, hhigh, hdiff, hcarry⟩ :=
    decimal_sub_digits (ah := (a.toNat / 16 : Nat)) (al := (a.toNat % 16 : Nat)) (mh := (m.toNat / 16 : Nat))
      (ml := (m.toNat % 16 : Nat)) (n := (c.toNat : Int)) (by omega) (by omega) (by omega) (by omega) (by omega)
      (by omega) _ _ rfl rfl
  obtain ⟨hvalid, hvalue⟩ := bcd_ofInt hhigh0 hlow0 hhigh hlow
  exact ⟨hvalid, hvalue.trans hdiff, decide_eq_true_iff.trans hcarry⟩

/-- Settles O37: with no entry replaced the parameters are the defaults, which are exact on valid digits. -/
theorem defaultDecimalIsExactOnValidDigits : Obligations.DefaultDecimalIsExactOnValidDigits :=
  fun _ _ c ha hm => ⟨bcdAdcDefault_exact c ha hm, bcdSbcDefault_exact c ha hm⟩

/-! ### The decimal parameters where D is 0 -/

/-- The decimal parameters hide behind every register, P, memory and the record. -/
theorem clear_withBcd (ta ts : List BcdEntry) : Clear (withBcd ta ts) fun _ => true where
  pc := fun _ => rfl
  reg := fun _ r => by cases r <;> rfl
  len := fun _ => rfl
  io := fun _ => rfl
  bus := fun _ => rfl
  mem := fun _ => rfl
  launch := fun _ => rfl
  setPC := fun _ _ => rfl
  setReg := fun _ r _ => by cases r <;> rfl
  event := fun _ _ _ => rfl
  get := fun _ _ _ => rfl
  put := fun _ _ _ _ => rfl
  push := fun _ _ => rfl
  pull := fun _ _ _ => rfl

theorem Fetched.P {n : Nat} {s t : State} (h : Fetched n s t) : t.P = s.P := by
  obtain ⟨_, rfl, -⟩ := h
  rfl

section

variable (ta ts : List BcdEntry) {s : State}

/-- R147: with D = 0 ADC's result is the binary one whatever the decimal parameters. -/
theorem adcAt_withBcd (hD : getFlag .D s.P = false) (v : Byte) : adcAt (withBcd ta ts s) v = adcAt s v := by
  simp [adcAt, adcOut, withBcd, hD]

/-- R147: and so is SBC's. -/
theorem sbcAt_withBcd (hD : getFlag .D s.P = false) (v : Byte) : sbcAt (withBcd ta ts s) v = sbcAt s v := by
  simp [sbcAt, sbcOut, withBcd, hD]

/-- From D = 0 the operand read leaves D = 0, and there the result does not look at the decimal parameters. -/
theorem arith_withBcd {out : State → Byte → AluOut}
    (hout : ∀ {t : State}, getFlag .D t.P = false → ∀ v, out (withBcd ta ts t) v = out t v) (m : Mode)
    (hD : getFlag .D s.P = false) : arith out m (withBcd ta ts s) = mapResult (withBcd ta ts) (arith out m s) := by
  rw [arith, bind_run, bind_run, blind_getData (clear_withBcd ta ts).toHidden m s]
  cases hdata : getData m s with
  | ok v t =>
    have hDt : getFlag .D t.P = false := by rw [(fetches_getData m s v t hdata).P, hD]
    simp only [mapResult, update_run, hout hDt]
    rfl
  | error f t => rfl

/-- R147: with D = 0 an instruction's operation does from other decimal parameters what it does from these. -/
theorem opOf_withBcd (i : Instr) (hD : getFlag .D s.P = false) :
    opOf i (withBcd ta ts s) = mapResult (withBcd ta ts) (opOf i s) := by
  by_cases harith : i.mnemonic ∈ [.ADC, .SBC]
  · cases i with
    | adcImm | adcZp | adcZpX | adcAbs | adcAbsX | adcAbsY | adcIndX | adcIndY =>
      exact arith_withBcd ta ts (adcAt_withBcd ta ts) _ hD
    | sbcImm | sbcZp | sbcZpX | sbcAbs | sbcAbsX | sbcAbsY | sbcIndX | sbcIndY =>
      exact arith_withBcd ta ts (sbcAt_withBcd ta ts) _ hD
    | _ => exact absurd harith (by decide)
  · exact opOf_blind (clear_withBcd ta ts) (fun _ _ => rfl) i (fun _ => rfl) (fun _ => rfl) (fun _ => rfl)
      (fun h => absurd h harith) s

end

/-- Settles O38: with D = 0 the instruction's operation does the same under other decimal parameters (`opOf_withBcd`), and
so does recording its fault. -/
theorem binaryModeIgnoresTheDecimalParameters : Obligations.BinaryModeIgnoresTheDecimalParameters := by
  intro i s t ta ts hD hexec
  rw [exec_eq_finish] at hexec ⊢
  exact finish_hidden (fun _ _ => rfl) (opOf_withBcd ta ts i hD) hexec

end Sys2Proof.Machine
end

section
/-! PROOFS. System instructions (spec/46_system.md R150 to R152): BRK's entry through the vector and RTI's return, in range
and where they stop out of range, RTI after BRK, and NOP. -/

namespace Sys2Proof.Machine

open Sys2Proof.Spec

/-! ### BRK -/

section

variable {s u t v : State} {f : Fault}

/-- R150: after its three pushes BRK is a jump to the word at the vector. -/
theorem trapEntry_of_pushes (hw : pushWord (s.PC + 1) s = .ok () u) (hp : push (pushByte u.P) u = .ok () t) :
    trapEntry s = (readWordAt 0xFFFE 0xFFFF >>= setPC) t := by
  rw [← pushedP_eq] at hp
  rw [trapEntry, get_bind_run, bind_ok hw, get_bind_run, bind_ok hp]

theorem exec_brk_of_vector {w : Addr} (hw : pushWord (s.PC + 1) s = .ok () u) (hp : push (pushByte u.P) u = .ok () t)
    (hv : readWordAt 0xFFFE 0xFFFF t = .ok w v) : exec .brk s = .next { v with PC := w } := by
  rw [exec_eq_finish, opOf, finish_ok]
  rw [trapEntry_of_pushes hw hp, bind_ok hv, setPC_run]

theorem exec_brk_of_vector_error (hw : pushWord (s.PC + 1) s = .ok () u) (hp : push (pushByte u.P) u = .ok () t)
    (hv : readWordAt 0xFFFE 0xFFFF t = .error f v) : exec .brk s = .next { v with faultRecord := some f } := by
  rw [exec_eq_finish, opOf, finish_error]
  rw [trapEntry_of_pushes hw hp, bind_error hv]

theorem exec_brk_of_push_error (hw : pushWord (s.PC + 1) s = .ok () u) (hp : push (pushByte u.P) u = .error f t) :
    exec .brk s = .next { t with faultRecord := some f } := by
  rw [← pushedP_eq] at hp
  rw [exec_eq_finish, opOf, finish_error]
  rw [trapEntry, get_bind_run, bind_ok hw, get_bind_run, bind_error hp]

theorem exec_brk_of_pushWord_error (hw : pushWord (s.PC + 1) s = .error f u) :
    exec .brk s = .next { u with faultRecord := some f } := by
  rw [exec_eq_finish, opOf, finish_error]
  rw [trapEntry, get_bind_run, bind_error hw]

end

/-- Settles O39: a push that faults ends BRK there; after the three pushes it reads the vector, and stops where that read
does. -/
theorem brkEntersThroughTheVector : Obligations.BrkEntersThroughTheVector := by
  refine ⟨rfl, fun s t1 t2 t3 t4 ret hret ht1 ht2 ht3 ht4 => ?_⟩
  have ⟨hhi, hlo⟩ : hiByte (s.PC + 1) = BitVec.ofNat 8 (ret / 256) ∧ loByte (s.PC + 1) = BitVec.ofNat 8 (ret % 256) :=
    hret ▸ bytes_of_add s.PC 1
  rw [← hhi] at ht1
  rw [← hlo] at ht2
  have hP : pushByte s.P = pushByte t2.P := by rw [ht2, ht1, afterPush_P, afterPush_P]
  rw [hP] at ht3
  obtain ⟨hcfg2, hcfg3⟩ : t2.cfg = s.cfg ∧ t3.cfg = s.cfg := ⟨by rw [ht2, ht1]; rfl, by rw [ht3, ht2, ht1]; rfl⟩
  have hw : (cell s.S).toNat < s.cfg.memLen → (cell t1.S).toNat < s.cfg.memLen →
      pushWord (s.PC + 1) s = .ok () t2 := by
    subst ht1 ht2
    exact pushWord_ok
  have hp : (cell t2.S).toNat < s.cfg.memLen → push (pushByte t2.P) t2 = .ok () t3 := by
    rw [← hcfg2, ht3]
    exact push_ok
  refine ⟨fun hf => ?_, fun h1 => ?_, fun h1 =>
    ⟨fun h2 => ?_, fun h2 => ⟨fun h3 => ?_, fun h3 => ⟨fun h4 => ?_, fun h4 => ?_⟩⟩⟩⟩
  · rw [ht4]
    exact exec_brk_of_vector (hw (inRange hf _) (inRange hf _)) (hp (inRange hf _))
      (readWordAt_full (fullMemory_of_cfg hf hcfg3) _ _)
  · exact exec_brk_of_pushWord_error (pushWord_error_first h1)
  · subst ht1
    exact exec_brk_of_pushWord_error (pushWord_error_second h1 h2)
  · exact exec_brk_of_push_error (hw h1 h2) (push_error (hcfg2 ▸ h3))
  · exact exec_brk_of_vector_error (hw h1 h2) (hp h3) (readWordAt_error_first (hcfg3 ▸ h4))
  · rw [ht4]
    exact exec_brk_of_vector_error (hw h1 h2) (hp h3)
      (readWordAt_error_second (by rw [hcfg3, h4]; decide) (by rw [hcfg3, h4]; decide))

/-! ### RTI -/

section

variable {s u : State}

/-- R151: after the pop of P, RTI is RTS. -/
theorem exec_rti_of_pop {v : Byte} (h : pop s = .ok v u) : exec .rti s = exec .rts { u with P := restoreByte v } := by
  have hrun : trapReturn s = returnSubroutine { u with P := restoreByte v } := by
    rw [trapReturn, bind_ok h, update_bind_run, restoredP_eq]
    rfl
  rw [exec_eq_finish, exec_eq_finish, opOf, opOf, finish, finish, hrun]

theorem exec_rti_of_pop_error {f : Fault} (h : pop s = .error f u) :
    exec .rti s = .next { u with faultRecord := some f } := by
  rw [exec_eq_finish, opOf, finish_error]
  rw [trapReturn, bind_error h]

end

/-- Settles O40: RTI stops at the pop of P or goes on as RTS with P restored, whose cases are O31's. -/
theorem rtiRestoresStatusAndPc : Obligations.RtiRestoresStatusAndPc := by
  refine ⟨rfl, fun s t u w ht hu hw => ?_⟩
  subst ht hu hw
  obtain ⟨-, hrts⟩ := rtsPopsThePc
  obtain ⟨returns, stopsFirst, stopsSecond⟩ := hrts { afterPop s with P := restoreByte (popByte s) } _ _ rfl rfl
  refine ⟨fun h1 h2 h3 => ?_, fun h1 => exec_rti_of_pop_error (pop_error h1), fun h1 h2 => ?_, fun h1 h2 h3 => ?_⟩
  · exact (exec_rti_of_pop (pop_ok h1)).trans (returns h2 h3)
  · exact (exec_rti_of_pop (pop_ok h1)).trans (stopsFirst h2)
  · exact (exec_rti_of_pop (pop_ok h1)).trans (stopsSecond h2 h3)

/-! ### BRK and then RTI -/

/-- R50, R136: where S has gone down by two and the two cells hold a word, RTS goes to that word and restores S. -/
theorem rts_to_the_word {s r : State} {w : Addr} (hf : r.FullMemory) (hd : r.NoDevices)
    (hS : r.S = BitVec.ofNat 8 (s.S.toNat + 256 - 2)) (hhi : byteAt r (stackDown s 0) = hiByte w)
    (hlo : byteAt r (stackDown s 1) = loByte w) :
    exec .rts r = .next { afterPop (afterPop r) with PC := w } ∧ (afterPop (afterPop r)).S = s.S := by
  obtain ⟨hfirst, hsecond, hback⟩ := two_pops_read_the_stack hd hS
  refine ⟨?_, hback⟩
  rw [exec_rts_of_pops (popWord_full hf), hfirst, hsecond, hhi, hlo, word_hiByte_loByte]

/-- R49, R50, R151: where S and the three pushed cells are as the pushes of a word and of `p` left them, RTI goes to that
word and restores S, and P from `p`. -/
theorem rti_after_pushes {s t' u : State} {w : Addr} {p : Byte} (hf : s.FullMemory) (hd : s.NoDevices)
    (hu : u = afterPush (afterPush s (hiByte w)) (loByte w)) (hcfg : t'.cfg = s.cfg) (hS : t'.S = (afterPush u p).S)
    (hbytes : ∀ a ∈ [stackDown s 0, stackDown s 1, stackDown s 2], byteAt t' a = byteAt (afterPush u p) a) :
    ∃ v, exec .rti t' = .next v ∧ v.PC = w ∧ v.S = s.S ∧ v.P = restoreByte p := by
  obtain ⟨huS, hhi, hlo⟩ := two_pushes_fill_the_stack s hd _ _ hu
  have hucfg : u.cfg = s.cfg := by rw [hu]; rfl
  have hud : u.NoDevices := by rw [State.NoDevices, hucfg, hd]
  have hcell : stackDown u 0 = stackDown s 2 := by
    rw [hu, stackDown_afterPush _ _ _ (by decide), stackDown_afterPush _ _ _ (by decide)]
  have hkept : ∀ {a}, a ≠ stackDown s 2 → a ∈ [stackDown s 0, stackDown s 1, stackDown s 2] →
      byteAt t' a = byteAt u a :=
    fun hne ha => by rw [hbytes _ ha, byteAt_afterPush u hud, cell_eq_stackDown, hcell, if_neg hne]
  have hhi' := (hkept (stackDown_ne s (by decide) (by decide) (by decide)) (.head _)).trans hhi
  have hlo' := (hkept (stackDown_ne s (by decide) (by decide) (by decide)) (.tail _ (.head _))).trans hlo
  obtain ⟨hpop, hback⟩ := pop_after_push hud (hcfg.trans hucfg.symm) hS (hcell ▸ hbytes _ (by simp))
  have hft : t'.FullMemory := fullMemory_of_cfg hf hcfg
  have hdt : t'.NoDevices := by rw [State.NoDevices, hcfg, hd]
  obtain ⟨hrts, hSback⟩ := rts_to_the_word (r := { afterPop t' with P := restoreByte p }) hft hdt
    (hback.trans huS) hhi' hlo'
  have hrti := exec_rti_of_pop (pop_ok (inRange hft (cell (poppedS t'))))
  rw [hpop] at hrti
  exact ⟨_, hrti.trans hrts, rfl, hSback, rfl⟩

/-- Settles O55: BRK leaves what its three pushes leave in S and the stack, and RTI gives K+2 and S back
(`rti_after_pushes`); of the pushed P it clears the two bits that the push set (`restoreByte_pushByte`). -/
theorem brkThenRtiReturnsAndClearsDecimal : Obligations.BrkThenRtiReturnsAndClearsDecimal := by
  intro s t t' hf hd hexec hcfg hS hbytes
  obtain ⟨u, hu⟩ : ∃ u, u = afterPush (afterPush s (hiByte (s.PC + 1))) (loByte (s.PC + 1)) := ⟨_, rfl⟩
  obtain ⟨v, hv⟩ : ∃ v, v = afterPush u (pushedP s.P) := ⟨_, rfl⟩
  obtain rfl := Host.Outcome.next.inj (hexec.symm.trans (finish_ok (trapEntry_full hf (hu ▸ hv))))
  have hvcfg : v.cfg = s.cfg := by rw [hv, hu]; rfl
  rw [← restoreByte_pushByte, ← pushedP_eq, ← addr_add_one]
  exact rti_after_pushes hf hd hu (hcfg.trans hvcfg) (hv ▸ hS) (hv ▸ hbytes)

/-! ### NOP -/

/-- Settles O41: NOP runs `noOperation`, which leaves the state. -/
theorem nopChangesNothing : Obligations.NopChangesNothing :=
  registerOnly_of (o := noOperation) ⟨rfl, rfl⟩ (exec_eq_finish .nop) fun _ => rfl

end Sys2Proof.Machine
end

section
/-! PROOFS. Exceptions (spec/60_exceptions.md R162, R163, R169): every instruction's operation completes in the full memory,
and in a smaller one stops at its first Bus operation out of range (`Narrows` of Laws/Narrow.lean), family by family; no
operation touches the fault record. -/

namespace Sys2Proof.Machine

open Sys2Proof.Spec

/-! ### Updates that do not look at MEM_LEN -/

@[simp] theorem widen_getReg (s : State) (r : Reg) : s.widen.getReg r = s.getReg r := by cases r <;> rfl

/-- An update of flags. -/
theorem narrows_updateP {g : State → Byte → Byte} (hg : ∀ s, g (State.widen s) = g s) :
    Narrows (Op.update fun s => s.mapP (g s)) :=
  narrows_update_widen _ (fun s => by rw [hg]; rfl) (fun _ => rfl) (fun _ => rfl)

/-- An update of a register and of flags. -/
theorem narrows_updateRegP {r : Reg} {v : State → Byte} {g : State → Byte → Byte} (hv : ∀ s, v (State.widen s) = v s)
    (hg : ∀ s, g (State.widen s) = g s) : Narrows (Op.update fun s => (s.setReg r (v s)).mapP (g s)) :=
  narrows_update_widen _ (fun s => by rw [hv, hg]; cases r <;> rfl) (fun s => setReg_cfg s r _) (fun s => setReg_bus s r _)

/-! ### The shared operations of the families -/

section

variable {m : Mode}

theorem narrows_load (r : Reg) (hm : Mode.hasData m = true) : Narrows (load r m) :=
  (narrows_getData m hm).bind fun _ => narrows_updateRegP (fun _ => rfl) (fun _ => rfl)

theorem narrows_compare (r : Reg) (hm : Mode.hasData m = true) : Narrows (compare r m) :=
  (narrows_getData m hm).bind fun _ => narrows_updateP fun s => by rw [widen_getReg]

theorem narrows_logical (f : Byte → Byte → Byte) (hm : Mode.hasData m = true) : Narrows (logical f m) :=
  (narrows_getData m hm).bind fun _ => narrows_updateRegP (fun _ => rfl) (fun _ => rfl)

theorem narrows_bitTest (hm : Mode.hasData m = true) : Narrows (bitTest m) :=
  (narrows_getData m hm).bind fun _ => narrows_updateP fun _ => rfl

/-- ADC and SBC, whose results look at the decimal parameters but not at MEM_LEN. -/
theorem narrows_arith {out : State → Byte → AluOut} (hout : ∀ s, out (State.widen s) = out s)
    (hm : Mode.hasData m = true) : Narrows (arith out m) :=
  (narrows_getData m hm).bind fun _ => narrows_updateRegP (fun s => by rw [hout]) (fun s => by rw [hout])

theorem narrows_store (r : Reg) (hm : Mode.hasAddr m = true) : Narrows (store r m) :=
  (narrows_getAddr m hm).bind fun _ => (narrows_get _ fun s => widen_getReg s r).bind fun _ => narrows_memWrite _ _

theorem narrows_modifyMem (f : Byte → Byte) (hm : Mode.hasAddr m = true) : Narrows (modifyMem m f) :=
  (narrows_getAddr m hm).bind fun _ => (narrows_memRead _).bind fun _ => (narrows_memWrite _ _).bind fun _ =>
    narrows_updateP fun _ => rfl

theorem narrows_shiftMem (f : Byte → Bool → Byte × Bool) (hm : Mode.hasAddr m = true) : Narrows (shiftMem m f) :=
  (narrows_getAddr m hm).bind fun _ => (narrows_memRead _).bind fun _ => (narrows_get _ fun _ => rfl).bind fun _ =>
    (narrows_memWrite _ _).bind fun _ => narrows_updateP fun _ => rfl

theorem narrows_jump (hm : Mode.hasAddr m = true) : Narrows (jump m) :=
  (narrows_getAddr m hm).bind fun _ => narrows_setPC _

end

theorem narrows_transfer (a b : Reg) : Narrows (transfer a b) :=
  narrows_updateRegP (fun s => widen_getReg s a) (fun s => by rw [widen_getReg])

theorem narrows_transferToS : Narrows transferToS := narrows_update _ (fun _ _ => rfl) (fun _ => rfl)

theorem narrows_writeFlag (f : Flag) (b : Bool) : Narrows (writeFlag f b) := narrows_updateP fun _ => rfl

theorem narrows_modifyReg (r : Reg) (f : Byte → Byte) : Narrows (modifyReg r f) :=
  narrows_updateRegP (fun s => by rw [widen_getReg]) (fun s => by rw [widen_getReg])

theorem narrows_shiftAcc (f : Byte → Bool → Byte × Bool) : Narrows (shiftAcc f) :=
  narrows_updateRegP (fun _ => rfl) (fun _ => rfl)

/-- R125: taken or not, a branch moves PC without looking at the parameters. -/
theorem narrows_branch (f : Flag) (b : Bool) : Narrows (branch f b) :=
  (narrows_getData .relative rfl).bind fun _ => narrows_update _
    (fun s _ => by by_cases h : getFlag f s.P = b <;> simp [h])
    (fun _ => by split <;> rfl)

theorem narrows_jumpSubroutine : Narrows jumpSubroutine :=
  (narrows_get _ fun _ => rfl).bind fun _ => (narrows_pushWord _).bind fun _ => narrows_jump rfl

theorem narrows_returnSubroutine : Narrows returnSubroutine := narrows_popWord.bind fun _ => narrows_setPC _

theorem narrows_pushA : Narrows pushA := (narrows_get _ fun _ => rfl).bind fun _ => narrows_push _

theorem narrows_pushStatus : Narrows pushStatus := (narrows_get _ fun _ => rfl).bind fun _ => narrows_push _

theorem narrows_pullA : Narrows pullA := narrows_pop.bind fun _ => narrows_updateRegP (fun _ => rfl) (fun _ => rfl)

theorem narrows_pullStatus : Narrows pullStatus := narrows_pop.bind fun _ => narrows_updateP fun _ => rfl

theorem narrows_trapEntry : Narrows trapEntry :=
  (narrows_get _ fun _ => rfl).bind fun _ => (narrows_pushWord _).bind fun _ => (narrows_get _ fun _ => rfl).bind fun _ =>
    (narrows_push _).bind fun _ => (narrows_readWordAt _ _).bind fun _ => narrows_setPC _

theorem narrows_trapReturn : Narrows trapReturn :=
  narrows_pop.bind fun _ => (narrows_updateP fun _ => rfl).bind fun _ => narrows_returnSubroutine

theorem narrows_noOperation : Narrows noOperation := narrows_update _ (fun _ _ => rfl) (fun _ => rfl)

/-! ### Every instruction -/

/-- R82, R162: no row asks the resolver for a mode it refuses, so a Bus operation out of range is the one stop there is. -/
theorem opOf_narrows (i : Instr) : Narrows (opOf i) := by
  cases i with
  | ldaImm | ldaZp | ldaZpX | ldaAbs | ldaAbsX | ldaAbsY | ldaIndX | ldaIndY => exact narrows_load .A rfl
  | ldxImm | ldxZp | ldxZpY | ldxAbs | ldxAbsY => exact narrows_load .X rfl
  | ldyImm | ldyZp | ldyZpX | ldyAbs | ldyAbsX => exact narrows_load .Y rfl
  | staZp | staZpX | staAbs | staAbsX | staAbsY | staIndX | staIndY => exact narrows_store .A rfl
  | stxZp | stxZpY | stxAbs => exact narrows_store .X rfl
  | styZp | styZpX | styAbs => exact narrows_store .Y rfl
  | tax | tay | txa | tya | tsx => exact narrows_transfer _ _
  | txs => exact narrows_transferToS
  | clc | cld | cli | clv | sec | sed | sei => exact narrows_writeFlag _ _
  | incZp | incZpX | incAbs | incAbsX => exact narrows_modifyMem incByte rfl
  | decZp | decZpX | decAbs | decAbsX => exact narrows_modifyMem decByte rfl
  | inx | iny | dex | dey => exact narrows_modifyReg _ _
  | cmpImm | cmpZp | cmpZpX | cmpAbs | cmpAbsX | cmpAbsY | cmpIndX | cmpIndY => exact narrows_compare .A rfl
  | cpxImm | cpxZp | cpxAbs => exact narrows_compare .X rfl
  | cpyImm | cpyZp | cpyAbs => exact narrows_compare .Y rfl
  | andImm | andZp | andZpX | andAbs | andAbsX | andAbsY | andIndX | andIndY => exact narrows_logical andByte rfl
  | oraImm | oraZp | oraZpX | oraAbs | oraAbsX | oraAbsY | oraIndX | oraIndY => exact narrows_logical oraByte rfl
  | eorImm | eorZp | eorZpX | eorAbs | eorAbsX | eorAbsY | eorIndX | eorIndY => exact narrows_logical eorByte rfl
  | aslAcc | lsrAcc | rolAcc | rorAcc => exact narrows_shiftAcc _
  | aslZp | aslZpX | aslAbs | aslAbsX => exact narrows_shiftMem aslF rfl
  | lsrZp | lsrZpX | lsrAbs | lsrAbsX => exact narrows_shiftMem lsrF rfl
  | rolZp | rolZpX | rolAbs | rolAbsX => exact narrows_shiftMem rolF rfl
  | rorZp | rorZpX | rorAbs | rorAbsX => exact narrows_shiftMem rorF rfl
  | beq | bne | bmi | bpl | bcs | bcc | bvc | bvs => exact narrows_branch _ _
  | jmpAbs | jmpInd => exact narrows_jump rfl
  | jsr => exact narrows_jumpSubroutine
  | rts => exact narrows_returnSubroutine
  | pha => exact narrows_pushA
  | pla => exact narrows_pullA
  | php => exact narrows_pushStatus
  | plp => exact narrows_pullStatus
  | bitZp | bitAbs => exact narrows_bitTest rfl
  | adcImm | adcZp | adcZpX | adcAbs | adcAbsX | adcAbsY | adcIndX | adcIndY =>
    exact narrows_arith (out := adcAt) (fun _ => rfl) rfl
  | sbcImm | sbcZp | sbcZpX | sbcAbs | sbcAbsX | sbcAbsY | sbcIndX | sbcIndY =>
    exact narrows_arith (out := sbcAt) (fun _ => rfl) rfl
  | brk => exact narrows_trapEntry
  | rti => exact narrows_trapReturn
  | nop => exact narrows_noOperation

/-- R34, R164: no change that a footprint allows touches the fault record; `finish` alone writes it. -/
theorem respects_faultRecord (F : Footprint) : Respects (fun s t => t.faultRecord = s.faultRecord) F where
  refl := fun _ => rfl
  trans := fun h k => k.trans h
  read := fun _ _ => rfl
  pc := fun _ _ => rfl
  reg := fun r _ s v => setReg_faultRecord s r v
  flags := fun _ _ _ => rfl
  restore := fun _ _ _ => rfl
  write := fun _ _ _ _ _ => rfl

/-- R164: an operation that ends without a fault leaves the fault record. -/
theorem opOf_ok_faultRecord {i : Instr} {s t : State} (h : opOf i s = .ok () t) : t.faultRecord = s.faultRecord := by
  have hk := opOf_keeps i (respects_faultRecord _) s
  simpa only [Op.endState, h] using hk

/-- Settles O47: a full memory is its own widening, where every operation completes (`opOf_narrows`). -/
theorem everyInstructionCompletesOnFullMemory : Obligations.EveryInstructionCompletesOnFullMemory := by
  intro i s hs
  obtain ⟨_, t, hrun, hcfg, -⟩ := opOf_narrows i s
  rw [widen_of_full hs] at hrun hcfg
  exact ⟨t, by rw [exec_eq_finish, finish_ok hrun], opOf_ok_faultRecord hrun, hcfg⟩

/-- Settles O53: the two runs of the instruction's operation that `opOf_narrows` compares, and what `finish` answers. -/
theorem firstAccessOutOfRangeRaisesBusRange : Obligations.FirstAccessOutOfRangeRaisesBusRange := by
  rintro i s _ u rfl hexec
  obtain ⟨_, w, hfull, -, -, hsmall⟩ := opOf_narrows i s
  obtain rfl : w = u := Host.Outcome.next.inj ((finish_ok hfull).symm.trans (exec_eq_finish i s.widen ▸ hexec))
  rw [exec_eq_finish]
  rcases hsmall with ⟨hrun, before, hbus, hbelow⟩ | ⟨t, e, before, later, hrun, hbus, hbelow, hout, hlater⟩
  · exact ⟨_, before, finish_ok hrun, hbus, hbelow, .inl rfl⟩
  · exact ⟨_, before, finish_error hrun, hbus, hbelow, .inr ⟨e, later, rfl, hout, hlater⟩⟩

end Sys2Proof.Machine
end

section
/-! PROOFS. The host's operations between steps (spec/70_reset_and_hazards.md R180 to R187, R193): construction over the
launch memory, reset, the host's step and writes, and run. -/

namespace Sys2Proof.Machine

open Sys2Proof.Spec

/-! ### Construction -/

/-- R58, R180: one cell of the launch memory is set, where it exists. -/
def setCell (n : Nat) (m : List Host.Cell) (c : Host.Cell) : List Host.Cell :=
  if c.1 < n then Memory.write m c.1 c.2 else m

/-- R180: the memory that `construct` builds from the cells of M0. -/
def launchMemory (n : Nat) (m0 : List Host.Cell) : List Host.Cell := m0.foldl (setCell n) []

/-- R180, R182: a newly built core over a memory. -/
def newCore (cfg : Config) (m : List Host.Cell) : State :=
  { A := 0, X := 0, Y := 0, S := 0, PC := 0, P := 0, faultRecord := none, mem := m, bus := [], cfg := cfg }

section

variable {cfg : Config} {n a : Nat}

theorem construct_eq_newCore (h : cfg.ok = true) (m0 : List Host.Cell) :
    construct cfg m0 = .next (newCore cfg (launchMemory cfg.memLen m0)) := if_pos h

/-- R58: setting cells at other addresses does not set the cell at `a`. -/
theorem find_foldl_setCell {m0 : List Host.Cell} (h : ∀ c ∈ m0, c.1 ≠ a) (m : List Host.Cell) :
    Memory.find (m0.foldl (setCell n) m) a = Memory.find m a := by
  induction m0 generalizing m with
  | nil => rfl
  | cons c rest ih =>
    have hc : a ≠ c.1 := (h c List.mem_cons_self).symm
    have hset : Memory.find (setCell n m c) a = Memory.find m a := by
      unfold setCell
      split
      · rw [find_write, if_neg hc]
      · rfl
    rw [List.foldl_cons, ih (fun d hd => h d (List.mem_cons_of_mem c hd)), hset]

/-- R58: the cell listed last is written last. -/
theorem launchMemory_append (h : a < n) (m0 : List Host.Cell) (v : Byte) :
    launchMemory n (m0 ++ [(a, v)]) = Memory.write (launchMemory n m0) a v := by
  rw [launchMemory, List.foldl_append]
  exact if_pos h

theorem newCore_inv (h : cfg.ok = true) (m0 : List Host.Cell) : (newCore cfg (launchMemory cfg.memLen m0)).Inv := by
  obtain ⟨hwf, hbelow⟩ := launch_wf cfg.memLen m0 [] ⟨rfl, rfl⟩
  exact ⟨h, hwf, hbelow, show getFlag .B 0 = false by decide⟩

end

/-- Settles O58: the core over the launch memory, whose cells `find_foldl_setCell` and `launchMemory_append` give. -/
theorem constructionZeroesTheRegisters : Obligations.ConstructionZeroesTheRegisters := by
  intro cfg m0 hlow hhigh
  have hok : cfg.ok = true := config_ok_iff.mpr ⟨hlow, hhigh⟩
  refine ⟨_, construct_eq_newCore hok m0, rfl, rfl, rfl, rfl, rfl, rfl, rfl, rfl, rfl, newCore_inv hok m0,
    fun a ha => ?_, fun a v ha s' hs' => ?_⟩
  · have hunset : Memory.find (launchMemory cfg.memLen m0) a = none := find_foldl_setCell ha []
    simp only [State.memByte, Memory.read, newCore, hunset, Option.getD_none]
  · obtain rfl := Host.Outcome.next.inj ((construct_eq_newCore hok _).symm.trans hs')
    have hread : ∀ b, (newCore cfg (launchMemory cfg.memLen (m0 ++ [(a, v)]))).memByte b =
        if b = a then v else (newCore cfg (launchMemory cfg.memLen m0)).memByte b := fun b => by
      rw [State.memByte, newCore, launchMemory_append ha, read_write]
      rfl
    exact ⟨by rw [hread, if_pos rfl], fun b hb => by rw [hread, if_neg hb]⟩

/-! ### Reset -/

section

variable {s t : State}

theorem hostReset_ok (hok : s.cfg.ok = true) (h : loadResetVector { s with faultRecord := none } = .ok () t) :
    hostReset s = .ok t := by
  simp only [hostReset, hok, if_true, h]

theorem hostReset_error {f : Fault} (hok : s.cfg.ok = true)
    (h : loadResetVector { s with faultRecord := none } = .error f t) :
    hostReset s = .fault f { t with faultRecord := some f } := by
  simp only [hostReset, hok, if_true, h]
  rfl

variable {v w : Addr} (hv : v = s.cfg.resetVector) (hw : w = BitVec.ofNat 16 (v.toNat + 1))

include hv hw

/-- R181: the vector's two reads, and then PC. -/
theorem loadResetVector_eq : loadResetVector s = (readWordAt v w >>= setPC) s := by
  rw [hw, ← addr_add_one, hv]
  rfl

theorem loadResetVector_ok (hvr : v.toNat < s.cfg.memLen) (hwr : w.toNat < s.cfg.memLen) :
    loadResetVector s = .ok () { afterRead (afterRead s v) w with PC := word ((afterRead s v).busByte w) (s.busByte v) } := by
  rw [loadResetVector_eq hv hw, bind_ok (readWordAt_ok hvr hwr), setPC_run]

theorem loadResetVector_error_first (h : s.cfg.memLen ≤ v.toNat) : loadResetVector s = .error (.busRange v) s := by
  rw [loadResetVector_eq hv hw, bind_error (readWordAt_error_first h)]

theorem loadResetVector_error_second (hvr : v.toNat < s.cfg.memLen) (h : s.cfg.memLen ≤ w.toNat) :
    loadResetVector s = .error (.busRange w) (afterRead s v) := by
  rw [loadResetVector_eq hv hw, bind_error (readWordAt_error_second hvr h)]

end

/-- Settles O59: the reads of the vector from the state with the record cleared, in and out of range. -/
theorem resetLoadsOnlyPc : Obligations.ResetLoadsOnlyPc := by
  rintro s _ _ v w hlow hhigh rfl hv hw rfl
  have hok : s.cfg.ok = true := config_ok_iff.mpr ⟨hlow, hhigh⟩
  exact ⟨fun hvr hwr => hostReset_ok hok (loadResetVector_ok hv hw hvr hwr),
    fun h => hostReset_error (t := { s with faultRecord := none }) hok (loadResetVector_error_first hv hw h),
    fun hvr h => hostReset_error hok (loadResetVector_error_second hv hw hvr h)⟩

/-- R181: with a full memory `reset()` reaches its vector and leaves no fault on record. -/
theorem hostReset_full {s : State} (hs : s.FullMemory) : ∃ t, hostReset s = .ok t ∧ t.faultRecord = none := by
  obtain ⟨hreset, -, -⟩ := resetLoadsOnlyPc s _ _ _ _ (by rw [hs]; decide) hs.le rfl rfl rfl rfl
  exact ⟨_, hreset (inRange hs _) (inRange hs _), rfl⟩

/-- Settles O49: the reset state is written out, and each clause is evaluated on it. -/
theorem resetStateIsAsTheRulesSay : Obligations.ResetStateIsAsTheRulesSay :=
  ⟨rfl, rfl, rfl, rfl, rfl, rfl, ⟨0, rfl⟩, rfl, rfl, rfl, rfl, rfl, rfl⟩

/-! ### The host's step and the host's writes -/

/-- R184: the host's step is ok exactly where the step records no fault. -/
theorem hostStep_ok_iff {s t : State} : hostStep s = .ok t ↔ step s = .next t ∧ t.faultRecord = none := by
  unfold hostStep
  cases step s with
  | next u =>
    cases hrec : u.faultRecord with
    | none => simpa [hrec] using fun h : u = t => h ▸ hrec
    | some f => simpa [hrec] using fun h : u = t => by simp [← h, hrec]
  | fault f => simp
  | refused r => simp

theorem hostStep_fault_iff {s t : State} {f : Fault} :
    hostStep s = .fault f t ↔ (step s = .next t ∧ t.faultRecord = some f) ∨ (step s = .fault f ∧ t = s) := by
  unfold hostStep
  cases step s with
  | next u =>
    cases hrec : u.faultRecord with
    | none => simpa [hrec] using fun h : u = t => by simp [← h, hrec]
    | some g =>
      have hiff : g = f ∧ u = t ↔ u = t ∧ t.faultRecord = some f :=
        and_comm.trans (and_congr_right fun h => by simp [← h, hrec])
      simpa [hrec] using hiff
  | fault g => simp [eq_comm]
  | refused r => simp

section

variable {s : State} {a : Addr}

/-- R187: a cell that does not exist, or a device, is not changed. -/
theorem hostWriteMem_ignored (h : s.cfg.memLen ≤ a.toNat ∨ a ∈ s.cfg.ioRegion) (v : Byte) : hostWriteMem a v s = s := by
  unfold hostWriteMem
  by_cases hr : s.cfg.memLen ≤ a.toNat
  · rw [if_pos hr]
  · rw [if_neg hr, if_pos (h.resolve_left hr)]

/-- R187, R193: a cell of memory is. -/
theorem hostWriteMem_stored (hr : a.toNat < s.cfg.memLen) (hio : a ∉ s.cfg.ioRegion) (v : Byte) :
    hostWriteMem a v s = { s with mem := Memory.write s.mem a.toNat v } := by
  rw [hostWriteMem, if_neg (Nat.not_le.mpr hr), if_neg hio]

theorem hostWriteMem_faultRecord (a : Addr) (v : Byte) (s : State) : (hostWriteMem a v s).faultRecord = s.faultRecord := by
  unfold hostWriteMem
  split_ifs <;> rfl

end

/-- R187: a host write of a register stores the value mod 256 there and nowhere else. -/
theorem hostWriteReg_getReg (r q : Reg) (v : Nat) (s : State) :
    ((hostWriteReg r v s).getReg q).toNat = if q = r then v % 256 else (s.getReg q).toNat := by
  unfold hostWriteReg
  by_cases h : q = r
  · rw [if_pos h, h, getReg_setReg_same]
    exact BitVec.toNat_ofNat v 8
  · rw [if_neg h, getReg_setReg_other s r _ h]

/-- Settles O57: the laws of the host's step and of each host write. -/
theorem hostStepsAndWritesBetweenSteps : Obligations.HostStepsAndWritesBetweenSteps := by
  refine ⟨fun s t => hostStep_ok_iff, fun s t f => hostStep_fault_iff, hostWriteReg_getReg,
    fun r v s => by cases r <;> rfl, fun v s => ⟨BitVec.toNat_ofNat v 8, rfl⟩, fun v s => ⟨BitVec.toNat_ofNat v 16, rfl⟩,
    fun a v s => ⟨fun hr hio => ?_, fun h => hostWriteMem_ignored h v⟩⟩
  rw [hostWriteMem_stored hr hio]
  refine ⟨rfl, fun b => ?_⟩
  simp only [byteAt, State.memByte, read_write, BitVec.toNat_inj]

/-! ### Run -/

section

variable {s t : State} {n : Nat}

theorem run_of_past_memory (h : s.cfg.memLen ≤ s.PC.toNat) (n : Nat) : run n s = .halted s := by
  rw [run.eq_def]
  exact if_pos h

/-- A run from a PC at or above MEM_LEN halts in the state it starts from. -/
theorem halted_where_it_stands (h : s.cfg.memLen ≤ s.PC.toNat) (hrun : run n s = .halted t) :
    t.cfg = s.cfg ∧ t.cfg.memLen ≤ t.PC.toNat := by
  obtain rfl := RunResult.halted.inj ((run_of_past_memory h n).symm.trans hrun)
  exact ⟨rfl, h⟩

variable (h : s.PC.toNat < s.cfg.memLen)

include h

theorem run_zero : run 0 s = .outOfFuel s := by
  rw [run.eq_def]
  exact if_neg (Nat.not_le.mpr h)

theorem run_succ_of_ok (hstep : hostStep s = .ok t) (n : Nat) : run (n + 1) s = run n t := by
  rw [run.eq_def]
  simp only [if_neg (Nat.not_le.mpr h), hstep]

theorem run_succ_of_fault {f : Fault} (hstep : hostStep s = .fault f t) (n : Nat) : run (n + 1) s = .fault f t := by
  rw [run.eq_def]
  simp only [if_neg (Nat.not_le.mpr h), hstep]

theorem run_succ_of_refused {r : Refusal} (hstep : hostStep s = .refused r) (n : Nat) : run (n + 1) s = .refused r := by
  rw [run.eq_def]
  simp only [if_neg (Nat.not_le.mpr h), hstep]

end

/-- D19: a run that halts does so with PC at or above MEM_LEN, which no step changes. -/
theorem run_halted_past_memory {n : Nat} {s t : State} (hrun : run n s = .halted t) :
    t.cfg = s.cfg ∧ t.cfg.memLen ≤ t.PC.toNat := by
  induction n generalizing s with
  | zero =>
    refine halted_where_it_stands (Nat.not_lt.mp fun hlt => ?_) hrun
    rw [run_zero hlt] at hrun
    cases hrun
  | succ n ih =>
    by_cases hpc : s.cfg.memLen ≤ s.PC.toNat
    · exact halted_where_it_stands hpc hrun
    · have hlt : s.PC.toNat < s.cfg.memLen := Nat.not_le.mp hpc
      cases hstep : hostStep s with
      | ok u =>
        rw [run_succ_of_ok hlt hstep] at hrun
        obtain ⟨hcfg, hpast⟩ := ih hrun
        have hstepcfg : u.cfg = s.cfg := (busRecordReplaysToTheMemory s u (hostStep_ok_iff.mp hstep).1).1
        exact ⟨hcfg.trans hstepcfg, hpast⟩
      | fault f u =>
        rw [run_succ_of_fault hlt hstep] at hrun
        cases hrun
      | refused r =>
        rw [run_succ_of_refused hlt hstep] at hrun
        cases hrun

/-- Settles O60: the laws of `run`; with a full memory there is no PC to halt at. -/
theorem runHaltsOnlyPastTheMemory : Obligations.RunHaltsOnlyPastTheMemory := by
  refine ⟨fun n s h => run_of_past_memory h n, fun s h => run_zero h, fun n s h => ⟨fun t ht => run_succ_of_ok h ht n,
    fun f t ht => run_succ_of_fault h ht n, fun r hr => run_succ_of_refused h hr n⟩, fun n s t => run_halted_past_memory,
    fun n s t hs hrun => ?_⟩
  obtain ⟨hcfg, hpast⟩ := run_halted_past_memory hrun
  exact absurd hpast (Nat.not_le.mpr (inRange (fullMemory_of_cfg hs hcfg) t.PC))

/-! ### The fault record -/

/-- Settles O7: the step returns the fault, no host write touches the record, and `reset()` clears it. -/
theorem recordedFaultIsSticky : Obligations.RecordedFaultIsSticky := by
  intro s f hok hf
  have hstep : step s = .fault f := step_recorded hok hf
  have hhost : hostStep s = .fault f s := hostStep_fault_iff.mpr (.inr ⟨hstep, rfl⟩)
  exact ⟨hstep, hhost, fun n hpc => run_succ_of_fault hpc hhost n,
    fun r v => (setReg_faultRecord s r _).trans hf, fun v => ⟨hf, hf⟩,
    fun a v => (hostWriteMem_faultRecord a v s).trans hf, hostReset_full⟩

end Sys2Proof.Machine
end
